-- ==== Sys2Proof/Word.lean ====
section
/-! DEFINITION. The words of the block: a symbol, a field of a code, the three widths, the two units. -/

namespace Sys2Proof

/-- A Symbol is one 8-bit byte (00_scope.md R9). The block only copies symbols and compares them for equality. -/
abbrev Symbol := BitVec 8

/-- An `offset` or `length` field, or a cell of a code buffer: a `W`-bit unsigned value, held zero-extended to the
widest width, 32 (00_scope.md R7, 30_encoding.md R70, R72). -/
abbrev Field := BitVec 32

/-- The width `W` of the `offset` and `length` fields, exactly one of 8, 16 and 32 (00_scope.md R7). -/
inductive Width where
  | w8
  | w16
  | w32
deriving DecidableEq, Repr

/-- The two independent units of the block (00_scope.md R3). -/
inductive UnitId where
  | enc
  | dec
deriving DecidableEq, Repr

end Sys2Proof
end

