-- ==== Sys2Proof/Syntax.lean ====
section
/-! DEFINITION. The instructions: one constructor for each of the 22 rows of spec/opcode_table.json. -/

namespace Sys2Proof

/-- The commands a host can give (30_encoding.md R84) and the codes the decoder executes, at each width
(30_encoding.md R78, R79, R85). Operands stand in the order of the code's cells: offset, length, literal. -/
inductive Instr where
  /-- `ENCODE`: start the encoder's call (43_commands.md R141). -/
  | encodeCmd
  /-- `DECODE`: start the decoder's call (43_commands.md R142). -/
  | decodeCmd
  /-- `NOP` written to `ENC_CMD` (43_commands.md R146). -/
  | nopEnc
  /-- `NOP` written to `DEC_CMD` (43_commands.md R146). -/
  | nopDec
  /-- The general code format at `W = 8` (42_decoder.md R122). -/
  | codeW8 (offset length : BitVec 8) (literal : Symbol)
  /-- `LIT (0,0,s)` at `W = 8` (42_decoder.md R128). -/
  | litW8 (literal : Symbol)
  /-- `COPY`, `offset ≥ length ≥ 1`, at `W = 8` (42_decoder.md R129). -/
  | copyW8 (offset length : BitVec 8) (literal : Symbol)
  /-- `RUN`, `1 ≤ offset < length`, at `W = 8` (42_decoder.md R134). -/
  | runW8 (offset length : BitVec 8) (literal : Symbol)
  /-- Malformed `(0, length ≥ 1, s)` at `W = 8` (42_decoder.md R124). -/
  | badzW8 (length : BitVec 8) (literal : Symbol)
  /-- Malformed `(offset ≥ 1, 0, s)` at `W = 8` (42_decoder.md R135). -/
  | litxW8 (offset : BitVec 8) (literal : Symbol)
  /-- The general code format at `W = 16` (42_decoder.md R122). -/
  | codeW16 (offset length : BitVec 16) (literal : Symbol)
  /-- `LIT (0,0,s)` at `W = 16` (42_decoder.md R128). -/
  | litW16 (literal : Symbol)
  /-- `COPY`, `offset ≥ length ≥ 1`, at `W = 16` (42_decoder.md R129). -/
  | copyW16 (offset length : BitVec 16) (literal : Symbol)
  /-- `RUN`, `1 ≤ offset < length`, at `W = 16` (42_decoder.md R134). -/
  | runW16 (offset length : BitVec 16) (literal : Symbol)
  /-- Malformed `(0, length ≥ 1, s)` at `W = 16` (42_decoder.md R124). -/
  | badzW16 (length : BitVec 16) (literal : Symbol)
  /-- Malformed `(offset ≥ 1, 0, s)` at `W = 16` (42_decoder.md R135). -/
  | litxW16 (offset : BitVec 16) (literal : Symbol)
  /-- The general code format at `W = 32` (42_decoder.md R122). -/
  | codeW32 (offset length : BitVec 32) (literal : Symbol)
  /-- `LIT (0,0,s)` at `W = 32` (42_decoder.md R128). -/
  | litW32 (literal : Symbol)
  /-- `COPY`, `offset ≥ length ≥ 1`, at `W = 32` (42_decoder.md R129). -/
  | copyW32 (offset length : BitVec 32) (literal : Symbol)
  /-- `RUN`, `1 ≤ offset < length`, at `W = 32` (42_decoder.md R134). -/
  | runW32 (offset length : BitVec 32) (literal : Symbol)
  /-- Malformed `(0, length ≥ 1, s)` at `W = 32` (42_decoder.md R124). -/
  | badzW32 (length : BitVec 32) (literal : Symbol)
  /-- Malformed `(offset ≥ 1, 0, s)` at `W = 32` (42_decoder.md R135). -/
  | litxW32 (offset : BitVec 32) (literal : Symbol)
deriving DecidableEq, Repr

end Sys2Proof
end

