-- ==== Sys2Proof/WellFormed.lean ====
section
/-! DEFINITION. Which instructions are well formed: the constraint of each row of spec/opcode_table.json. -/

namespace Sys2Proof

/-- `COPY`: `length ≥ 1` and `offset ≥ length` (30_encoding.md R78). -/
def copyFields (offset length : Nat) : Bool :=
  decide (1 ≤ length) && decide (length ≤ offset)

/-- `RUN`: `1 ≤ offset < length` (30_encoding.md R78). -/
def runFields (offset length : Nat) : Bool :=
  decide (1 ≤ offset) && decide (offset < length)

/-- The field that a malformed row requires to be non-zero (30_encoding.md R79). -/
def nonzeroField (v : Nat) : Bool :=
  decide (1 ≤ v)

/-- The constraint of the instruction's row. A command has none. The general row `CODE` and `LIT` have none: every
triple of field values is a code (30_encoding.md R70, R79). -/
def Instr.wellFormed : Instr → Bool
  | .encodeCmd => true
  | .decodeCmd => true
  | .nopEnc => true
  | .nopDec => true
  | .codeW8 _ _ _ => true
  | .litW8 _ => true
  | .copyW8 o l _ => copyFields o.toNat l.toNat
  | .runW8 o l _ => runFields o.toNat l.toNat
  | .badzW8 l _ => nonzeroField l.toNat
  | .litxW8 o _ => nonzeroField o.toNat
  | .codeW16 _ _ _ => true
  | .litW16 _ => true
  | .copyW16 o l _ => copyFields o.toNat l.toNat
  | .runW16 o l _ => runFields o.toNat l.toNat
  | .badzW16 l _ => nonzeroField l.toNat
  | .litxW16 o _ => nonzeroField o.toNat
  | .codeW32 _ _ _ => true
  | .litW32 _ => true
  | .copyW32 o l _ => copyFields o.toNat l.toNat
  | .runW32 o l _ => runFields o.toNat l.toNat
  | .badzW32 l _ => nonzeroField l.toNat
  | .litxW32 o _ => nonzeroField o.toNat

end Sys2Proof
end

