-- ==== Sys2Proof/Decode.lean ====
section
/-! DEFINITION. The decoder, total on every command word and every three cells, and the encoder written from the same
layout (30_encoding.md R72, R74, R78, R79, R84). -/

namespace Sys2Proof

/-- `W` in bits (00_scope.md R7). -/
def widthBits : Width → Nat
  | .w8 => 8
  | .w16 => 16
  | .w32 => 32

/-- `WMAX(W)`, the largest unsigned `W`-bit integer (00_scope.md R8). -/
def wmax : Width → Nat
  | .w8 => 255
  | .w16 => 65535
  | .w32 => 4294967295

/-- What is decoded: the word written to a unit's `CMD` register, or the three cells of a code, offset, length and literal,
each of the width's bits (30_encoding.md R72). -/
inductive RawWord where
  | command (u : UnitId) (word : Nat)
  | code8 (offset length literal : BitVec 8)
  | code16 (offset length literal : BitVec 16)
  | code32 (offset length literal : BitVec 32)
deriving DecidableEq, Repr

/-- The cells of a code at a width, from their low bits. -/
def rawCode (w : Width) (o l lit : Field) : RawWord :=
  match w with
  | .w8 => .code8 (o.setWidth 8) (l.setWidth 8) (lit.setWidth 8)
  | .w16 => .code16 (o.setWidth 16) (l.setWidth 16) (lit.setWidth 16)
  | .w32 => .code32 o l lit

/-- Why a word is no instruction. -/
inductive DecodeError where
  /-- A `CMD` write with a bit above bit 0 set (30_encoding.md R81 (2), R84). -/
  | reservedCommand
  /-- A literal cell above 255 (30_encoding.md R74, R81 (4)). -/
  | literalTooWide
deriving DecidableEq, Repr

/-- What decoding answers. -/
inductive Decoded where
  | instr (i : Instr)
  | reject (e : DecodeError)
deriving DecidableEq, Repr

/-- The command map (30_encoding.md R84). -/
def decodeCommand : UnitId → Nat → Decoded
  | .enc, 0 => .instr .nopEnc
  | .enc, 1 => .instr .encodeCmd
  | .dec, 0 => .instr .nopDec
  | .dec, 1 => .instr .decodeCmd
  | _, _ => .reject .reservedCommand

/-- The class of a code at `W = 8` by its offset and length (30_encoding.md R78, R79). -/
def classW8 (o l : BitVec 8) (lit : Symbol) : Instr :=
  if l.toNat = 0 then
    if o.toNat = 0 then .litW8 lit else .litxW8 o lit
  else if o.toNat = 0 then .badzW8 l lit
  else if l.toNat ≤ o.toNat then .copyW8 o l lit
  else .runW8 o l lit

/-- The class of a code at `W = 16` by its offset and length (30_encoding.md R78, R79). -/
def classW16 (o l : BitVec 16) (lit : Symbol) : Instr :=
  if l.toNat = 0 then
    if o.toNat = 0 then .litW16 lit else .litxW16 o lit
  else if o.toNat = 0 then .badzW16 l lit
  else if l.toNat ≤ o.toNat then .copyW16 o l lit
  else .runW16 o l lit

/-- The class of a code at `W = 32` by its offset and length (30_encoding.md R78, R79). -/
def classW32 (o l : BitVec 32) (lit : Symbol) : Instr :=
  if l.toNat = 0 then
    if o.toNat = 0 then .litW32 lit else .litxW32 o lit
  else if o.toNat = 0 then .badzW32 l lit
  else if l.toNat ≤ o.toNat then .copyW32 o l lit
  else .runW32 o l lit

/-- The decoder. A literal cell above 255 denotes no code (30_encoding.md R74); at `W = 8` there is none. -/
def decode : RawWord → Decoded
  | .command u v => decodeCommand u v
  | .code8 o l lit => .instr (classW8 o l lit)
  | .code16 o l lit => if 255 < lit.toNat then .reject .literalTooWide else .instr (classW16 o l (lit.setWidth 8))
  | .code32 o l lit => if 255 < lit.toNat then .reject .literalTooWide else .instr (classW32 o l (lit.setWidth 8))

/-- The encoder: the command word of a command (30_encoding.md R84), the cells of a code with the literal zero-extended to the
field width (R72, R74). -/
def encode : Instr → RawWord
  | .encodeCmd => .command .enc 1
  | .decodeCmd => .command .dec 1
  | .nopEnc => .command .enc 0
  | .nopDec => .command .dec 0
  | .codeW8 o l s => .code8 o l s
  | .litW8 s => .code8 0 0 s
  | .copyW8 o l s => .code8 o l s
  | .runW8 o l s => .code8 o l s
  | .badzW8 l s => .code8 0 l s
  | .litxW8 o s => .code8 o 0 s
  | .codeW16 o l s => .code16 o l (s.setWidth 16)
  | .litW16 s => .code16 0 0 (s.setWidth 16)
  | .copyW16 o l s => .code16 o l (s.setWidth 16)
  | .runW16 o l s => .code16 o l (s.setWidth 16)
  | .badzW16 l s => .code16 0 l (s.setWidth 16)
  | .litxW16 o s => .code16 o 0 (s.setWidth 16)
  | .codeW32 o l s => .code32 o l (s.setWidth 32)
  | .litW32 s => .code32 0 0 (s.setWidth 32)
  | .copyW32 o l s => .code32 o l (s.setWidth 32)
  | .runW32 o l s => .code32 o l (s.setWidth 32)
  | .badzW32 l s => .code32 0 l (s.setWidth 32)
  | .litxW32 o s => .code32 o 0 (s.setWidth 32)

/-- The general row `CODE` has no bits of its own: its words are those of the five classes (30_encoding.md R85), so the
decoder reads its class. Every other instruction is its own class (log 7). -/
def Instr.codeClass : Instr → Instr
  | .codeW8 o l s => classW8 o l s
  | .codeW16 o l s => classW16 o l s
  | .codeW32 o l s => classW32 o l s
  | .encodeCmd => .encodeCmd
  | .decodeCmd => .decodeCmd
  | .nopEnc => .nopEnc
  | .nopDec => .nopDec
  | .litW8 s => .litW8 s
  | .copyW8 o l s => .copyW8 o l s
  | .runW8 o l s => .runW8 o l s
  | .badzW8 l s => .badzW8 l s
  | .litxW8 o s => .litxW8 o s
  | .litW16 s => .litW16 s
  | .copyW16 o l s => .copyW16 o l s
  | .runW16 o l s => .runW16 o l s
  | .badzW16 l s => .badzW16 l s
  | .litxW16 o s => .litxW16 o s
  | .litW32 s => .litW32 s
  | .copyW32 o l s => .copyW32 o l s
  | .runW32 o l s => .runW32 o l s
  | .badzW32 l s => .badzW32 l s
  | .litxW32 o s => .litxW32 o s

/-- The `j`-th field of `b` bits of a table pattern read as one number, bit 0 the pattern's last character. -/
def patternField (b j w : Nat) : Field :=
  BitVec.ofNat 32 (w / 2 ^ (b * j) % 2 ^ b)

/-- The cells of a table pattern of `3W` bits: its first `W` characters are the offset's cell, its last the literal's
(30_encoding.md R73). -/
def patternWord (w : Width) (v : Nat) : RawWord :=
  rawCode w (patternField (widthBits w) 2 v) (patternField (widthBits w) 1 v) (patternField (widthBits w) 0 v)

/-- The word a table row stands for: 32 bits are a command, 24, 48 and 96 bits a code at a width. A command's word does not
say to which unit it is written; it is read as a write to `ENC_CMD` (log 6). -/
def tableWord (nbits w : Nat) : Option RawWord :=
  if nbits = 32 then some (.command .enc w)
  else if nbits = 24 then some (patternWord .w8 w)
  else if nbits = 48 then some (patternWord .w16 w)
  else if nbits = 96 then some (patternWord .w32 w)
  else none

/-- The instruction the decoder reads from a table row's bits. -/
def decodeTableWord (nbits w : Nat) : Option Instr :=
  match tableWord nbits w with
  | none => none
  | some r =>
    match decode r with
    | .instr i => some i
    | .reject _ => none

end Sys2Proof
end

