-- ==== Sys2Proof/Config.lean ====
section
/-! DEFINITION. What an implementation of the block fixes (its open size parameters) and the free values. -/

namespace Sys2Proof

/-- The byte order of a platform's view of a cell, the parameter FIELD_BYTE_ORDER (20_memory.md R53). -/
inductive ByteOrder where
  | little
  | big
deriving DecidableEq, Repr

/-- Where a platform places the registers and the buffers, and how it lays out a cell: the open parameters of 20_memory.md R53
and R59, which no rule reads (log 10). The block itself fixes no address map. -/
structure Placement where
  /-- FIELD_BYTE_ORDER -/
  fieldByteOrder : ByteOrder
  /-- ENC_BASE -/
  encBase : Nat
  /-- DEC_BASE -/
  decBase : Nat
  /-- ENC_IBUF_BASE -/
  encIbufBase : Nat
  /-- ENC_CBUF_BASE -/
  encCbufBase : Nat
  /-- DEC_CBUF_BASE -/
  decCbufBase : Nat
  /-- DEC_OBUF_BASE -/
  decObufBase : Nat
deriving DecidableEq, Repr

/-- The open parameters of 00_scope.md R10. `none` is "unbounded", which R10 allows every one of them to be. -/
structure Params where
  /-- number of bits of the position, index, length and host registers -/
  posw : Option Nat
  /-- capacity of `ENC.IBUF` in symbols -/
  icap : Option Nat
  /-- capacity of `ENC.CBUF` in codes -/
  ccapE : Option Nat
  /-- capacity of `DEC.CBUF` in codes -/
  ccapD : Option Nat
  /-- capacity of `DEC.OBUF` in symbols -/
  ocap : Option Nat
  /-- the platform's placement (20_memory.md R53, R59); `none` where the block is placed nowhere -/
  placement : Option Placement
deriving DecidableEq, Repr

/-- Free value: what a read of a busy unit's register returns (10_state.md R40, 93 U5; log 5). -/
opaque Config.freeWord : Nat → Nat

/-- Free value: what a read of a code cell of a busy unit returns (10_state.md R40, 93 U5; log 5). -/
opaque Config.freeField : Nat → Field

/-- Free value: what a read of a symbol cell of a busy unit returns (10_state.md R40, 93 U5; log 5). -/
opaque Config.freeSymbol : Nat → Symbol

/-- Free value: what a code cell holds that a failed call wrote, by the number of the call and the cell's index
(60_exceptions.md R161, 93 U12; log 12). -/
opaque Config.failedField : Nat → Nat → Field

/-- Free value: what a symbol cell holds that a failed call wrote, by the number of the call and the cell's index
(60_exceptions.md R161, 93 U12; log 12). -/
opaque Config.failedSymbol : Nat → Nat → Symbol

/-- Free value: what a unit reads of a code cell that holds a value too large for the width of the call. The spec's cells are
`W` bits wide and it states no value here (20_memory.md R55; log 9). It depends on nothing but the width, the cell's index
and what was written to it, so that a call stays a function of its input (00_scope.md R4). -/
opaque Config.freeNarrow : Width → Nat → Field → Field

end Sys2Proof
end

