-- ==== Sys2Proof/Machine/State.lean ====
section
/-! DEFINITION. The state of the block as plain data (10_state.md R20), the reasons a step can stop, and the state after
reset (10_state.md R46). -/

namespace Sys2Proof.Machine

/-- A unit's run state (10_state.md R27, R34). -/
inductive RunState where
  | idle
  | busy
  | done
  | error
deriving DecidableEq, Repr

/-- A unit's failure cause (10_state.md R27, R34; 60_exceptions.md R155). The value 3 is never produced and has no name. -/
inductive Cause where
  | none
  | widthOverflow
  | invalidOffset
deriving DecidableEq, Repr

/-- The four private address spaces (20_memory.md R50). -/
inductive Space where
  | ibuf
  | encCbuf
  | decCbuf
  | obuf
deriving DecidableEq, Repr

/-- Who makes a transition: the host or one of the two units (00_scope.md R3, 60_exceptions.md R171). -/
inductive Agent where
  | host
  | enc
  | dec
deriving DecidableEq, Repr

/-- The host's moves, complete list (43_commands.md R154). A write to a register covers `CFG`, the length registers, `CMD`
and the read-only registers, by the register numbers of 10_state.md R36. -/
inductive HostMove where
  | writeReg (u : UnitId) (n v : Nat)
  | readReg (u : UnitId) (n : Nat)
  | writeIbuf (i : Nat) (v : Symbol)
  | writeDecCbuf (i : Nat) (v : Field)
  | readCell (sp : Space) (i : Nat)
  | reset
deriving DecidableEq, Repr

/-- What the model keeps of a call that has ended: how many cells of its output buffer it wrote, from index 0 on, and whether it
failed. The model's own record (log 12): the host's reads of what a failed call wrote are told by it, and nothing else. -/
structure PastCall where
  count : Nat
  failed : Bool
deriving DecidableEq, Repr

/-- The state of the encoder unit and its match finder (10_state.md R20 to R27). Positions, indices, counts and lengths are
natural numbers (00_scope.md R12). -/
structure Enc where
  /-- `ENC.WSEL` (R21) -/
  wsel : BitVec 2
  /-- `ENC.IBUF` (R22) -/
  ibuf : List Host.Cell
  /-- `ENC.ILEN` (R22) -/
  ilen : Nat
  /-- `ENC.CBUF` (R23) -/
  cbuf : List (Nat × Field)
  /-- `ENC.CLEN` (R23) -/
  clen : Nat
  /-- `ENC.pos` (R24) -/
  pos : Nat
  /-- `ENC.ws` (R25), the window start -/
  ws : Nat
  /-- `ENC.n` (R25), the window length -/
  n : Nat
  /-- `ENC.L` (R25), the lookahead length -/
  L : Nat
  /-- `ENC.s` (R25), the search length -/
  s : Nat
  /-- `ENC.bo` (R25), the offset of the best code so far -/
  bo : Field
  /-- `ENC.bl` (R25), the length of the best code so far -/
  bl : Field
  /-- `ENC.bs` (R25), the literal of the best code so far -/
  bs : Symbol
  /-- `MF.p` (R26), the pattern length -/
  mfP : Nat
  /-- `MF.c` (R26), the candidate start index -/
  mfC : Nat
  /-- `MF.hit` (R26) -/
  mfHit : Bool
  /-- `MF.m` (R26), the match index -/
  mfM : Nat
  /-- `ENC.STATE` (R27) -/
  state : RunState
  /-- `ENC.CAUSE` (R27) -/
  cause : Cause
  /-- the calls ended since reset, the newest first: the model's own record (log 12) -/
  past : List PastCall
deriving DecidableEq, Repr

/-- The state of the decoder unit and its copy unit (10_state.md R20, R28 to R34). -/
structure Dec where
  /-- `DEC.WSEL` (R28) -/
  wsel : BitVec 2
  /-- `DEC.CBUF` (R29) -/
  cbuf : List (Nat × Field)
  /-- `DEC.CLEN` (R29) -/
  clen : Nat
  /-- `DEC.OBUF` (R30) -/
  obuf : List Host.Cell
  /-- `DEC.k` (R31) -/
  k : Nat
  /-- `DEC.pos` (R32) -/
  pos : Nat
  /-- `DEC.o` (R33), the offset of the code being processed -/
  o : Field
  /-- `DEC.l` (R33), its length -/
  l : Field
  /-- `DEC.lit` (R33), its literal -/
  lit : Symbol
  /-- `CU.i` (R33), the symbols of the current copy already appended -/
  cuI : Nat
  /-- `DEC.STATE` (R34) -/
  state : RunState
  /-- `DEC.CAUSE` (R34) -/
  cause : Cause
  /-- the calls ended since reset, the newest first: the model's own record (log 12) -/
  past : List PastCall
deriving DecidableEq, Repr

end Sys2Proof.Machine

namespace Sys2Proof.Machine

/-- The block's two units, its fixed parameters, and the model's own input side: the host's coming moves, the coming
transitions' agents, the last value a host read returned, and the counter of the free values (log 2 to 5). -/
structure State where
  params : Params
  enc : Enc
  dec : Dec
  pending : List HostMove
  schedule : List Agent
  rdata : Option Nat
  freeCtr : Nat
deriving DecidableEq, Repr

/-- Reasons a step faults. -/
inductive Fault where
  /-- A unit or the host reads a cell that has not been written since reset (70_reset_and_hazards.md R182, 93 U13). Raised by
  every read of a buffer cell. Safe: the spec says such a cell holds no value and no rule reads one. -/
  | unwrittenCell (sp : Space) (i : Nat)
deriving DecidableEq, Repr

/-- Reasons a step is refused. Each is one the spec itself refuses, giving the operation no meaning; all are safe. -/
inductive Refusal where
  /-- An instruction with no meaning in this model, by its mnemonic; raised by `exec` only. Safe. -/
  | notModelled (mnemonic : String)
  /-- A call started or running with `WSEL = 3` (43_commands.md R143, 93 U6). Raised by the two commands and by a busy unit
  in a state no run reaches. Safe. -/
  | reservedWidth (u : UnitId)
  /-- A `CMD` write with a bit above bit 0 set (30_encoding.md R84, 93 U7). Raised by the host's register write. Safe. -/
  | reservedCommand
  /-- A literal cell above 255 met by `DEC` (30_encoding.md R74, 93 U8). Safe. -/
  | literalTooWide
  /-- An index, count, length or position beyond a capacity parameter or `POSW` (00_scope.md R10, 93 U9). Raised by the
  commands, by the units' writes and by the host's moves. Safe. -/
  | capacity
  /-- `MF.FIND` with an empty pattern (40_match_finder.md R94 (6), 93 U10); never raised by a step. Safe. -/
  | emptyPattern
  /-- A host write to a busy unit (10_state.md R40, 93 U5). Safe. -/
  | busyAccess (u : UnitId)
  /-- A host access to a register number that does not exist (10_state.md R36). Safe. -/
  | noSuchRegister (u : UnitId) (n : Nat)
deriving DecidableEq, Repr

/-- `ENC` after reset (10_state.md R46). The working registers are unspecified there; zero is this model's choice (log 1). -/
def Enc.reset : Enc where
  wsel := 0
  ibuf := []
  ilen := 0
  cbuf := []
  clen := 0
  pos := 0
  ws := 0
  n := 0
  L := 0
  s := 0
  bo := 0
  bl := 0
  bs := 0
  mfP := 0
  mfC := 0
  mfHit := false
  mfM := 0
  state := .idle
  cause := .none
  past := []

/-- `DEC` after reset (10_state.md R46). The working registers are unspecified there; zero is this model's choice (log 1). -/
def Dec.reset : Dec where
  wsel := 0
  cbuf := []
  clen := 0
  obuf := []
  k := 0
  pos := 0
  o := 0
  l := 0
  lit := 0
  cuI := 0
  state := .idle
  cause := .none
  past := []

/-- The block after reset (70_reset_and_hazards.md R180), with unbounded parameters (00_scope.md R10; log 2), no placement
(log 10), nothing pending and nothing scheduled (log 3, 4). -/
def State.reset : State where
  params := ⟨none, none, none, none, none, none⟩
  enc := Enc.reset
  dec := Dec.reset
  pending := []
  schedule := []
  rdata := none
  freeCtr := 0

end Sys2Proof.Machine
end

