-- ==== Sys2Proof/Machine/Ops.lean ====
section
/-! DEFINITION. The named operations over buffers and registers: reading and writing one cell, the capacity checks, starting
and ending a call, and raising an error (the block's one exception entry). -/

namespace Sys2Proof.Machine

/-- What an operation answers: a value, a fault or a refusal. -/
abbrev Res (α : Type) := Host.Outcome α Fault Refusal

/-- Do `f` after `r`, unless `r` stopped: no statement after a stop is executed (20_memory.md R61). -/
def andThen {α β : Type} (r : Res α) (f : α → Res β) : Res β :=
  match r with
  | .next a => f a
  | .fault e => .fault e
  | .refused e => .refused e

/-- The value an operation answers, if it answers one. -/
def answer {α : Type} (r : Res α) : Option α :=
  match r with
  | .next a => some a
  | .fault _ => none
  | .refused _ => none

/-- Read one whole cell by its index (20_memory.md R51); an unlisted cell holds no value (70_reset_and_hazards.md R182). -/
def Memory.read {n : Nat} : List (Nat × BitVec n) → Nat → Option (BitVec n)
  | [], _ => none
  | (b, v) :: t, a => if b = a then some v else Memory.read t a

/-- Write one whole cell by its index (20_memory.md R51), keeping the canonical form. -/
def Memory.write {n : Nat} : List (Nat × BitVec n) → Nat → BitVec n → List (Nat × BitVec n)
  | [], a, v => [(a, v)]
  | (b, w) :: t, a, v =>
    if a < b then (a, v) :: (b, w) :: t
    else if a = b then (a, v) :: t
    else (b, w) :: Memory.write t a v

/-- The canonical form of a buffer: indices strictly rising. No entry can equal what an unlisted index reads as, since that
is no value at all. -/
def Memory.wf {n : Nat} : List (Nat × BitVec n) → Bool
  | [] => true
  | [_] => true
  | (a, _) :: (b, w) :: t => decide (a < b) && Memory.wf ((b, w) :: t)

/-- `MemRead(addr, 1)` in a rule of a unit (00_scope.md section 6): the cell's value, or a fault where it holds none. -/
def memRead {n : Nat} (sp : Space) (m : List (Nat × BitVec n)) (i : Nat) : Res (BitVec n) :=
  match Memory.read m i with
  | some v => .next v
  | none => .fault (.unwrittenCell sp i)

/-- Does a count fit a capacity parameter (00_scope.md R10)? -/
def withinCap (c : Option Nat) (v : Nat) : Bool :=
  match c with
  | none => true
  | some m => decide (v ≤ m)

/-- Does a value fit a `POSW`-bit register (00_scope.md R10)? -/
def withinPosw (p : Params) (v : Nat) : Bool :=
  match p.posw with
  | none => true
  | some b => decide (v < 2 ^ b)

/-- The length in cells of `k` codes (20_memory.md R51, R59): three cells a code. -/
def codeCells (k : Nat) : Nat :=
  3 * k

/-- May a cell index of a buffer be used (20_memory.md R60)? A code takes three cells (R51). -/
def withinBuffer (p : Params) : Space → Nat → Bool
  | .ibuf, i => withinCap p.icap (i + 1)
  | .encCbuf, i => withinCap (p.ccapE.map codeCells) (i + 1)
  | .decCbuf, i => withinCap (p.ccapD.map codeCells) (i + 1)
  | .obuf, i => withinCap p.ocap (i + 1)

/-- The unit that owns a buffer (20_memory.md R50). -/
def Space.owner : Space → UnitId
  | .ibuf => .enc
  | .encCbuf => .enc
  | .decCbuf => .dec
  | .obuf => .dec

/-- A unit's run state. -/
def State.runState (s : State) : UnitId → RunState
  | .enc => s.enc.state
  | .dec => s.dec.state

/-- The record of a unit's call that ends now: `ENC` wrote three cells for each code emitted (10_state.md R23), `DEC` one cell
for each symbol decoded (R30). -/
def endedCall (u : UnitId) (failed : Bool) (s : State) : PastCall :=
  match u with
  | .enc => ⟨codeCells s.enc.clen, failed⟩
  | .dec => ⟨s.dec.pos, failed⟩

/-- The number of the failed call that wrote a cell of an output buffer last, if a failed call did (60_exceptions.md R161;
log 12). Every call writes its output from index 0 on. -/
def failedCall : List PastCall → Nat → Option Nat
  | [], _ => none
  | c :: past, i =>
    if i < c.count then
      if c.failed then some past.length else none
    else failedCall past i

/-- The exception entry (60_exceptions.md R158): `CAUSE` takes the error's code and `STATE` becomes `ERROR`; nothing else
changes but the model's record of the call, in particular the cursors keep the values they had (R160). There is no vector and
no handler to go to (R159, 20_memory.md R59), and no return (R162): `ERROR` is left by `beginCall` or by reset. -/
def raise (u : UnitId) (c : Cause) (s : State) : State :=
  match u with
  | .enc => { s with enc := { s.enc with state := .error, cause := c, past := endedCall .enc true s :: s.enc.past } }
  | .dec => { s with dec := { s.dec with state := .error, cause := c, past := endedCall .dec true s :: s.dec.past } }

/-- The start of a call (43_commands.md R141, R142, R150): `BUSY`, `CAUSE` cleared, the cursors and the output count zeroed
(41_encoder.md R101, 42_decoder.md R121), the buffers left (log 12). It is also the only way out of `ERROR` but for reset
(60_exceptions.md R162). -/
def beginCall (u : UnitId) (s : State) : State :=
  match u with
  | .enc => { s with enc := { s.enc with state := .busy, cause := .none, pos := 0, clen := 0 } }
  | .dec => { s with dec := { s.dec with state := .busy, cause := .none, pos := 0, k := 0 } }

/-- The end of a call's loop (43_commands.md R150): `DONE`, and the model's record of the call. -/
def endCall (u : UnitId) (s : State) : State :=
  match u with
  | .enc => { s with enc := { s.enc with state := .done, past := endedCall .enc false s :: s.enc.past } }
  | .dec => { s with dec := { s.dec with state := .done, past := endedCall .dec false s :: s.dec.past } }

end Sys2Proof.Machine
end

