-- ==== Sys2Proof/Machine/Flags.lean ====
section
/-! DEFINITION. The block's predicates (10_state.md R35): the status word of a unit, and the bounds that decide its two
errors. -/

namespace Sys2Proof.Machine

/-- The encoding of `STATE` (10_state.md R27, R37). -/
def RunState.code : RunState → Nat
  | .idle => 0
  | .busy => 1
  | .done => 2
  | .error => 3

/-- The encoding of `CAUSE` (10_state.md R27, R37; 60_exceptions.md R155). -/
def Cause.code : Cause → Nat
  | .none => 0
  | .widthOverflow => 1
  | .invalidOffset => 2

/-- The `STATUS` word (10_state.md R37): `STATE` in bits 1 and 0, `CAUSE` in bits 3 and 2, zero above. -/
def statusWord (st : RunState) (c : Cause) : Nat :=
  st.code + 4 * c.code

/-- A unit's `STATUS` register (43_commands.md R149). -/
def State.status (s : State) : UnitId → Nat
  | .enc => statusWord s.enc.state s.enc.cause
  | .dec => statusWord s.dec.state s.dec.cause

/-- The condition of `WidthOverflow` (41_encoder.md R108), on the values before they are narrowed to `W` bits. -/
def widthOverflows (w : Width) (offset length : Nat) : Bool :=
  decide (wmax w < offset) || decide (wmax w < length)

/-- The condition of `InvalidOffset`: `offset > position` for every code (42_decoder.md R123), or `length > 0` with
`offset = 0` (R124). -/
def offsetInvalid (pos offset length : Nat) : Bool :=
  decide (pos < offset) || (decide (0 < length) && decide (offset = 0))

end Sys2Proof.Machine
end

