-- ==== Sys2Proof/Machine/Operands.lean ====
section
/-! DEFINITION. The operands of the units' operations: the width a `WSEL` selects, the encoder's window and lookahead, and
the three cells of a code in a code buffer. -/

namespace Sys2Proof.Machine

/-- The width a `WSEL` selects (10_state.md R21, R28); the value 3 is reserved and selects none. -/
def widthOf (wsel : BitVec 2) : Option Width :=
  if wsel = 0 then some .w8
  else if wsel = 1 then some .w16
  else if wsel = 2 then some .w32
  else none

/-- A unit's configuration (10_state.md R21, R28). -/
def State.wsel (s : State) : UnitId → BitVec 2
  | .enc => s.enc.wsel
  | .dec => s.dec.wsel

/-- The `WSEL` that selects a width. -/
def wselOf : Width → BitVec 2
  | .w8 => 0
  | .w16 => 1
  | .w32 => 2

/-- The window start `max(0, pos − WMAX(W))`, with no negative intermediate (41_encoder.md R102, 00_scope.md R12). -/
def windowStart (w : Width) (pos : Nat) : Nat :=
  if wmax w < pos then pos - wmax w else 0

/-- `ENC.ws`, `ENC.n` and `ENC.L` of a step (41_encoder.md R102, R103). -/
def encWindow (w : Width) (e : Enc) : Enc :=
  { e with
    ws := windowStart w e.pos
    n := e.pos - windowStart w e.pos
    L := e.ilen - e.pos }

/-- The index of a code's cell `j` in a code buffer (20_memory.md R51, R57). -/
def cellIndex (k j : Nat) : Nat :=
  codeCells k + j

/-- What a unit reads of a code cell at the width of the call: the value it holds or, where that is no `W`-bit value, some
`W`-bit value (20_memory.md R55; the free value is log 9). -/
def narrowCell (w : Width) (i : Nat) (v : Field) : Field :=
  if v.toNat ≤ wmax w then v else BitVec.ofNat 32 ((Config.freeNarrow w i v).toNat % (wmax w + 1))

/-- The memory reads of `ReadCode(k)` at the width of the call (30_encoding.md R72): the cells of a code, in order. -/
def fetchCode (w : Width) (d : Dec) : Res RawWord :=
  andThen (memRead .decCbuf d.cbuf (cellIndex d.k 0)) fun o =>
  andThen (memRead .decCbuf d.cbuf (cellIndex d.k 1)) fun l =>
  andThen (memRead .decCbuf d.cbuf (cellIndex d.k 2)) fun lit =>
  .next (rawCode w (narrowCell w (cellIndex d.k 0) o) (narrowCell w (cellIndex d.k 1) l)
    (narrowCell w (cellIndex d.k 2) lit))

/-- The buffer after `WriteCode(k, (o, l, s))`: three cells, the literal zero-extended (30_encoding.md R72, R74). -/
def writeCode (m : List (Nat × Field)) (k : Nat) (o l : Field) (lit : Symbol) : List (Nat × Field) :=
  Memory.write (Memory.write (Memory.write m (cellIndex k 0) o) (cellIndex k 1) l) (cellIndex k 2) (lit.setWidth 32)

/-- The index the `i`-th symbol of a copy is read from (20_memory.md R57). -/
def copySource (pos offset i : Nat) : Nat :=
  pos - offset + i

end Sys2Proof.Machine
end

