-- ==== Sys2Proof/Machine/Decoder.lean ====
section
/-! DEFINITION. The copy unit's `CU.COPY` (42_decoder.md R125) and the execution of one code by `DEC.STEP` (R122 to R127). -/

namespace Sys2Proof.Machine

/-- The loop of `CU.COPY` (42_decoder.md R125): `r` symbols, each read and then written before the next is read
(70_reset_and_hazards.md R186, R187). -/
def copyFrom : Nat → Nat → Nat → List Host.Cell → Res (List Host.Cell)
  | 0, _, _, m => .next m
  | r + 1, src, dst, m =>
    andThen (memRead .obuf m src) fun v => copyFrom r (src + 1) (dst + 1) (Memory.write m dst v)

/-- `CU.COPY(pos, o, l)` (42_decoder.md R125). `CU.i` ends at the number of symbols appended (10_state.md R33; log 11). -/
def cuCopy (pos offset length : Nat) (d : Dec) : Res Dec :=
  andThen (copyFrom length (copySource pos offset 0) pos d.obuf) fun m =>
  .next { d with obuf := m, cuI := length }

/-- Step 1 of a code (42_decoder.md R122): the copy, made only when `length > 0`. -/
def decCopy (d : Dec) : Res Dec :=
  if 0 < d.l.toNat then cuCopy d.pos d.o.toNat d.l.toNat d else .next d

/-- Steps 2 and 3 of a code (42_decoder.md R126, R127): advance by the length, append the literal, advance by one, and go on
to the next code. -/
def decAppend (d : Dec) : Dec :=
  { d with
    obuf := Memory.write d.obuf (d.pos + d.l.toNat) d.lit
    pos := d.pos + d.l.toNat + 1
    k := d.k + 1 }

/-- `DEC.o`, `DEC.l` and `DEC.lit` of a step (42_decoder.md R122). -/
def decLoad (o l : Field) (lit : Symbol) (d : Dec) : Dec :=
  { d with o := o, l := l, lit := lit }

/-- The execution of one code by `DEC.STEP` (42_decoder.md R122): the checks in the order of 60_exceptions.md R165, before
anything is copied or appended, then the three steps. An output beyond `OCAP`, or a cursor beyond `POSW`, is refused
(20_memory.md R60). -/
def decCode (o l : Field) (lit : Symbol) (s : State) : Res State :=
  if offsetInvalid s.dec.pos o.toNat l.toNat then
    .next (raise .dec .invalidOffset { s with dec := decLoad o l lit s.dec })
  else if withinCap s.params.ocap (s.dec.pos + l.toNat + 1) && withinPosw s.params (s.dec.pos + l.toNat + 1) then
    andThen (decCopy (decLoad o l lit s.dec)) fun d => .next { s with dec := decAppend d }
  else .refused .capacity

end Sys2Proof.Machine
end

