-- ==== Sys2Proof/Machine/Codes.lean ====
section
/-! DEFINITION. The meanings of the codes at each width: every code is executed by the one decoder step `DEC.STEP`
(30_encoding.md R78, 42_decoder.md R122), which does not depend on the width beyond the range of the fields (R120). -/

namespace Sys2Proof.Machine

/-- `CODE` at `W = 8`, the general code (42_decoder.md R122). -/
def execCodeW8 (o l : BitVec 8) (lit : Symbol) (s : State) : Res State :=
  decCode (o.setWidth 32) (l.setWidth 32) lit s

/-- `LIT` at `W = 8`, a pure literal: offset and length 0 (42_decoder.md R128). -/
def execLitW8 (lit : Symbol) (s : State) : Res State :=
  decCode 0 0 lit s

/-- `COPY` at `W = 8`, a copy that does not overlap itself (42_decoder.md R129). -/
def execCopyW8 (o l : BitVec 8) (lit : Symbol) (s : State) : Res State :=
  decCode (o.setWidth 32) (l.setWidth 32) lit s

/-- `RUN` at `W = 8`, a copy that overlaps itself (42_decoder.md R134). -/
def execRunW8 (o l : BitVec 8) (lit : Symbol) (s : State) : Res State :=
  decCode (o.setWidth 32) (l.setWidth 32) lit s

/-- `BADZ` at `W = 8`, length with offset 0: `InvalidOffset` (42_decoder.md R124). -/
def execBadzW8 (l : BitVec 8) (lit : Symbol) (s : State) : Res State :=
  decCode 0 (l.setWidth 32) lit s

/-- `LITX` at `W = 8`, offset with length 0: `InvalidOffset` beyond the position, otherwise a literal (42_decoder.md R135). -/
def execLitxW8 (o : BitVec 8) (lit : Symbol) (s : State) : Res State :=
  decCode (o.setWidth 32) 0 lit s

/-- `CODE` at `W = 16`, the general code (42_decoder.md R122). -/
def execCodeW16 (o l : BitVec 16) (lit : Symbol) (s : State) : Res State :=
  decCode (o.setWidth 32) (l.setWidth 32) lit s

/-- `LIT` at `W = 16`, a pure literal: offset and length 0 (42_decoder.md R128). -/
def execLitW16 (lit : Symbol) (s : State) : Res State :=
  decCode 0 0 lit s

/-- `COPY` at `W = 16`, a copy that does not overlap itself (42_decoder.md R129). -/
def execCopyW16 (o l : BitVec 16) (lit : Symbol) (s : State) : Res State :=
  decCode (o.setWidth 32) (l.setWidth 32) lit s

/-- `RUN` at `W = 16`, a copy that overlaps itself (42_decoder.md R134). -/
def execRunW16 (o l : BitVec 16) (lit : Symbol) (s : State) : Res State :=
  decCode (o.setWidth 32) (l.setWidth 32) lit s

/-- `BADZ` at `W = 16`, length with offset 0: `InvalidOffset` (42_decoder.md R124). -/
def execBadzW16 (l : BitVec 16) (lit : Symbol) (s : State) : Res State :=
  decCode 0 (l.setWidth 32) lit s

/-- `LITX` at `W = 16`, offset with length 0: `InvalidOffset` beyond the position, otherwise a literal (42_decoder.md R135). -/
def execLitxW16 (o : BitVec 16) (lit : Symbol) (s : State) : Res State :=
  decCode (o.setWidth 32) 0 lit s

/-- `CODE` at `W = 32`, the general code (42_decoder.md R122). -/
def execCodeW32 (o l : BitVec 32) (lit : Symbol) (s : State) : Res State :=
  decCode o l lit s

/-- `LIT` at `W = 32`, a pure literal: offset and length 0 (42_decoder.md R128). -/
def execLitW32 (lit : Symbol) (s : State) : Res State :=
  decCode 0 0 lit s

/-- `COPY` at `W = 32`, a copy that does not overlap itself (42_decoder.md R129). -/
def execCopyW32 (o l : BitVec 32) (lit : Symbol) (s : State) : Res State :=
  decCode o l lit s

/-- `RUN` at `W = 32`, a copy that overlaps itself (42_decoder.md R134). -/
def execRunW32 (o l : BitVec 32) (lit : Symbol) (s : State) : Res State :=
  decCode o l lit s

/-- `BADZ` at `W = 32`, length with offset 0: `InvalidOffset` (42_decoder.md R124). -/
def execBadzW32 (l : BitVec 32) (lit : Symbol) (s : State) : Res State :=
  decCode 0 l lit s

/-- `LITX` at `W = 32`, offset with length 0: `InvalidOffset` beyond the position, otherwise a literal (42_decoder.md R135). -/
def execLitxW32 (o : BitVec 32) (lit : Symbol) (s : State) : Res State :=
  decCode o 0 lit s

end Sys2Proof.Machine
end

