-- ==== Sys2Proof/Machine/Commands.lean ====
section
/-! DEFINITION. The meanings of the commands `ENCODE`, `DECODE` and `NOP` (43_commands.md R140 to R146). -/

namespace Sys2Proof.Machine

/-- `ENCODE` (43_commands.md R141): ignored while `BUSY` (R144), refused with `WSEL = 3` (R143) or an input beyond `ICAP`
(00_scope.md R10), and otherwise the start of a call. -/
def execEncode (s : State) : Res State :=
  if s.enc.state = .busy then .next s
  else
    match widthOf s.enc.wsel with
    | none => .refused (.reservedWidth .enc)
    | some _ => if withinCap s.params.icap s.enc.ilen then .next (beginCall .enc s) else .refused .capacity

/-- `DECODE` (43_commands.md R142): ignored while `BUSY` (R144), refused with `WSEL = 3` (R143) or more codes than `CCAP_D`
(00_scope.md R10), and otherwise the start of a call. -/
def execDecode (s : State) : Res State :=
  if s.dec.state = .busy then .next s
  else
    match widthOf s.dec.wsel with
    | none => .refused (.reservedWidth .dec)
    | some _ => if withinCap s.params.ccapD s.dec.clen then .next (beginCall .dec s) else .refused .capacity

/-- `NOP` written to `ENC_CMD`: no effect, in any state (43_commands.md R146). -/
def execNopEnc (s : State) : Res State :=
  .next s

/-- `NOP` written to `DEC_CMD`: no effect, in any state (43_commands.md R146). -/
def execNopDec (s : State) : Res State :=
  .next s

end Sys2Proof.Machine
end

