-- ==== Sys2Proof/Machine/Dispatch.lean ====
section
/-! DEFINITION. What each instruction does: one arm per constructor of Instr, one per row of spec/opcode_table.json. -/

namespace Sys2Proof.Machine

def exec (i : Instr) (s : State) : Host.Outcome State Fault Refusal :=
  match i with
  | .encodeCmd => Sys2Proof.Machine.execEncode s
  | .decodeCmd => Sys2Proof.Machine.execDecode s
  | .nopEnc => Sys2Proof.Machine.execNopEnc s
  | .nopDec => Sys2Proof.Machine.execNopDec s
  | .codeW8 o l lit => Sys2Proof.Machine.execCodeW8 o l lit s
  | .litW8 lit => Sys2Proof.Machine.execLitW8 lit s
  | .copyW8 o l lit => Sys2Proof.Machine.execCopyW8 o l lit s
  | .runW8 o l lit => Sys2Proof.Machine.execRunW8 o l lit s
  | .badzW8 l lit => Sys2Proof.Machine.execBadzW8 l lit s
  | .litxW8 o lit => Sys2Proof.Machine.execLitxW8 o lit s
  | .codeW16 o l lit => Sys2Proof.Machine.execCodeW16 o l lit s
  | .litW16 lit => Sys2Proof.Machine.execLitW16 lit s
  | .copyW16 o l lit => Sys2Proof.Machine.execCopyW16 o l lit s
  | .runW16 o l lit => Sys2Proof.Machine.execRunW16 o l lit s
  | .badzW16 l lit => Sys2Proof.Machine.execBadzW16 l lit s
  | .litxW16 o lit => Sys2Proof.Machine.execLitxW16 o lit s
  | .codeW32 o l lit => Sys2Proof.Machine.execCodeW32 o l lit s
  | .litW32 lit => Sys2Proof.Machine.execLitW32 lit s
  | .copyW32 o l lit => Sys2Proof.Machine.execCopyW32 o l lit s
  | .runW32 o l lit => Sys2Proof.Machine.execRunW32 o l lit s
  | .badzW32 l lit => Sys2Proof.Machine.execBadzW32 l lit s
  | .litxW32 o lit => Sys2Proof.Machine.execLitxW32 o lit s

end Sys2Proof.Machine
end

