-- ==== Sys2Proof/Machine/Finder.lean ====
section
/-! DEFINITION. The rightmost-match finder `MF.FIND` (40_match_finder.md R90 to R97). -/

namespace Sys2Proof.Machine

/-- The segment comparison (40_match_finder.md R95): are the `p` symbols from `a` on equal to the `p` symbols from `b` on?
In the reference order, stopping at the first unequal pair. -/
def segEq (m : List Host.Cell) : Nat → Nat → Nat → Res Bool
  | _, _, 0 => .next true
  | a, b, p + 1 =>
    andThen (memRead .ibuf m a) fun x =>
    andThen (memRead .ibuf m b) fun y =>
    if x = y then segEq m (a + 1) (b + 1) p else .next false

/-- The finder's registers on a match at candidate `c` (40_match_finder.md R91). -/
def findHit (c : Nat) (e : Enc) : Enc :=
  { e with mfC := c, mfHit := true, mfM := c }

/-- The finder's registers when the candidates from `c` down are used up, or there are none (40_match_finder.md R91). -/
def findMiss (c : Nat) (e : Enc) : Enc :=
  { e with mfC := c, mfHit := false }

/-- The candidates from `c` down to 0 (40_match_finder.md R91). The window starts at `ENC.ws`, the pattern of `p` symbols at
`ENC.pos` (20_memory.md R56). -/
def findFrom (p : Nat) : Nat → Enc → Res Enc
  | 0, e =>
    andThen (segEq e.ibuf (e.ws + 0) e.pos p) fun b =>
    if b then .next (findHit 0 e) else .next (findMiss 0 e)
  | c + 1, e =>
    andThen (segEq e.ibuf (e.ws + (c + 1)) e.pos p) fun b =>
    if b then .next (findHit (c + 1) e) else findFrom p c e

/-- `MF.FIND` on the window `IBUF[ws .. ws + n]` with the pattern `IBUF[pos .. pos + p]` (40_match_finder.md R91). A pattern
longer than the window is no match before any candidate is formed; an empty pattern is refused (R94 (6)). -/
def mfFind (p : Nat) (e : Enc) : Res Enc :=
  if p = 0 then .refused .emptyPattern
  else if e.n < p then .next { e with mfP := p, mfHit := false }
  else findFrom p (e.n - p) { e with mfP := p }

end Sys2Proof.Machine
end

