-- ==== Sys2Proof/Machine/Encoder.lean ====
section
/-! DEFINITION. The encoder's step `ENC.STEP` (41_encoder.md R111), part by part (R102 to R110). -/

namespace Sys2Proof.Machine

/-- The trivial code of a step (41_encoder.md R104). -/
def encTrivial (e : Enc) : Res Enc :=
  andThen (memRead .ibuf e.ibuf e.pos) fun x =>
  .next { e with bo := 0, bl := 0, bs := x }

/-- The code update of a match of length `s` found at `MF.m` (41_encoder.md R107): all three fields are replaced together. -/
def encGrow (s : Nat) (e : Enc) : Res Enc :=
  andThen (memRead .ibuf e.ibuf (e.pos + s)) fun x =>
  .next { e with bo := BitVec.ofNat 32 (e.n - e.mfM), bl := BitVec.ofNat 32 s, bs := x }

/-- The search of a step: `r` search lengths from `s` on (41_encoder.md R105). It stops at the first length not found
(R106); a match is checked against the width and then replaces the code (R107, R108). The Boolean answers whether the width
check fired. -/
def encSearch (w : Width) : Nat → Nat → Enc → Res (Bool × Enc)
  | 0, _, e => .next (false, e)
  | r + 1, s, e =>
    andThen (mfFind s { e with s := s }) fun f =>
    if f.mfHit then
      if widthOverflows w (f.n - f.mfM) s then .next (true, f)
      else andThen (encGrow s f) fun g => encSearch w r (s + 1) g
    else .next (false, f)

/-- Emit and advance (41_encoder.md R110); a code beyond the capacity, or a cursor beyond `POSW`, is refused
(00_scope.md R10). -/
def encEmit (s : State) : Res State :=
  if withinCap s.params.ccapE (s.enc.clen + 1) && withinPosw s.params (s.enc.pos + s.enc.bl.toNat + 1) then
    .next { s with enc := { s.enc with
      cbuf := writeCode s.enc.cbuf s.enc.clen s.enc.bo s.enc.bl s.enc.bs
      clen := s.enc.clen + 1
      pos := s.enc.pos + s.enc.bl.toNat + 1 } }
  else .refused .capacity

/-- `ENC.STEP` (41_encoder.md R111). -/
def encStep (w : Width) (s : State) : Res State :=
  andThen (encTrivial (encWindow w s.enc)) fun e =>
  andThen (encSearch w (e.L - 1) 1 e) fun r =>
  if r.1 then .next (raise .enc .widthOverflow { s with enc := r.2 })
  else encEmit { s with enc := r.2 }

/-- One transition of the encoder's call (41_encoder.md R101): a step while `pos < N`, then `DONE`. A unit that is not
`BUSY` holds its state (60_exceptions.md R170). -/
def encTick (s : State) : Res State :=
  match s.enc.state with
  | .busy =>
    if s.enc.pos < s.enc.ilen then
      match widthOf s.enc.wsel with
      | some w => encStep w s
      | none => .refused (.reservedWidth .enc)
    else .next (endCall .enc s)
  | .idle => .next s
  | .done => .next s
  | .error => .next s

end Sys2Proof.Machine
end

