-- ==== Sys2Proof/Machine/HostMoves.lean ====
section
/-! DEFINITION. The host's moves (43_commands.md R154) and the execution of the code stream by `DEC` (42_decoder.md R121). -/

namespace Sys2Proof.Machine

/-- A rejected word is refused, by name (30_encoding.md R81). -/
def refusalOf : DecodeError → Refusal
  | .reservedCommand => .reservedCommand
  | .literalTooWide => .literalTooWide

/-- Decode a word and run the instruction it stands for. -/
def runWord (r : RawWord) (s : State) : Res State :=
  match decode r with
  | .instr i => exec i s
  | .reject e => .refused (refusalOf e)

/-- One transition of the decoder's call (42_decoder.md R121): while `k < K` fetch, decode and run the code `code_k`, then
`DONE`. A unit that is not `BUSY` holds its state (60_exceptions.md R170). -/
def decTick (s : State) : Res State :=
  match s.dec.state with
  | .busy =>
    if s.dec.k < s.dec.clen then
      match widthOf s.dec.wsel with
      | some w => andThen (fetchCode w s.dec) fun r => runWord r s
      | none => .refused (.reservedWidth .dec)
    else .next (endCall .dec s)
  | .idle => .next s
  | .done => .next s
  | .error => .next s

/-- The register `CFG` of a unit takes bits 1 and 0 of the word; any of 0 to 3 is stored (10_state.md R38; log 8). -/
def setCfg (u : UnitId) (v : Nat) (s : State) : State :=
  match u with
  | .enc => { s with enc := { s.enc with wsel := BitVec.ofNat 2 v } }
  | .dec => { s with dec := { s.dec with wsel := BitVec.ofNat 2 v } }

/-- The length register of a unit, `ENC_ILEN` or `DEC_CLEN` (10_state.md R22, R29). -/
def setLength (u : UnitId) (v : Nat) (s : State) : State :=
  match u with
  | .enc => { s with enc := { s.enc with ilen := v } }
  | .dec => { s with dec := { s.dec with clen := v } }

/-- A host write by register number (10_state.md R36): 0 `CFG`, 1 `CMD`, 3 the length; a write to the read-only 2, 4 and 5 is
ignored. A command may be given at any time (43_commands.md R154); any other write to a busy unit is refused
(10_state.md R40). A word that is no `POSW`-bit word is refused (00_scope.md R10), and so is a register that does not exist
(log 13). -/
def hostWriteReg (u : UnitId) (n v : Nat) (s : State) : Res State :=
  if withinPosw s.params v = false then .refused .capacity
  else if n = 1 then runWord (.command u v) s
  else if 5 < n then .refused (.noSuchRegister u n)
  else if s.runState u = .busy then .refused (.busyAccess u)
  else if n = 0 then .next (setCfg u v s)
  else if n = 3 then .next (setLength u v s)
  else .next s

/-- What a register of a unit that is not busy reads as (10_state.md R36, R44). -/
def regValue (u : UnitId) (n : Nat) (s : State) : Nat :=
  match u, n with
  | .enc, 0 => s.enc.wsel.toNat
  | .enc, 2 => s.status .enc
  | .enc, 3 => s.enc.ilen
  | .enc, 4 => s.enc.clen
  | .enc, 5 => s.enc.pos
  | .dec, 0 => s.dec.wsel.toNat
  | .dec, 2 => s.status .dec
  | .dec, 3 => s.dec.clen
  | .dec, 4 => s.dec.pos
  | .dec, 5 => s.dec.k
  | _, _ => 0

/-- A read returns a value to the host and changes nothing of the block (43_commands.md R149, R154). -/
def giveHost (v : Nat) (s : State) : State :=
  { s with rdata := some v }

/-- A free value is used up. -/
def useFree (s : State) : State :=
  { s with freeCtr := s.freeCtr + 1 }

/-- A value limited to the `POSW` bits of a host register. -/
def limitWord (p : Params) (v : Nat) : Nat :=
  match p.posw with
  | none => v
  | some b => v % 2 ^ b

/-- A host read by register number (10_state.md R36). `STATUS` may be read at any time; any other register of a busy unit
reads as any value (R40; log 5). -/
def hostReadReg (u : UnitId) (n : Nat) (s : State) : Res State :=
  if 5 < n then .refused (.noSuchRegister u n)
  else if n ≠ 2 ∧ s.runState u = .busy then
    .next (giveHost (limitWord s.params (Config.freeWord s.freeCtr)) (useFree s))
  else .next (giveHost (regValue u n s) s)

/-- A host write to a cell of `ENC.IBUF` (43_commands.md R154; log 13). -/
def hostWriteIbuf (i : Nat) (v : Symbol) (s : State) : Res State :=
  if s.enc.state = .busy then .refused (.busyAccess .enc)
  else if withinBuffer s.params .ibuf i then
    .next { s with enc := { s.enc with ibuf := Memory.write s.enc.ibuf i v } }
  else .refused .capacity

/-- A host write to a cell of `DEC.CBUF` (43_commands.md R154; log 9, 13). -/
def hostWriteDecCbuf (i : Nat) (v : Field) (s : State) : Res State :=
  if s.dec.state = .busy then .refused (.busyAccess .dec)
  else if withinBuffer s.params .decCbuf i then
    .next { s with dec := { s.dec with cbuf := Memory.write s.dec.cbuf i v } }
  else .refused .capacity

/-- The stored value of a cell, as a number, if it holds one. -/
def storedCell (sp : Space) (i : Nat) (s : State) : Option Nat :=
  match sp with
  | .ibuf => (Memory.read s.enc.ibuf i).map BitVec.toNat
  | .encCbuf => (Memory.read s.enc.cbuf i).map BitVec.toNat
  | .decCbuf => (Memory.read s.dec.cbuf i).map BitVec.toNat
  | .obuf => (Memory.read s.dec.obuf i).map BitVec.toNat

/-- Any value a cell can hold: a symbol, or a code cell's value as it is held (93 U5; log 5, 9). -/
def freeCell (sp : Space) (s : State) : Nat :=
  match sp with
  | .ibuf => (Config.freeSymbol s.freeCtr).toNat
  | .encCbuf => (Config.freeField s.freeCtr).toNat
  | .decCbuf => (Config.freeField s.freeCtr).toNat
  | .obuf => (Config.freeSymbol s.freeCtr).toNat

/-- The failed call that wrote a cell last, if one did; a unit never writes a buffer that the host loads (43_commands.md
R147). -/
def failedWriter (sp : Space) (i : Nat) (s : State) : Option Nat :=
  match sp with
  | .ibuf => none
  | .encCbuf => failedCall s.enc.past i
  | .decCbuf => none
  | .obuf => failedCall s.dec.past i

/-- What a cell holds that the failed call `n` wrote: any value, the same until the cell is written again
(60_exceptions.md R161, 20_memory.md R58; log 12). -/
def failedCell (sp : Space) (n i : Nat) : Nat :=
  match sp with
  | .ibuf => (Config.failedSymbol n i).toNat
  | .encCbuf => (Config.failedField n i).toNat
  | .decCbuf => (Config.failedField n i).toNat
  | .obuf => (Config.failedSymbol n i).toNat

/-- The value of a written cell that the host reads: the stored one (43_commands.md R154), or any value where a failed call
wrote it (60_exceptions.md R161). -/
def readValue (sp : Space) (i v : Nat) (s : State) : Nat :=
  match failedWriter sp i s with
  | some n => failedCell sp n i
  | none => v

/-- A host read of a buffer cell (43_commands.md R154; log 12, 13): any value while the unit is busy (10_state.md R40); a cell
never written holds no value (70_reset_and_hazards.md R182). -/
def hostReadCell (sp : Space) (i : Nat) (s : State) : Res State :=
  if withinBuffer s.params sp i = false then .refused .capacity
  else if s.runState sp.owner = .busy then .next (giveHost (freeCell sp s) (useFree s))
  else
    match storedCell sp i s with
    | some v => .next (giveHost (readValue sp i v s) s)
    | none => .fault (.unwrittenCell sp i)

/-- Reset (70_reset_and_hazards.md R180, R181): both units, at any time. -/
def resetUnits (s : State) : State :=
  { s with enc := Enc.reset, dec := Dec.reset }

/-- One move of the host (43_commands.md R154). -/
def hostMove (m : HostMove) (s : State) : Res State :=
  match m with
  | .writeReg u n v => hostWriteReg u n v s
  | .readReg u n => hostReadReg u n s
  | .writeIbuf i v => hostWriteIbuf i v s
  | .writeDecCbuf i v => hostWriteDecCbuf i v s
  | .readCell sp i => hostReadCell sp i s
  | .reset => .next (resetUnits s)

/-- One transition of the host: its oldest move not yet made, or nothing. -/
def hostTick (s : State) : Res State :=
  match s.pending with
  | [] => .next s
  | m :: rest => hostMove m { s with pending := rest }

/-- Who makes the next transition (log 4): the schedule's first agent; where the schedule says nothing, a busy unit before
the host, so that every call ends (70_reset_and_hazards.md R191). -/
def nextAgent (s : State) : Agent :=
  match s.schedule with
  | a :: _ => a
  | [] =>
    if s.dec.state = .busy then .dec
    else if s.enc.state = .busy then .enc
    else .host

/-- The schedule's first entry is used up. -/
def usedTurn (s : State) : State :=
  { s with schedule := s.schedule.tail }

/-- One transition of an agent. -/
def agentTick (a : Agent) (s : State) : Res State :=
  match a with
  | .host => hostTick s
  | .enc => encTick s
  | .dec => decTick s

/-- The state in which the next transition is the host's write of a command word. -/
def placeCommand (u : UnitId) (w : Nat) (s : State) : State :=
  { s with pending := .writeReg u 1 w :: s.pending, schedule := .host :: s.schedule }

/-- The state in which the next transition is `DEC`'s execution of a code with the given cells, at its cursor. -/
def placeCode (w : Width) (o l lit : Field) (s : State) : State :=
  { s with
    schedule := .dec :: s.schedule
    dec := { s.dec with
      state := .busy
      cause := .none
      wsel := wselOf w
      clen := max s.dec.clen (s.dec.k + 1)
      cbuf := Memory.write (Memory.write (Memory.write s.dec.cbuf (cellIndex s.dec.k 0) o) (cellIndex s.dec.k 1) l)
        (cellIndex s.dec.k 2) lit } }

/-- Place a word where the next transition takes it from. -/
def placeWord (r : RawWord) (s : State) : State :=
  match r with
  | .command u w => placeCommand u w s
  | .code8 o l lit => placeCode .w8 (o.setWidth 32) (l.setWidth 32) (lit.setWidth 32) s
  | .code16 o l lit => placeCode .w16 (o.setWidth 32) (l.setWidth 32) (lit.setWidth 32) s
  | .code32 o l lit => placeCode .w32 o l lit s

end Sys2Proof.Machine
end

