-- ==== Sys2Proof/Machine/Step.lean ====
section
/-! DEFINITION. One step of the block: the next agent makes one transition. -/

namespace Sys2Proof.Machine

/-- One step: one transition of the next agent (43_commands.md R152, the spec's decision D21; log 14). -/
def step (s : State) : Host.Outcome State Fault Refusal :=
  agentTick (nextAgent s) (usedTurn s)

/-- The state with a table row's word placed where the very next step takes its instruction from: a command word is the
host's next move; a code stands at the decoder's cursor, with the unit busy at that width (log 3). -/
def State.withFetchWord (s : State) (nbits w : Nat) : State :=
  match tableWord nbits w with
  | some r => placeWord r s
  | none => s

end Sys2Proof.Machine
end

