-- ==== Sys2Proof/Safety.lean ====
section
/-! DEFINITION. What counts as a safe state and a run, in the terms the statements use: the machine's invariant, what the
host owes a unit before a call, runs of one agent, and what a code or a window stands for. -/

namespace Sys2Proof.Machine

/-- Every cell of a buffer below an index holds a value (70_reset_and_hazards.md R182, R183). -/
def WrittenBelow {n : Nat} (m : List (Nat × BitVec n)) (k : Nat) : Prop :=
  ∀ i, i < k → ∃ v, Memory.read m i = some v

/-- A buffer holds a sequence from index 0 on. -/
def Holds {n : Nat} (m : List (Nat × BitVec n)) (xs : List (BitVec n)) : Prop :=
  ∀ i, i < xs.length → Memory.read m i = xs[i]?

/-- Two buffers read the same below an index. -/
def SameBelow {n : Nat} (k : Nat) (m m' : List (Nat × BitVec n)) : Prop :=
  ∀ i, i < k → Memory.read m i = Memory.read m' i

/-- `k` transitions of one agent, stopping at the first fault or refusal. -/
def runAgent (a : Agent) : Nat → State → Res State
  | 0, s => .next s
  | k + 1, s => andThen (agentTick a s) fun t => runAgent a k t

/-- An occurrence of the pattern of `p` symbols at `ENC.pos` at index `i` of the window (40_match_finder.md R90). -/
def OccursAt (e : Enc) (p i : Nat) : Prop :=
  i + p ≤ e.n ∧ ∀ j, j < p → Memory.read e.ibuf (e.ws + i + j) = Memory.read e.ibuf (e.pos + j)

/-- The rightmost occurrence (40_match_finder.md R92). -/
def RightmostAt (e : Enc) (p i : Nat) : Prop :=
  OccursAt e p i ∧ ∀ j, OccursAt e p j → j ≤ i

/-- The offset, length and literal of a code instruction; a command has none. -/
def codeFields : Instr → Option (Field × Field × Symbol)
  | .encodeCmd => none
  | .decodeCmd => none
  | .nopEnc => none
  | .nopDec => none
  | .codeW8 o l s => some (o.setWidth 32, l.setWidth 32, s)
  | .litW8 s => some (0, 0, s)
  | .copyW8 o l s => some (o.setWidth 32, l.setWidth 32, s)
  | .runW8 o l s => some (o.setWidth 32, l.setWidth 32, s)
  | .badzW8 l s => some (0, l.setWidth 32, s)
  | .litxW8 o s => some (o.setWidth 32, 0, s)
  | .codeW16 o l s => some (o.setWidth 32, l.setWidth 32, s)
  | .litW16 s => some (0, 0, s)
  | .copyW16 o l s => some (o.setWidth 32, l.setWidth 32, s)
  | .runW16 o l s => some (o.setWidth 32, l.setWidth 32, s)
  | .badzW16 l s => some (0, l.setWidth 32, s)
  | .litxW16 o s => some (o.setWidth 32, 0, s)
  | .codeW32 o l s => some (o, l, s)
  | .litW32 s => some (0, 0, s)
  | .copyW32 o l s => some (o, l, s)
  | .runW32 o l s => some (o, l, s)
  | .badzW32 l s => some (0, l, s)
  | .litxW32 o s => some (o, 0, s)

/-- The decoder's output may grow to a length (00_scope.md R10). -/
def OutputFits (p : Params) (n : Nat) : Prop :=
  withinCap p.ocap n = true ∧ withinPosw p n = true

/-- The encoder may emit one more code and move its cursor (00_scope.md R10). -/
def EmitFits (p : Params) (count cursor : Nat) : Prop :=
  withinCap p.ccapE count = true ∧ withinPosw p cursor = true

/-- An emitted code in a code buffer: its three cells, with the shape of 41_encoder.md R109 (a), (b) and a literal that is a
Symbol (30_encoding.md R74). -/
def EmittedShape (m : List (Nat × Field)) (k : Nat) : Prop :=
  ∃ o l : Field, ∃ lit : Symbol,
    Memory.read m (cellIndex k 0) = some o ∧ Memory.read m (cellIndex k 1) = some l ∧
    Memory.read m (cellIndex k 2) = some (lit.setWidth 32) ∧ (l.toNat = 0 ↔ o.toNat = 0) ∧ l.toNat ≤ o.toNat

/-- The symbols that the first `k` codes of a code buffer stand for: `length + 1` each (30_encoding.md R76). -/
def producedBelow (m : List (Nat × Field)) : Nat → Nat
  | 0 => 0
  | k + 1 =>
    match Memory.read m (cellIndex k 1) with
    | some l => producedBelow m k + (l.toNat + 1)
    | none => producedBelow m k

/-- The code in a code buffer at index `k`, with cells that fit the width and a literal that is a Symbol
(30_encoding.md R72, R74). -/
def CodeAt (w : Width) (m : List (Nat × Field)) (k : Nat) (o l : Field) (lit : Symbol) : Prop :=
  Memory.read m (cellIndex k 0) = some o ∧ Memory.read m (cellIndex k 1) = some l ∧
  Memory.read m (cellIndex k 2) = some (lit.setWidth 32) ∧ o.toNat ≤ wmax w ∧ l.toNat ≤ wmax w

/-- What every state of a run satisfies of `ENC`. -/
structure EncInv (p : Params) (e : Enc) : Prop where
  /-- the input buffer is in canonical form -/
  ibufForm : Memory.wf e.ibuf = true
  /-- the code buffer is in canonical form -/
  cbufForm : Memory.wf e.cbuf = true
  /-- `CAUSE ≠ NONE` if and only if `STATE = ERROR` (10_state.md R37) -/
  causeIffError : e.cause ≠ .none ↔ e.state = .error
  /-- `WidthOverflow` never happens (41_encoder.md R108) -/
  neverError : e.state ≠ .error
  /-- a running call has a width (43_commands.md R143) -/
  busyWidth : e.state = .busy → ∃ w, widthOf e.wsel = some w
  /-- the cursor stays inside the input (10_state.md R24) -/
  busyPos : e.state = .busy → e.pos ≤ e.ilen
  /-- at most one code for each symbol passed (41_encoder.md R113) -/
  countBound : e.clen ≤ e.pos
  /-- the output is within its capacity (00_scope.md R10) -/
  countFits : e.clen = 0 ∨ withinCap p.ccapE e.clen = true
  /-- every emitted code is a `LIT` or a `COPY` (41_encoder.md R109) -/
  emitted : ∀ k, k < e.clen → EmittedShape e.cbuf k
  /-- no call has ended since reset (10_state.md R27) -/
  idlePast : e.state = .idle → e.past = []
  /-- the newest record is of the call that ended, with the cells of its result (43_commands.md R148) -/
  donePast : e.state = .done → ∃ past, e.past = ⟨codeCells e.clen, false⟩ :: past
  /-- no call of `ENC` has failed (41_encoder.md R108) -/
  noneFailed : ∀ i, failedCall e.past i = none

/-- What every state of a run satisfies of `DEC`. -/
structure DecInv (p : Params) (d : Dec) : Prop where
  /-- the code buffer is in canonical form -/
  cbufForm : Memory.wf d.cbuf = true
  /-- the output buffer is in canonical form -/
  obufForm : Memory.wf d.obuf = true
  /-- `CAUSE ≠ NONE` if and only if `STATE = ERROR` (10_state.md R37) -/
  causeIffError : d.cause ≠ .none ↔ d.state = .error
  /-- only `NONE` and `INVALID_OFFSET` occur (10_state.md R34) -/
  causeKind : d.cause ≠ .widthOverflow
  /-- a running call has a width (43_commands.md R143) -/
  busyWidth : d.state = .busy → ∃ w, widthOf d.wsel = some w
  /-- the cursor stays inside the code stream (10_state.md R31) -/
  busyCursor : d.state = .busy → d.k ≤ d.clen
  /-- every code processed appended at least its literal (42_decoder.md R127) -/
  cursorBound : d.k ≤ d.pos
  /-- `DEC.pos` symbols have been decoded: all the cells below it are written (42_decoder.md R131), of a call that has not
  failed (60_exceptions.md R161) -/
  outputWritten : d.state ≠ .error → WrittenBelow d.obuf d.pos
  /-- the output is within its capacity (00_scope.md R10) -/
  outputFits : d.pos = 0 ∨ OutputFits p d.pos
  /-- no call has ended since reset (10_state.md R34) -/
  idlePast : d.state = .idle → d.past = []
  /-- the newest record is of the call that ended, with the cells of its result (43_commands.md R148) -/
  donePast : d.state = .done → ∃ past, d.past = ⟨d.pos, false⟩ :: past
  /-- the newest record is of the call that failed, with the cells it wrote (60_exceptions.md R161) -/
  errorPast : d.state = .error → ∃ past, d.past = ⟨d.pos, true⟩ :: past

/-- The invariant of the block. -/
structure Inv (s : State) : Prop where
  enc : EncInv s.params s.enc
  dec : DecInv s.params s.dec

/-- The machine with an unbounded `ENC.CBUF`: how many codes an input takes is the number of codes emitted there. -/
def uncapped (s : State) : State :=
  { s with params := { s.params with ccapE := none } }

/-- The machine with every parameter unbounded. -/
def unbounded (s : State) : State :=
  { s with params := ⟨none, none, none, none, none, s.params.placement⟩ }

/-- Two encoders are the same, but for the output buffer of a call that failed, of which nothing is said
(60_exceptions.md R161). -/
structure SameEncResult (e f : Enc) : Prop where
  rest : e = { f with cbuf := e.cbuf }
  output : f.state ≠ .error → e.cbuf = f.cbuf

/-- Two decoders are the same, but for the output buffer of a call that failed, of which nothing is said
(60_exceptions.md R161). -/
structure SameDecResult (d f : Dec) : Prop where
  rest : d = { f with obuf := d.obuf }
  output : f.state ≠ .error → d.obuf = f.obuf

/-- What the host owes `ENC` before `ENCODE` (70_reset_and_hazards.md R182), with an input within the parameters
(00_scope.md R10). It asks nothing of `CCAP_E`. -/
structure EncLoaded (w : Width) (xs : List Symbol) (s : State) : Prop where
  free : s.enc.state ≠ .busy
  width : widthOf s.enc.wsel = some w
  length : s.enc.ilen = xs.length
  input : Holds s.enc.ibuf xs
  inputFits : withinCap s.params.icap xs.length = true
  cursorFits : withinPosw s.params xs.length = true

/-- What the host owes `DEC` before `DECODE` of the codes that `e` holds after its call (20_memory.md R64,
70_reset_and_hazards.md R183), within the parameters (00_scope.md R10). -/
structure DecLoadedFrom (e : Enc) (w : Width) (n : Nat) (u : State) : Prop where
  free : u.dec.state ≠ .busy
  width : widthOf u.dec.wsel = some w
  count : u.dec.clen = e.clen
  codes : SameBelow (codeCells e.clen) u.dec.cbuf e.cbuf
  codesFit : withinCap u.params.ccapD e.clen = true
  outputFits : OutputFits u.params n

/-- What the host owes `DEC` before `DECODE` (70_reset_and_hazards.md R183), within the parameters
(00_scope.md R10). -/
structure DecLoaded (w : Width) (u : State) : Prop where
  free : u.dec.state ≠ .busy
  width : widthOf u.dec.wsel = some w
  codes : ∀ k, k < u.dec.clen → ∃ o l lit, CodeAt w u.dec.cbuf k o l lit
  codesFit : withinCap u.params.ccapD u.dec.clen = true
  outputFits : OutputFits u.params (producedBelow u.dec.cbuf u.dec.clen)

end Sys2Proof.Machine
end

