-- ==== Sys2Proof/Certificates/Slice0/Obligations.lean ====
section
/-! DEFINITION. The statements for the provers. Each docstring names the rules of spec/ it rests on. -/

open Sys2Proof Sys2Proof.Machine

/-! ## Encodings -/

/-- Words written out from the patterns of spec/opcode_table.json and the command map of R84 decode to the instructions they
stand for: the commands, every class at `W = 8`, and `LIT`, `COPY` and `RUN` at 16 and 32 (30_encoding.md R72, R78, R79,
R84). That a command word of the table is read as a write to `ENC_CMD` is the model's choice (log 6); so the two `DEC`
commands are shown by `decode`. -/
def Obligations.TableWordsDecode : Prop :=
  decodeTableWord 32 1 = some .encodeCmd ∧ decodeTableWord 32 0 = some .nopEnc ∧
  decode (.command .dec 1) = .instr .decodeCmd ∧ decode (.command .dec 0) = .instr .nopDec ∧
  decodeTableWord 24 0x000061 = some (.litW8 0x61) ∧ decodeTableWord 24 0x040365 = some (.copyW8 4 3 0x65) ∧
  decodeTableWord 24 0x010462 = some (.runW8 1 4 0x62) ∧ decodeTableWord 24 0x000362 = some (.badzW8 3 0x62) ∧
  decodeTableWord 24 0x020062 = some (.litxW8 2 0x62) ∧
  decodeTableWord 48 0x000000000061 = some (.litW16 0x61) ∧ decodeTableWord 48 0x010001000000 = some (.copyW16 256 256 0) ∧
  decodeTableWord 48 0x000200050063 = some (.runW16 2 5 0x63) ∧
  decodeTableWord 96 0x000000000000000000000061 = some (.litW32 0x61) ∧
  decodeTableWord 96 0x000000010000000400000062 = some (.runW32 1 4 0x62) ∧
  decodeTableWord 96 0x000001000000010000000000 = some (.copyW32 256 256 0)

/-- Decoding the encoding of a well-formed instruction gives its class, and its class has the same encoding: an instruction
of any row but `CODE` is its own class, and `CODE`, which has no bits of its own, is the class its fields select
(30_encoding.md R72, R78, R79, R84, R85). -/
def Obligations.DecodeOfEncodeIsTheInstruction : Prop :=
  ∀ i : Instr, i.wellFormed = true →
    decode (encode i) = .instr i.codeClass ∧ encode i.codeClass = encode i ∧ i.codeClass.wellFormed = true ∧
    ((∀ o l s, i ≠ .codeW8 o l s) → (∀ o l s, i ≠ .codeW16 o l s) → (∀ o l s, i ≠ .codeW32 o l s) → i.codeClass = i)

/-- The other direction: whatever the decoder accepts is the encoding of the instruction it reads, which is well formed and
its own class. So no two words share an instruction and no bit of a word is dropped (30_encoding.md R72, R74, R84). -/
def Obligations.EncodeOfDecodeIsTheWord : Prop :=
  ∀ (r : RawWord) (i : Instr), decode r = .instr i → encode i = r ∧ i.wellFormed = true ∧ i.codeClass = i

/-- The reserved encodings that are told by bits are rejected by name, by the decoder and by the machine: a command word with
a bit above bit 0 set, which the host's write of it to `CMD` refuses at any time, and a literal cell above 255
(30_encoding.md R81 (2) and (4), R74, R84; 43_commands.md R154; the machine's refusal of the literal cell is in
`LiteralCellAbove255IsRefused`). -/
def Obligations.ReservedWordsRejected : Prop :=
  (∀ (u : UnitId) (v : Nat), 1 < v → decode (.command u v) = .reject .reservedCommand) ∧
  (∀ (u : UnitId) (v : Nat) (s : State), 1 < v → withinPosw s.params v = true →
    hostMove (.writeReg u 1 v) s = .refused .reservedCommand) ∧
  (∀ (w : Width) (o l c : Field), c.toNat ≤ wmax w → 255 < c.toNat →
    decode (rawCode w o l c) = .reject .literalTooWide)

/-- `WMAX(W)` is the largest unsigned `W`-bit integer, and the `WSEL` values 0, 1, 2 select the widths 8, 16, 32 while 3
selects none (00_scope.md R7, R8; 10_state.md R21). -/
def Obligations.WidthsAndTheirMaxima : Prop :=
  (∀ w : Width, wmax w + 1 = 2 ^ widthBits w) ∧
  widthBits .w8 = 8 ∧ widthBits .w16 = 16 ∧ widthBits .w32 = 32 ∧
  widthOf 0 = some .w8 ∧ widthOf 1 = some .w16 ∧ widthOf 2 = some .w32 ∧ widthOf 3 = none

/-- The class rules are specialisations of the one decoder step: the general code does what the code of its class does
(30_encoding.md R78, 42_decoder.md R122). -/
def Obligations.GeneralCodeDoesWhatItsClassDoes : Prop :=
  ∀ (i : Instr) (s : State), exec i.codeClass s = exec i s

/-! ## Commands -/

/-- `ENCODE` to a unit that is not busy, with a valid width and an input within `ICAP`, starts a call: `BUSY`, no cause, the
cursor and the code count zeroed, and nothing else changed (43_commands.md R141, R150). -/
def Obligations.EncodeStartsACall : Prop :=
  ∀ (s : State) (w : Width), s.enc.state ≠ .busy → widthOf s.enc.wsel = some w →
    withinCap s.params.icap s.enc.ilen = true →
    exec .encodeCmd s = .next { s with enc := { s.enc with state := .busy, cause := .none, pos := 0, clen := 0 } }

/-- `DECODE` to a unit that is not busy, with a valid width and no more than `CCAP_D` codes, starts a call: `BUSY`, no cause,
both cursors zeroed, and nothing else changed (43_commands.md R142, R150). -/
def Obligations.DecodeStartsACall : Prop :=
  ∀ (s : State) (w : Width), s.dec.state ≠ .busy → widthOf s.dec.wsel = some w →
    withinCap s.params.ccapD s.dec.clen = true →
    exec .decodeCmd s = .next { s with dec := { s.dec with state := .busy, cause := .none, pos := 0, k := 0 } }

/-- A write of `START = 1` to a busy unit has no effect (43_commands.md R144, the spec's decision D17). -/
def Obligations.CommandWhileBusyIsIgnored : Prop :=
  (∀ (u : UnitId) (s : State), s.runState u = .busy → withinPosw s.params 1 = true → hostMove (.writeReg u 1 1) s = .next s) ∧
  (∀ s : State, s.enc.state = .busy → exec .encodeCmd s = .next s) ∧
  (∀ s : State, s.dec.state = .busy → exec .decodeCmd s = .next s)

/-- A command issued while the unit's `WSEL = 3` is refused (43_commands.md R143, the spec's decision D2). -/
def Obligations.ReservedWidthIsRefused : Prop :=
  (∀ s : State, s.enc.state ≠ .busy → s.enc.wsel = 3 → exec .encodeCmd s = .refused (.reservedWidth .enc)) ∧
  (∀ s : State, s.dec.state ≠ .busy → s.dec.wsel = 3 → exec .decodeCmd s = .refused (.reservedWidth .dec))

/-- `NOP`, the word 0 written to either `CMD` register, has no effect in any state (43_commands.md R146, the spec's decision
D4). -/
def Obligations.NopHasNoEffect : Prop :=
  (∀ s : State, exec .nopEnc s = .next s) ∧ (∀ s : State, exec .nopDec s = .next s) ∧
  (∀ (u : UnitId) (s : State), withinPosw s.params 0 = true → hostMove (.writeReg u 1 0) s = .next s)

/-- What does not fit the parameters is refused. Of a call: an input longer than `ICAP`, more codes than `CCAP_D`, an output
longer than `OCAP`, more codes emitted than `CCAP_E`, a cursor of either unit beyond `2^POSW − 1`. Of the host: a word beyond
`2^POSW − 1`, and a read or a write of a cell beyond a buffer's capacity. A code buffer with room for `c` codes has `3c` cells,
the index of a code's last cell among them (00_scope.md R10; 10_state.md R45; 20_memory.md R51, R59, R60; the spec's decision D7).
That an output and a cursor are checked at the step that would exceed them is log 2, and the refusal of the host's moves is
log 13. -/
def Obligations.BeyondCapacityIsRefused : Prop :=
  (∀ (s : State) (w : Width), s.enc.state ≠ .busy → widthOf s.enc.wsel = some w →
    withinCap s.params.icap s.enc.ilen = false → exec .encodeCmd s = .refused .capacity) ∧
  (∀ (s : State) (w : Width), s.dec.state ≠ .busy → widthOf s.dec.wsel = some w →
    withinCap s.params.ccapD s.dec.clen = false → exec .decodeCmd s = .refused .capacity) ∧
  (∀ (i : Instr) (o l : Field) (lit : Symbol) (s : State), codeFields i = some (o, l, lit) →
    offsetInvalid s.dec.pos o.toNat l.toNat = false →
    (withinCap s.params.ocap (s.dec.pos + l.toNat + 1) = false ∨ withinPosw s.params (s.dec.pos + l.toNat + 1) = false) →
    exec i s = .refused .capacity) ∧
  (∀ s t : State, s.enc.state = .busy → s.enc.pos < s.enc.ilen → encTick (unbounded s) = .next t →
    (withinCap s.params.ccapE t.enc.clen = false ∨ withinPosw s.params t.enc.pos = false) →
    encTick s = .refused .capacity) ∧
  (∀ (u : UnitId) (n v : Nat) (s : State), withinPosw s.params v = false →
    hostMove (.writeReg u n v) s = .refused .capacity) ∧
  (∀ (sp : Space) (i : Nat) (s : State), withinBuffer s.params sp i = false →
    hostMove (.readCell sp i) s = .refused .capacity) ∧
  (∀ (i : Nat) (v : Symbol) (s : State), s.enc.state ≠ .busy → withinBuffer s.params .ibuf i = false →
    hostMove (.writeIbuf i v) s = .refused .capacity) ∧
  (∀ (i : Nat) (v : Field) (s : State), s.dec.state ≠ .busy → withinBuffer s.params .decCbuf i = false →
    hostMove (.writeDecCbuf i v) s = .refused .capacity) ∧
  (∀ (p : Params) (c i : Nat), p.ccapE = some c → (withinBuffer p .encCbuf i = true ↔ i < 3 * c)) ∧
  (∀ (p : Params) (c i : Nat), p.ccapD = some c → (withinBuffer p .decCbuf i = true ↔ i < 3 * c)) ∧
  (∀ (k c : Nat), k < c ↔ cellIndex k 2 < 3 * c)

/-- The frame of the commands: `ENCODE` changes `STATE`, `CAUSE`, `pos` and `CLEN` of `ENC` at most, `DECODE` changes
`STATE`, `CAUSE`, `pos` and `k` of `DEC` at most; every buffer cell, every other register and the other unit stay
(43_commands.md R141, R142; 00_scope.md R3). -/
def Obligations.CommandsChangeOnlyTheirUnit : Prop :=
  (∀ s t : State, exec .encodeCmd s = .next t → t = { s with enc := { s.enc with
    state := t.enc.state, cause := t.enc.cause, pos := t.enc.pos, clen := t.enc.clen } }) ∧
  (∀ s t : State, exec .decodeCmd s = .next t → t = { s with dec := { s.dec with
    state := t.dec.state, cause := t.dec.cause, pos := t.dec.pos, k := t.dec.k } })

/-! ## Codes -/

/-- Every admitted code completes (`1 ≤ offset ≤ position`, or `length = 0` and `offset ≤ position`), at every width and in
every row that can be admitted: its `length` symbols are the last `offset` symbols repeated, then comes its literal; the
cursors advance; every other cell and every other register of the machine stays but the working registers
(42_decoder.md R122, R125, R126, R127, R134; that `CU.i` ends at the length is log 11). -/
def Obligations.AdmittedCodeRuns : Prop :=
  ∀ (i : Instr) (o l : Field) (lit : Symbol) (s : State), codeFields i = some (o, l, lit) →
    o.toNat ≤ s.dec.pos → (0 < l.toNat → 0 < o.toNat) → OutputFits s.params (s.dec.pos + l.toNat + 1) →
    WrittenBelow s.dec.obuf s.dec.pos →
    ∃ t : State, exec i s = .next t ∧
      (∀ j, j < l.toNat → Memory.read t.dec.obuf (s.dec.pos + j) =
        Memory.read s.dec.obuf (s.dec.pos - o.toNat + j % o.toNat)) ∧
      Memory.read t.dec.obuf (s.dec.pos + l.toNat) = some lit ∧
      (∀ a, a < s.dec.pos ∨ s.dec.pos + l.toNat < a → Memory.read t.dec.obuf a = Memory.read s.dec.obuf a) ∧
      t = { s with dec := { s.dec with
        o := o
        l := l
        lit := lit
        cuI := if 0 < l.toNat then l.toNat else s.dec.cuI
        obuf := t.dec.obuf
        pos := s.dec.pos + l.toNat + 1
        k := s.dec.k + 1 } }

/-- `LIT` appends its literal at every position and does nothing else: it reads nothing, and needs only room for one symbol
(42_decoder.md R128). -/
def Obligations.LiteralAppendsItsSymbol : Prop :=
  ∀ (lit : Symbol) (s : State), OutputFits s.params (s.dec.pos + 1) →
    exec (.litW8 lit) s = .next { s with dec := { s.dec with
      o := 0, l := 0, lit := lit, obuf := Memory.write s.dec.obuf s.dec.pos lit, pos := s.dec.pos + 1, k := s.dec.k + 1 } } ∧
    exec (.litW16 lit) s = exec (.litW8 lit) s ∧ exec (.litW32 lit) s = exec (.litW8 lit) s

/-- `COPY`, `offset ≥ length ≥ 1`: the result equals a block copy of the `length` symbols as they stood before the step,
followed by the literal; reading those symbols is all it needs (42_decoder.md R129). -/
def Obligations.CopyEqualsABlockCopy : Prop :=
  ∀ (i : Instr) (o l : Field) (lit : Symbol) (s : State), codeFields i = some (o, l, lit) →
    1 ≤ l.toNat → l.toNat ≤ o.toNat → o.toNat ≤ s.dec.pos → OutputFits s.params (s.dec.pos + l.toNat + 1) →
    (∀ j, j < l.toNat → ∃ v, Memory.read s.dec.obuf (s.dec.pos - o.toNat + j) = some v) →
    ∃ t : State, exec i s = .next t ∧
      (∀ j, j < l.toNat → Memory.read t.dec.obuf (s.dec.pos + j) = Memory.read s.dec.obuf (s.dec.pos - o.toNat + j)) ∧
      Memory.read t.dec.obuf (s.dec.pos + l.toNat) = some lit ∧
      t.dec.pos = s.dec.pos + l.toNat + 1 ∧ t.dec.k = s.dec.k + 1

/-- `RUN`, `1 ≤ offset < length`: the copy reads what it has itself written, so the appended symbols continue the last
`offset` symbols with that period (42_decoder.md R134; 70_reset_and_hazards.md R186). -/
def Obligations.RunRepeatsWithItsOffsetAsPeriod : Prop :=
  ∀ (i : Instr) (o l : Field) (lit : Symbol) (s t : State), codeFields i = some (o, l, lit) →
    1 ≤ o.toNat → o.toNat < l.toNat → o.toNat ≤ s.dec.pos → exec i s = .next t →
    (∀ j, j < l.toNat → Memory.read t.dec.obuf (s.dec.pos + j) = Memory.read t.dec.obuf (s.dec.pos + j - o.toNat)) ∧
    (∀ j, j < l.toNat → ∃ v, Memory.read t.dec.obuf (s.dec.pos + j) = some v) ∧
    Memory.read t.dec.obuf (s.dec.pos + l.toNat) = some lit

/-- `BADZ`, `length ≥ 1` with `offset = 0`, raises `InvalidOffset` at every position: the cursors stay, and so does all else but
the working registers and the model's record of the call, log 12 (42_decoder.md R124, the spec's decision D10). The output buffer
of a failed call is no result and is left out (60_exceptions.md R161). -/
def Obligations.ZeroOffsetWithLengthRaises : Prop :=
  (∀ (l : BitVec 8) (lit : Symbol) (s : State), 1 ≤ l.toNat →
    ∃ t, exec (.badzW8 l lit) s = .next t ∧ t = { s with dec := { s.dec with
      o := 0, l := l.setWidth 32, lit := lit, state := .error, cause := .invalidOffset, obuf := t.dec.obuf
      past := ⟨s.dec.pos, true⟩ :: s.dec.past } }) ∧
  (∀ (l : BitVec 16) (lit : Symbol) (s : State), 1 ≤ l.toNat →
    ∃ t, exec (.badzW16 l lit) s = .next t ∧ t = { s with dec := { s.dec with
      o := 0, l := l.setWidth 32, lit := lit, state := .error, cause := .invalidOffset, obuf := t.dec.obuf
      past := ⟨s.dec.pos, true⟩ :: s.dec.past } }) ∧
  (∀ (l : BitVec 32) (lit : Symbol) (s : State), 1 ≤ l.toNat →
    ∃ t, exec (.badzW32 l lit) s = .next t ∧ t = { s with dec := { s.dec with
      o := 0, l := l, lit := lit, state := .error, cause := .invalidOffset, obuf := t.dec.obuf
      past := ⟨s.dec.pos, true⟩ :: s.dec.past } })

/-- `LITX`, `length = 0` with `1 ≤ offset ≤ position`, does exactly what `LIT` with the same literal does, but for the
working register `DEC.o` that holds the fetched offset; the offset is not used (42_decoder.md R135, the spec's decision D9).
An offset beyond the position is in `OffsetBeyondPositionRaises`. -/
def Obligations.ZeroLengthWithOffsetActsAsLiteral : Prop :=
  (∀ (o : BitVec 8) (lit : Symbol) (s : State), 1 ≤ o.toNat → o.toNat ≤ s.dec.pos → OutputFits s.params (s.dec.pos + 1) →
    ∃ t, exec (.litW8 lit) s = .next t ∧ exec (.litxW8 o lit) s = .next { t with dec := { t.dec with o := o.setWidth 32 } }) ∧
  (∀ (o : BitVec 16) (lit : Symbol) (s : State), 1 ≤ o.toNat → o.toNat ≤ s.dec.pos → OutputFits s.params (s.dec.pos + 1) →
    ∃ t, exec (.litW16 lit) s = .next t ∧ exec (.litxW16 o lit) s = .next { t with dec := { t.dec with o := o.setWidth 32 } }) ∧
  (∀ (o : BitVec 32) (lit : Symbol) (s : State), 1 ≤ o.toNat → o.toNat ≤ s.dec.pos → OutputFits s.params (s.dec.pos + 1) →
    ∃ t, exec (.litW32 lit) s = .next t ∧ exec (.litxW32 o lit) s = .next { t with dec := { t.dec with o := o } })

/-- A code whose offset exceeds the position raises `InvalidOffset`, whatever its length: the cursors stay, and so does all else
but the working registers, which hold the failing code, and the model's record of the call, log 12; an offset equal to the
position does not raise (42_decoder.md R123, the spec's decision D9 for `length = 0`; 60_exceptions.md R157, R158). The output
buffer of a failed call is no result and is left out (60_exceptions.md R161). -/
def Obligations.OffsetBeyondPositionRaises : Prop :=
  (∀ (i : Instr) (o l : Field) (lit : Symbol) (s : State), codeFields i = some (o, l, lit) → s.dec.pos < o.toNat →
    ∃ t, exec i s = .next t ∧ t = { s with dec := { s.dec with
      o := o, l := l, lit := lit, state := .error, cause := .invalidOffset, obuf := t.dec.obuf
      past := ⟨s.dec.pos, true⟩ :: s.dec.past } }) ∧
  (∀ (i : Instr) (o l : Field) (lit : Symbol) (s : State), codeFields i = some (o, l, lit) → 0 < o.toNat →
    o.toNat = s.dec.pos → OutputFits s.params (s.dec.pos + l.toNat + 1) → WrittenBelow s.dec.obuf s.dec.pos →
    ∃ t, exec i s = .next t ∧ t.dec.state = s.dec.state ∧ t.dec.cause = s.dec.cause)

/-- The frame of every code, whenever it answers a next state: the encoder, the configuration, the code stream, the
parameters and the host's side stay. A code that raises leaves both cursors and `CU.i`, and the call is recorded (log 12); one
that does not raise leaves `STATE`, `CAUSE` and every output cell outside `[position, position + length]` (42_decoder.md R122,
60_exceptions.md R158, R160). The output buffer of a failed call is no result and is left out (60_exceptions.md R161). -/
def Obligations.CodesChangeOnlyTheirOutput : Prop :=
  ∀ (i : Instr) (o l : Field) (lit : Symbol) (s t : State), codeFields i = some (o, l, lit) → exec i s = .next t →
    t = { s with dec := { s.dec with
      o := o, l := l, lit := lit, cuI := t.dec.cuI, obuf := t.dec.obuf, pos := t.dec.pos, k := t.dec.k
      state := t.dec.state, cause := t.dec.cause, past := t.dec.past } } ∧
    (offsetInvalid s.dec.pos o.toNat l.toNat = true →
      t.dec.pos = s.dec.pos ∧ t.dec.k = s.dec.k ∧ t.dec.cuI = s.dec.cuI ∧ t.dec.past = ⟨s.dec.pos, true⟩ :: s.dec.past) ∧
    (offsetInvalid s.dec.pos o.toNat l.toNat = false → t.dec.state = s.dec.state ∧ t.dec.cause = s.dec.cause ∧
      t.dec.past = s.dec.past ∧
      ∀ a, a < s.dec.pos ∨ s.dec.pos + l.toNat < a → Memory.read t.dec.obuf a = Memory.read s.dec.obuf a)

/-- Every code that does not raise appends its literal, whatever its class, after its copied symbols, advances the position
past both, and goes on to the next code (42_decoder.md R127). -/
def Obligations.EveryCodeAppendsItsLiteral : Prop :=
  ∀ (i : Instr) (o l : Field) (lit : Symbol) (s t : State), codeFields i = some (o, l, lit) → exec i s = .next t →
    offsetInvalid s.dec.pos o.toNat l.toNat = false →
    Memory.read t.dec.obuf (s.dec.pos + l.toNat) = some lit ∧ t.dec.pos = s.dec.pos + l.toNat + 1 ∧ t.dec.k = s.dec.k + 1

/-! ## Errors -/

/-- What a raise does: `CAUSE` and `STATE` are written, nothing else changes but the model's record of the call (log 12), and no
further transition of that unit changes anything: no handler runs (60_exceptions.md R158, R159). The unit's output buffer is left
out (60_exceptions.md R161). -/
def Obligations.RaiseRecordsTheCauseAndStops : Prop :=
  ∀ (c : Cause) (s : State),
    raise .enc c s = { s with enc := { s.enc with
      state := .error, cause := c, cbuf := (raise .enc c s).enc.cbuf, past := ⟨codeCells s.enc.clen, true⟩ :: s.enc.past } } ∧
    raise .dec c s = { s with dec := { s.dec with
      state := .error, cause := c, obuf := (raise .dec c s).dec.obuf, past := ⟨s.dec.pos, true⟩ :: s.dec.past } } ∧
    encTick (raise .enc c s) = .next (raise .enc c s) ∧ decTick (raise .dec c s) = .next (raise .dec c s)

/-- When a busy decoder's step fails, the cursors still name the failing code and the position it failed at, the cause is
`InvalidOffset`, and what the host loaded and the other unit are as before; the code read at the cursor is one that is not
admitted (60_exceptions.md R158, R160). Nothing is said of the output buffer (60_exceptions.md R161). -/
def Obligations.FailedStepLeavesTheCursors : Prop :=
  ∀ s t : State, s.dec.state = .busy → decTick s = .next t → t.dec.state = .error →
    t.dec.cause = .invalidOffset ∧ t.dec.k = s.dec.k ∧ t.dec.pos = s.dec.pos ∧
    t.dec.cbuf = s.dec.cbuf ∧ t.dec.clen = s.dec.clen ∧ t.dec.wsel = s.dec.wsel ∧ t.enc = s.enc ∧
    ∃ (w : Width) (o l : Field), widthOf s.dec.wsel = some w ∧
      Memory.read s.dec.cbuf (cellIndex s.dec.k 0) = some o ∧ Memory.read s.dec.cbuf (cellIndex s.dec.k 1) = some l ∧
      offsetInvalid s.dec.pos (narrowCell w (cellIndex s.dec.k 0) o).toNat
        (narrowCell w (cellIndex s.dec.k 1) l).toNat = true

/-- `ERROR` is left only by a new command to the same unit, which starts a fresh call, or by reset: there is no return, nothing
is restored, and a failed call is not resumed (60_exceptions.md R162). -/
def Obligations.ErrorIsLeftOnlyByCommandOrReset : Prop :=
  ∀ (u : UnitId) (s t : State), step s = .next t → s.runState u = .error → t.runState u ≠ .error →
    nextAgent s = .host ∧ ∃ rest,
      (s.pending = .writeReg u 1 1 :: rest ∧ t = beginCall u { usedTurn s with pending := rest }) ∨
      (s.pending = .reset :: rest ∧ t = resetUnits { usedTurn s with pending := rest })

/-! ## The match finder -/

/-- The match finder answers the largest index at which the pattern occurs in the window, or no match when it occurs nowhere
(40_match_finder.md R92). -/
def Obligations.FinderReturnsTheRightmostMatch : Prop :=
  ∀ (e : Enc) (p : Nat), 1 ≤ p → e.ws + e.n = e.pos → WrittenBelow e.ibuf (e.pos + p) →
    ∃ f, mfFind p e = .next f ∧
      (((∃ i, OccursAt e p i) ∧ f.mfHit = true ∧ OccursAt e p f.mfM ∧ ∀ i, OccursAt e p i → i ≤ f.mfM) ∨
       ((∀ i, ¬ OccursAt e p i) ∧ f.mfHit = false))

/-- A pattern longer than the window is no match, found without comparing any symbol; this includes every pattern in an empty
window (40_match_finder.md R93 (a), R91). -/
def Obligations.PatternLongerThanWindowIsNoMatch : Prop :=
  ∀ (e : Enc) (p : Nat), 1 ≤ p → e.n < p → mfFind p e = .next { e with mfP := p, mfHit := false }

/-- An empty pattern is refused (40_match_finder.md R94 (6), the spec's decision D22). -/
def Obligations.EmptyPatternIsRefused : Prop :=
  ∀ e : Enc, mfFind 0 e = .refused .emptyPattern

/-- The match finder writes only its own registers, and its answer is a function of the window and the pattern: two units
whose windows and patterns read the same get the same answer (40_match_finder.md R97). -/
def Obligations.FinderIsAFunctionOfWindowAndPattern : Prop :=
  (∀ (e f : Enc) (p : Nat), mfFind p e = .next f →
    f = { e with mfP := f.mfP, mfC := f.mfC, mfHit := f.mfHit, mfM := f.mfM }) ∧
  (∀ (e e' f f' : Enc) (p : Nat), e.n = e'.n →
    (∀ i, i < e.n → Memory.read e.ibuf (e.ws + i) = Memory.read e'.ibuf (e'.ws + i)) →
    (∀ j, j < p → Memory.read e.ibuf (e.pos + j) = Memory.read e'.ibuf (e'.pos + j)) →
    mfFind p e = .next f → mfFind p e' = .next f' →
    f.mfHit = f'.mfHit ∧ (f.mfHit = true → f.mfM = f'.mfM ∧ f.mfC = f'.mfC) ∧ f.mfP = f'.mfP)

/-! ## The encoder -/

/-- The window of a step is the trailing part of the encoded input, at most `WMAX(W)` symbols and all of it when there are no
more (41_encoder.md R102). -/
def Obligations.WindowIsTheBoundedTrailingPart : Prop :=
  ∀ (w : Width) (e : Enc), (encWindow w e).ws = max 0 (e.pos - wmax w) ∧ (encWindow w e).n = min e.pos (wmax w) ∧
    (encWindow w e).ws + (encWindow w e).n = e.pos ∧ (e.pos = 0 → (encWindow w e).n = 0)

/-- One step of a busy encoder whose input is written and whose output has room completes, and emits one code: the longest
prefix of the lookahead, less its last symbol, that occurs in the window, at its smallest distance, with the symbol that
follows it as the literal; it advances the cursor past both; nothing else changes but the working registers
(41_encoder.md R110, R111, R114). -/
def Obligations.EncoderStepEmitsTheLongestMatch : Prop :=
  ∀ (w : Width) (s : State), s.enc.state = .busy → widthOf s.enc.wsel = some w → s.enc.pos < s.enc.ilen →
    WrittenBelow s.enc.ibuf s.enc.ilen →
    (∀ l, l ≤ s.enc.ilen - s.enc.pos - 1 → EmitFits s.params (s.enc.clen + 1) (s.enc.pos + l + 1)) →
    ∃ (t : State) (o l : Field) (lit : Symbol), encTick s = .next t ∧
      l.toNat ≤ s.enc.ilen - s.enc.pos - 1 ∧
      (l.toNat = 0 → o.toNat = 0) ∧
      (0 < l.toNat → ∃ m, RightmostAt (encWindow w s.enc) l.toNat m ∧ o.toNat = (encWindow w s.enc).n - m) ∧
      (∀ l', l.toNat < l' → l' ≤ s.enc.ilen - s.enc.pos - 1 → ∀ i, ¬ OccursAt (encWindow w s.enc) l' i) ∧
      Memory.read s.enc.ibuf (s.enc.pos + l.toNat) = some lit ∧
      Memory.read t.enc.cbuf (cellIndex s.enc.clen 0) = some o ∧
      Memory.read t.enc.cbuf (cellIndex s.enc.clen 1) = some l ∧
      Memory.read t.enc.cbuf (cellIndex s.enc.clen 2) = some (lit.setWidth 32) ∧
      (∀ a, a < cellIndex s.enc.clen 0 ∨ cellIndex s.enc.clen 2 < a →
        Memory.read t.enc.cbuf a = Memory.read s.enc.cbuf a) ∧
      t.enc.clen = s.enc.clen + 1 ∧ t.enc.pos = s.enc.pos + l.toNat + 1 ∧
      t.enc.wsel = s.enc.wsel ∧ t.enc.ibuf = s.enc.ibuf ∧ t.enc.ilen = s.enc.ilen ∧
      t.enc.state = .busy ∧ t.enc.cause = s.enc.cause ∧ t.enc.past = s.enc.past ∧ t = { s with enc := t.enc }

/-- The bounds of every emitted code: (a) length 0 exactly with offset 0; (b) length at most offset, so never `RUN`;
(c) both at most `WMAX(W)`; (d) offset at most the position; (e) the literal is left; (f) the segment copied equals the segment
replaced (41_encoder.md R109). -/
def Obligations.EmittedCodesKeepTheirBounds : Prop :=
  ∀ (w : Width) (s t : State), s.enc.state = .busy → widthOf s.enc.wsel = some w → s.enc.pos < s.enc.ilen →
    encTick s = .next t →
    ∃ (o l : Field) (lit : Symbol), CodeAt w t.enc.cbuf s.enc.clen o l lit ∧
      (l.toNat = 0 ↔ o.toNat = 0) ∧ l.toNat ≤ o.toNat ∧ o.toNat ≤ s.enc.pos ∧
      s.enc.pos + l.toNat + 1 ≤ s.enc.ilen ∧
      (∀ j, j < l.toNat → Memory.read s.enc.ibuf (s.enc.pos - o.toNat + j) = Memory.read s.enc.ibuf (s.enc.pos + j)) ∧
      Memory.read s.enc.ibuf (s.enc.pos + l.toNat) = some lit

/-- The arm of `WidthOverflow` is dead: no step of the machine, from any state at all, gives the encoder that cause
(41_encoder.md R108, R109 (c); 60_exceptions.md R156). -/
def Obligations.WidthOverflowIsNeverRaised : Prop :=
  ∀ s t : State, step s = .next t → t.enc.cause = .widthOverflow → s.enc.cause = .widthOverflow

/-- A step that starts at the last symbol of the input emits it as a literal, whether or not it occurs in the window, and the
cursor reaches the end (41_encoder.md R105, R116). -/
def Obligations.LastSymbolIsALiteral : Prop :=
  ∀ (w : Width) (s : State) (x : Symbol), s.enc.state = .busy → widthOf s.enc.wsel = some w →
    s.enc.pos + 1 = s.enc.ilen → Memory.read s.enc.ibuf s.enc.pos = some x →
    EmitFits s.params (s.enc.clen + 1) s.enc.ilen →
    ∃ t, encTick s = .next t ∧ t.enc.pos = s.enc.ilen ∧ t.enc.clen = s.enc.clen + 1 ∧
      t.enc.cbuf = writeCode s.enc.cbuf s.enc.clen 0 0 x

/-- A unit's turn is one transition of its call, on the state with the turn used up; so every statement on `encTick` or `decTick`,
the calls' ends among them, is one on the machine's step. Whose turn it is, the schedule says; where it says nothing a busy unit
is next (70_reset_and_hazards.md R191; `DEC` before `ENC` and both before the host is the model's order, log 4). In every state of
the invariant a call ends exactly when its loop does: the encoder is `DONE` exactly when the cursor has reached the input's length,
the decoder exactly when it has reached the number of codes. That the end is a transition of its own, after the last code's, is
the model's choice, log 14: 43_commands.md R152 would let a model merge the two (43_commands.md R150, R153). -/
def Obligations.CallEndsExactlyAtItsEnd : Prop :=
  (∀ s : State, nextAgent s = .enc → step s = encTick { s with schedule := s.schedule.tail }) ∧
  (∀ s : State, nextAgent s = .dec → step s = decTick { s with schedule := s.schedule.tail }) ∧
  (∀ (a : Agent) (rest : List Agent) (s : State), s.schedule = a :: rest → nextAgent s = a) ∧
  (∀ s : State, s.schedule = [] → s.dec.state = .busy → nextAgent s = .dec) ∧
  (∀ s : State, s.schedule = [] → s.dec.state ≠ .busy → s.enc.state = .busy → nextAgent s = .enc) ∧
  (∀ s t : State, Inv s → s.enc.state = .busy → encTick s = .next t →
    (t.enc.state = .done ↔ s.enc.pos = s.enc.ilen) ∧ (t.enc.state = .done → t = endCall .enc s)) ∧
  (∀ s t : State, Inv s → s.dec.state = .busy → decTick s = .next t →
    (t.dec.state = .done ↔ s.dec.k = s.dec.clen) ∧ (t.dec.state = .done → t = endCall .dec s))

/-- Both cursors only ever increase, by at least one in every step of a call that does not fail, and the other counts with
them (10_state.md R45). -/
def Obligations.CursorsOnlyIncrease : Prop :=
  (∀ s t : State, s.enc.state = .busy → s.enc.pos < s.enc.ilen → encTick s = .next t →
    s.enc.pos < t.enc.pos ∧ t.enc.clen = s.enc.clen + 1 ∧ t.enc.pos ≤ s.enc.ilen) ∧
  (∀ s t : State, s.dec.state = .busy → s.dec.k < s.dec.clen → decTick s = .next t → t.dec.state ≠ .error →
    t.dec.k = s.dec.k + 1 ∧ s.dec.pos < t.dec.pos)

/-! ## Whole calls -/

/-- Every `ENCODE` of a loaded input, where the code buffer is unbounded, ends in `DONE` after at most one step for each symbol,
with the cursor at the input's end, at most one code for each symbol, and codes that stand for exactly as many symbols as the
input has. With a code buffer of `CCAP_E` codes the call ends in the same state where those codes fit, and is refused where
they do not (41_encoder.md R101, R112, R113 (a), (b); 00_scope.md R10). -/
def Obligations.EncodeCallEndsInDone : Prop :=
  ∀ (w : Width) (xs : List Symbol) (s : State), EncLoaded w xs s →
    ∃ s1 t, exec .encodeCmd s = .next s1 ∧ runAgent .enc (xs.length + 1) (uncapped s1) = .next t ∧
      t.enc.state = .done ∧ t.enc.cause = .none ∧ t.enc.pos = xs.length ∧ t.enc.clen ≤ xs.length ∧
      (1 ≤ xs.length → 1 ≤ t.enc.clen) ∧ producedBelow t.enc.cbuf t.enc.clen = xs.length ∧
      (withinCap s.params.ccapE t.enc.clen = true →
        runAgent .enc (xs.length + 1) s1 = .next { t with params := s.params }) ∧
      (withinCap s.params.ccapE t.enc.clen = false → runAgent .enc (xs.length + 1) s1 = .refused .capacity)

/-- Every `DECODE` of a loaded code stream ends after at most one step for each code, in `DONE` with all codes processed or in
`ERROR` at the first code that is not admitted: every code before the one it ends at is admitted at its own position, so in `DONE`
all of them are. The output's length is that of the codes processed (42_decoder.md R121, R130, R132; 60_exceptions.md R160, R165). -/
def Obligations.DecodeCallEndsInDoneOrError : Prop :=
  ∀ (w : Width) (s : State), DecLoaded w s →
    ∃ s1 t, exec .decodeCmd s = .next s1 ∧ runAgent .dec (s.dec.clen + 1) s1 = .next t ∧
      t.dec.pos = producedBelow s.dec.cbuf t.dec.k ∧
      (∀ j, j < t.dec.k → ∃ o l lit, CodeAt w s.dec.cbuf j o l lit ∧
        offsetInvalid (producedBelow s.dec.cbuf j) o.toNat l.toNat = false) ∧
      ((t.dec.state = .done ∧ t.dec.cause = .none ∧ t.dec.k = s.dec.clen ∧ WrittenBelow t.dec.obuf t.dec.pos) ∨
       (t.dec.state = .error ∧ t.dec.cause = .invalidOffset ∧ t.dec.k < s.dec.clen ∧
        ∃ o l lit, CodeAt w s.dec.cbuf t.dec.k o l lit ∧ offsetInvalid t.dec.pos o.toNat l.toNat = true))

/-- The round-trip law: for every width and every finite input whose codes the encoder's buffer admits, encoding ends in `DONE`,
and decoding the codes it emitted, on any decoder the host copies them to at that width and that admits them and the output,
ends in `DONE` with the input as its output (42_decoder.md R136, 20_memory.md R64). How many codes an input takes is what the
encoder emits with an unbounded buffer; one for each symbol always fits. -/
def Obligations.DecodeOfEncodeGivesTheInputBack : Prop :=
  ∀ (w : Width) (xs : List Symbol) (s : State), EncLoaded w xs s →
    ∃ s1 e, exec .encodeCmd s = .next s1 ∧ runAgent .enc (xs.length + 1) (uncapped s1) = .next e ∧
      e.enc.clen ≤ xs.length ∧
      (withinCap s.params.ccapE e.enc.clen = true →
        ∃ t, runAgent .enc (xs.length + 1) s1 = .next t ∧ t.enc.state = .done ∧
          ∀ u : State, DecLoadedFrom t.enc w xs.length u →
            ∃ u1 v, exec .decodeCmd u = .next u1 ∧ runAgent .dec (t.enc.clen + 1) u1 = .next v ∧
              v.dec.state = .done ∧ v.dec.pos = xs.length ∧ Holds v.dec.obuf xs)

/-- A call's outcome depends only on the configuration and the input at the moment of the command: two encoders with the same
width, parameters, input length and input symbols below that length, whatever else they hold, take the same course and end with
the same codes; of a failed call only the state, the cause and the cursors are compared (43_commands.md R151, 00_scope.md R4,
41_encoder.md R100; 60_exceptions.md R161). -/
def Obligations.EncodeDependsOnlyOnItsInput : Prop :=
  ∀ (s s' t : State) (k : Nat), s.params = s'.params → s.enc.wsel = s'.enc.wsel → s.enc.ilen = s'.enc.ilen →
    SameBelow s.enc.ilen s.enc.ibuf s'.enc.ibuf → runAgent .enc k (beginCall .enc s) = .next t →
    ∃ t', runAgent .enc k (beginCall .enc s') = .next t' ∧ t'.enc.state = t.enc.state ∧ t'.enc.cause = t.enc.cause ∧
      t'.enc.pos = t.enc.pos ∧ t'.enc.clen = t.enc.clen ∧
      (t.enc.state ≠ .error → SameBelow (codeCells t.enc.clen) t'.enc.cbuf t.enc.cbuf)

/-- The same of the decoder: two decoders with the same width, parameters, number of codes and cells of those codes, whatever
else they hold, take the same course, and old contents of the output buffer cannot leak into a new result; of a failed call only
the state, the cause and the cursors are compared (43_commands.md R151, 00_scope.md R4, 42_decoder.md R120, R133;
60_exceptions.md R161). -/
def Obligations.DecodeDependsOnlyOnItsInput : Prop :=
  ∀ (s s' t : State) (k : Nat), s.params = s'.params → s.dec.wsel = s'.dec.wsel → s.dec.clen = s'.dec.clen →
    SameBelow (codeCells s.dec.clen) s.dec.cbuf s'.dec.cbuf → runAgent .dec k (beginCall .dec s) = .next t →
    ∃ t', runAgent .dec k (beginCall .dec s') = .next t' ∧ t'.dec.state = t.dec.state ∧ t'.dec.cause = t.dec.cause ∧
      t'.dec.pos = t.dec.pos ∧ t'.dec.k = t.dec.k ∧
      (t.dec.state ≠ .error → SameBelow t.dec.pos t'.dec.obuf t.dec.obuf)

/-- The two units cannot disturb one another: their transitions may be made in either order with one result
(70_reset_and_hazards.md R190, 00_scope.md R3; a transition is log 14). Nothing is said of the output buffer of a call that
failed (60_exceptions.md R161). -/
def Obligations.UnitsCommute : Prop :=
  ∀ s a b : State, encTick s = .next a → decTick s = .next b →
    ∃ t t', decTick a = .next t ∧ encTick b = .next t' ∧ SameEncResult t.enc t'.enc ∧ SameDecResult t.dec t'.dec ∧
      t = { t' with enc := t.enc, dec := t.dec }

/-- A unit's transition reads and changes nothing but its own state and the parameters: put the same unit into any other
machine with the same parameters and it does the same there (00_scope.md R3, the spec's decision D3; 20_memory.md R64;
70_reset_and_hazards.md R190). A transition is one step of a call or its end (log 14); a call's start is in
`CommandsChangeOnlyTheirUnit`. Nothing is said of the output buffer of a call that failed (60_exceptions.md R161). -/
def Obligations.UnitsShareNothing : Prop :=
  (∀ s t u : State, encTick s = .next t → u.enc = s.enc → u.params = s.params →
    ∃ u', encTick u = .next u' ∧ SameEncResult u'.enc t.enc ∧ u' = { u with enc := u'.enc }) ∧
  (∀ s t u : State, decTick s = .next t → u.dec = s.dec → u.params = s.params →
    ∃ u', decTick u = .next u' ∧ SameDecResult u'.dec t.dec ∧ u' = { u with dec := u'.dec })

/-! ## The machine -/

/-- The host's turn is its oldest move not yet made, on the state with the move and the turn used up; with no move to make the
turn changes nothing else. It is also the host's turn where the schedule says nothing and neither unit is busy (log 3, 4). When
that move writes a command word that decodes to an instruction, the step is that instruction's effect (43_commands.md R154,
30_encoding.md R84). -/
def Obligations.StepRunsTheCommandWritten : Prop :=
  (∀ (s : State) (u : UnitId) (v : Nat) (rest : List HostMove) (i : Instr),
    nextAgent s = .host → s.pending = .writeReg u 1 v :: rest → withinPosw s.params v = true →
    decode (.command u v) = .instr i →
    step s = exec i { s with pending := rest, schedule := s.schedule.tail }) ∧
  (∀ (s : State) (m : HostMove) (rest : List HostMove), nextAgent s = .host → s.pending = m :: rest →
    step s = hostMove m { s with pending := rest, schedule := s.schedule.tail }) ∧
  (∀ s : State, nextAgent s = .host → s.pending = [] → step s = .next { s with schedule := s.schedule.tail }) ∧
  (∀ s : State, s.schedule = [] → s.dec.state ≠ .busy → s.enc.state ≠ .busy → nextAgent s = .host)

/-- When the decoder is to move, is busy and has a code left, and what it reads of the code's cells at its cursor decodes to an
instruction, the step is that instruction's effect on the state with the turn used up. A cell that holds a value of the width
is read as it stands; any other is read as some value of the width, so that no offset or length ends the run
(42_decoder.md R121, R122; 10_state.md R45; 20_memory.md R55; the free value is log 9). -/
def Obligations.StepRunsTheCodeAtTheCursor : Prop :=
  (∀ (s : State) (w : Width) (o l c : Field) (i : Instr),
    nextAgent s = .dec → s.dec.state = .busy → s.dec.k < s.dec.clen → widthOf s.dec.wsel = some w →
    Memory.read s.dec.cbuf (cellIndex s.dec.k 0) = some o → Memory.read s.dec.cbuf (cellIndex s.dec.k 1) = some l →
    Memory.read s.dec.cbuf (cellIndex s.dec.k 2) = some c →
    decode (rawCode w (narrowCell w (cellIndex s.dec.k 0) o) (narrowCell w (cellIndex s.dec.k 1) l)
      (narrowCell w (cellIndex s.dec.k 2) c)) = .instr i →
    step s = exec i { s with schedule := s.schedule.tail }) ∧
  (∀ (w : Width) (j : Nat) (v : Field), (narrowCell w j v).toNat ≤ wmax w ∧ (v.toNat ≤ wmax w → narrowCell w j v = v)) ∧
  (∀ (w : Width) (k : Nat) (o l c : Field), c.toNat ≤ 255 →
    ∃ i, decode (rawCode w (narrowCell w (cellIndex k 0) o) (narrowCell w (cellIndex k 1) l)
      (narrowCell w (cellIndex k 2) c)) = .instr i ∧
      codeFields i = some (narrowCell w (cellIndex k 0) o, narrowCell w (cellIndex k 1) l, c.setWidth 8))

/-- The very next step after `withFetchWord` runs the table row's instruction, on a state whose encoder, parameters and host
side are as before (the model's own placement, log 3). -/
def Obligations.FetchedTableWordRunsNext : Prop :=
  ∀ (s : State) (nbits v : Nat) (i : Instr), decodeTableWord nbits v = some i →
    (nbits = 32 → withinPosw s.params v = true) →
    ∃ s', step (s.withFetchWord nbits v) = exec i s' ∧ s'.enc = s.enc ∧ s'.params = s.params ∧
      s'.pending = s.pending ∧ s'.schedule = s.schedule ∧ s'.dec.pos = s.dec.pos ∧ s'.dec.k = s.dec.k ∧
      s'.dec.obuf = s.dec.obuf

/-- Every step keeps the invariant of the block: buffers in canonical form, `CAUSE ≠ NONE` exactly in `ERROR`, a running call
has a width, the cursors stay in range, the output is written up to its length and within its capacity, and every emitted
code is a `LIT` or a `COPY`; and the model's record tells how the last call ended and what it wrote, log 12 (10_state.md R24, R31,
R34, R37; 41_encoder.md R108, R109; 42_decoder.md R131). -/
def Obligations.StepKeepsTheInvariant : Prop :=
  ∀ s t : State, Inv s → step s = .next t → Inv t

/-- The state after reset satisfies the invariant. -/
def Obligations.ResetSatisfiesTheInvariant : Prop :=
  Inv State.reset

/-- What reset leaves, in the state after reset and after the host's reset move from any state, during a call or not: both
units `IDLE` with cause `NONE` and `WSEL = 0`, all length and cursor registers 0 (10_state.md R46, 70_reset_and_hazards.md
R180, R181). -/
def Obligations.ResetLeavesTheUnitsIdle : Prop :=
  ∀ s t : State, (t = State.reset ∨ hostMove .reset s = .next t) →
    t.enc.state = .idle ∧ t.enc.cause = .none ∧ t.enc.wsel = 0 ∧ t.enc.ilen = 0 ∧ t.enc.clen = 0 ∧ t.enc.pos = 0 ∧
    t.dec.state = .idle ∧ t.dec.cause = .none ∧ t.dec.wsel = 0 ∧ t.dec.clen = 0 ∧ t.dec.pos = 0 ∧ t.dec.k = 0 ∧
    ∃ t', hostMove .reset s = .next t'

/-! ## The host -/

/-- A cell that the host wrote reads back as written, and the write leaves every other cell as it was. A read of a written cell
of a unit that is not busy returns the stored value and changes nothing, so that it can be repeated: any cell of an input buffer,
and any cell of an output buffer that no failed call wrote last, within the current length or beyond it. In every state of the
invariant the cells of a result are such cells (20_memory.md R58; 43_commands.md R148, R154). A cell that a failed call wrote is in
`OpenReadsComplete`; the record that tells them apart is log 12. -/
def Obligations.HostReadsBackWhatItWrote : Prop :=
  (∀ (s t : State) (i : Nat) (v : Symbol), hostMove (.writeIbuf i v) s = .next t →
    hostMove (.readCell .ibuf i) t = .next { t with rdata := some v.toNat } ∧
    (∀ j, j ≠ i → Memory.read t.enc.ibuf j = Memory.read s.enc.ibuf j) ∧
    t = { s with enc := { s.enc with ibuf := t.enc.ibuf } }) ∧
  (∀ (s t : State) (i : Nat) (v : Field), hostMove (.writeDecCbuf i v) s = .next t →
    hostMove (.readCell .decCbuf i) t = .next { t with rdata := some v.toNat } ∧
    (∀ j, j ≠ i → Memory.read t.dec.cbuf j = Memory.read s.dec.cbuf j) ∧
    t = { s with dec := { s.dec with cbuf := t.dec.cbuf } }) ∧
  (∀ (s : State) (i : Nat) (v : Symbol), withinBuffer s.params .ibuf i = true → s.enc.state ≠ .busy →
    Memory.read s.enc.ibuf i = some v → hostMove (.readCell .ibuf i) s = .next { s with rdata := some v.toNat }) ∧
  (∀ (s : State) (i : Nat) (v : Field), withinBuffer s.params .encCbuf i = true → s.enc.state ≠ .busy →
    failedCall s.enc.past i = none → Memory.read s.enc.cbuf i = some v →
    hostMove (.readCell .encCbuf i) s = .next { s with rdata := some v.toNat }) ∧
  (∀ (s : State) (i : Nat) (v : Field), withinBuffer s.params .decCbuf i = true → s.dec.state ≠ .busy →
    Memory.read s.dec.cbuf i = some v → hostMove (.readCell .decCbuf i) s = .next { s with rdata := some v.toNat }) ∧
  (∀ (s : State) (i : Nat) (v : Symbol), withinBuffer s.params .obuf i = true → s.dec.state ≠ .busy →
    failedCall s.dec.past i = none → Memory.read s.dec.obuf i = some v →
    hostMove (.readCell .obuf i) s = .next { s with rdata := some v.toNat }) ∧
  (∀ (s : State) (i : Nat), Inv s → failedCall s.enc.past i = none) ∧
  (∀ (s : State) (i : Nat), Inv s → s.dec.state = .done → i < s.dec.pos → failedCall s.dec.past i = none)

/-- A read of `STATUS` returns the unit's `STATE` and `CAUSE` at any time and has no side effect on the block
(43_commands.md R149, the spec's decision D14). -/
def Obligations.StatusReadHasNoSideEffect : Prop :=
  ∀ s : State,
    hostMove (.readReg .enc 2) s = .next { s with rdata := some (statusWord s.enc.state s.enc.cause) } ∧
    hostMove (.readReg .dec 2) s = .next { s with rdata := some (statusWord s.dec.state s.dec.cause) }

/-- The layout of `STATUS`: `STATE` in bits 1 and 0, `CAUSE` in bits 3 and 2, zero above; `CAUSE = 3` is never produced
(10_state.md R37, the spec's decision D11). -/
def Obligations.StatusWordLayout : Prop :=
  ∀ (st : RunState) (c : Cause), statusWord st c % 4 = st.code ∧ statusWord st c / 4 = c.code ∧ c.code ≠ 3 ∧
    RunState.idle.code = 0 ∧ RunState.busy.code = 1 ∧ RunState.done.code = 2 ∧ RunState.error.code = 3 ∧
    Cause.none.code = 0 ∧ Cause.widthOverflow.code = 1 ∧ Cause.invalidOffset.code = 2

/-- While a unit is busy the host cannot write its configuration, its length register or its buffers: the move is refused
(10_state.md R40, the spec's decision D18; the refusal is log 13). -/
def Obligations.BusyUnitRefusesHostWrites : Prop :=
  (∀ (u : UnitId) (n v : Nat) (s : State), s.runState u = .busy → n ≤ 5 → n ≠ 1 → withinPosw s.params v = true →
    hostMove (.writeReg u n v) s = .refused (.busyAccess u)) ∧
  (∀ (i : Nat) (v : Symbol) (s : State), s.enc.state = .busy → hostMove (.writeIbuf i v) s = .refused (.busyAccess .enc)) ∧
  (∀ (i : Nat) (v : Field) (s : State), s.dec.state = .busy → hostMove (.writeDecCbuf i v) s = .refused (.busyAccess .dec))

/-- The host configures and loads a unit that is not busy: a write to `CFG` of any value 0 to 3 stores it as `WSEL`, a write to
the length register stores the length, a write to a read-only register is ignored, and a write of a cell within an input buffer's
capacity stores the value in that cell; nothing else changes (10_state.md R36, R38; 43_commands.md R154). That the cell reads back
and the others stay is in `HostReadsBackWhatItWrote`. -/
def Obligations.HostConfiguresAnIdleUnit : Prop :=
  (∀ (i : Nat) (v : Symbol) (s : State), s.enc.state ≠ .busy → withinBuffer s.params .ibuf i = true →
    hostMove (.writeIbuf i v) s = .next { s with enc := { s.enc with ibuf := Memory.write s.enc.ibuf i v } }) ∧
  (∀ (i : Nat) (v : Field) (s : State), s.dec.state ≠ .busy → withinBuffer s.params .decCbuf i = true →
    hostMove (.writeDecCbuf i v) s = .next { s with dec := { s.dec with cbuf := Memory.write s.dec.cbuf i v } }) ∧
  ∀ (s : State) (v : Nat), withinPosw s.params v = true →
    (s.enc.state ≠ .busy →
      (v < 4 → ∃ t, hostMove (.writeReg .enc 0 v) s = .next t ∧ t.enc.wsel.toNat = v ∧
        t = { s with enc := { s.enc with wsel := t.enc.wsel } }) ∧
      hostMove (.writeReg .enc 3 v) s = .next { s with enc := { s.enc with ilen := v } } ∧
      (∀ n, n = 2 ∨ n = 4 ∨ n = 5 → hostMove (.writeReg .enc n v) s = .next s)) ∧
    (s.dec.state ≠ .busy →
      (v < 4 → ∃ t, hostMove (.writeReg .dec 0 v) s = .next t ∧ t.dec.wsel.toNat = v ∧
        t = { s with dec := { s.dec with wsel := t.dec.wsel } }) ∧
      hostMove (.writeReg .dec 3 v) s = .next { s with dec := { s.dec with clen := v } } ∧
      (∀ n, n = 2 ∨ n = 4 ∨ n = 5 → hostMove (.writeReg .dec n v) s = .next s))

/-- What the six registers of a unit that is not busy read as; `DEC_OLEN` is `DEC.pos` and `DEC_CIDX` is `DEC.k`
(10_state.md R36, R37, R44). -/
def Obligations.HostReadsTheRegisters : Prop :=
  ∀ s : State,
    (s.enc.state ≠ .busy →
      hostMove (.readReg .enc 0) s = .next { s with rdata := some s.enc.wsel.toNat } ∧
      hostMove (.readReg .enc 1) s = .next { s with rdata := some 0 } ∧
      hostMove (.readReg .enc 2) s = .next { s with rdata := some (statusWord s.enc.state s.enc.cause) } ∧
      hostMove (.readReg .enc 3) s = .next { s with rdata := some s.enc.ilen } ∧
      hostMove (.readReg .enc 4) s = .next { s with rdata := some s.enc.clen } ∧
      hostMove (.readReg .enc 5) s = .next { s with rdata := some s.enc.pos }) ∧
    (s.dec.state ≠ .busy →
      hostMove (.readReg .dec 0) s = .next { s with rdata := some s.dec.wsel.toNat } ∧
      hostMove (.readReg .dec 1) s = .next { s with rdata := some 0 } ∧
      hostMove (.readReg .dec 2) s = .next { s with rdata := some (statusWord s.dec.state s.dec.cause) } ∧
      hostMove (.readReg .dec 3) s = .next { s with rdata := some s.dec.clen } ∧
      hostMove (.readReg .dec 4) s = .next { s with rdata := some s.dec.pos } ∧
      hostMove (.readReg .dec 5) s = .next { s with rdata := some s.dec.k })

/-- Input stability: no transition of a unit changes the configuration, the length or a cell of the input that the host
loaded, nor the parameters or the host's side; and a unit in `IDLE`, `DONE` or `ERROR` simply holds its state, so that a result
stays as it is until the next command (70_reset_and_hazards.md R184, R189; 43_commands.md R147, R148;
60_exceptions.md R170). -/
def Obligations.UnitsNeverChangeTheirInputs : Prop :=
  (∀ s t : State, encTick s = .next t → t.enc.wsel = s.enc.wsel ∧ t.enc.ibuf = s.enc.ibuf ∧ t.enc.ilen = s.enc.ilen ∧
    t = { s with enc := t.enc }) ∧
  (∀ s t : State, decTick s = .next t → t.dec.wsel = s.dec.wsel ∧ t.dec.cbuf = s.dec.cbuf ∧ t.dec.clen = s.dec.clen ∧
    t = { s with dec := t.dec }) ∧
  (∀ s : State, s.enc.state ≠ .busy → encTick s = .next s) ∧
  (∀ s : State, s.dec.state ≠ .busy → decTick s = .next s)

/-- The host has no move that writes a cell of an output buffer: but for reset, every move of the host leaves every cell of
`ENC.CBUF` and of `DEC.OBUF`, and every length of an output that it does not restart by a command
(43_commands.md R154, R148). -/
def Obligations.HostNeverWritesAnOutputBuffer : Prop :=
  ∀ (m : HostMove) (s t : State), m ≠ .reset → hostMove m s = .next t →
    t.enc.cbuf = s.enc.cbuf ∧ t.dec.obuf = s.dec.obuf ∧ t.enc.past = s.enc.past ∧ t.dec.past = s.dec.past ∧
    t.params = s.params ∧
    (m ≠ .writeReg .enc 1 1 → t.enc.clen = s.enc.clen ∧ t.enc.pos = s.enc.pos ∧ t.enc.state = s.enc.state ∧
      t.enc.cause = s.enc.cause) ∧
    (m ≠ .writeReg .dec 1 1 → t.dec.pos = s.dec.pos ∧ t.dec.k = s.dec.k ∧ t.dec.state = s.dec.state ∧
      t.dec.cause = s.dec.cause)

/-- A host read that is left at any value completes, whatever the value, and changes nothing of the block: a register other than
`STATUS`, or a buffer cell, of a busy unit; and a cell that a failed call wrote last, which reads as a free value of that call and
that cell, whatever it holds, the same at every read until a call writes it again. After a failed call, in every state of the
invariant, every cell of its output is such a cell (10_state.md R40; 20_memory.md R58; 60_exceptions.md R161; the free values are
log 5 and log 12). -/
def Obligations.OpenReadsComplete : Prop :=
  (∀ (u : UnitId) (n : Nat) (s : State), s.runState u = .busy → n ≤ 5 → n ≠ 2 →
    ∃ v, hostMove (.readReg u n) s = .next { s with rdata := some v, freeCtr := s.freeCtr + 1 }) ∧
  (∀ (sp : Space) (i : Nat) (s : State), withinBuffer s.params sp i = true → s.runState sp.owner = .busy →
    ∃ v, hostMove (.readCell sp i) s = .next { s with rdata := some v, freeCtr := s.freeCtr + 1 }) ∧
  (∀ (i n : Nat) (x : Field) (s : State), withinBuffer s.params .encCbuf i = true → s.enc.state ≠ .busy →
    Memory.read s.enc.cbuf i = some x → failedCall s.enc.past i = some n →
    hostMove (.readCell .encCbuf i) s = .next { s with rdata := some (Config.failedField n i).toNat }) ∧
  (∀ (i n : Nat) (x : Symbol) (s : State), withinBuffer s.params .obuf i = true → s.dec.state ≠ .busy →
    Memory.read s.dec.obuf i = some x → failedCall s.dec.past i = some n →
    hostMove (.readCell .obuf i) s = .next { s with rdata := some (Config.failedSymbol n i).toNat }) ∧
  (∀ (i : Nat) (s : State), Inv s → s.dec.state = .error → i < s.dec.pos → ∃ n, failedCall s.dec.past i = some n)

/-- A read of a cell never written since reset faults, naming the cell. The encoder: the symbol at its cursor; the window's last
symbol, which its first search compares first; the symbol beyond a match, at any place of the lookahead; and, in the comparison of
two segments, the first cell that holds no value. The decoder: the three cells of its code in their order, and the cells of a
copy's source. The host: a cell of any buffer of a unit that is not busy. And a unit faults for nothing else
(70_reset_and_hazards.md R182; 40_match_finder.md R95; 41_encoder.md R104, R107; 42_decoder.md R125; 43_commands.md R154). -/
def Obligations.UnwrittenCellFaults : Prop :=
  (∀ (s : State) (w : Width), s.enc.state = .busy → widthOf s.enc.wsel = some w → s.enc.pos < s.enc.ilen →
    (Memory.read s.enc.ibuf s.enc.pos = none → encTick s = .fault (.unwrittenCell .ibuf s.enc.pos)) ∧
    (∀ x, Memory.read s.enc.ibuf s.enc.pos = some x → 1 ≤ s.enc.pos → s.enc.pos + 1 < s.enc.ilen →
      Memory.read s.enc.ibuf (s.enc.pos - 1) = none → encTick s = .fault (.unwrittenCell .ibuf (s.enc.pos - 1))) ∧
    (∀ l, 1 ≤ l → s.enc.pos + l < s.enc.ilen → WrittenBelow s.enc.ibuf (s.enc.pos + l) →
      (∃ i, OccursAt (encWindow w s.enc) l i) → Memory.read s.enc.ibuf (s.enc.pos + l) = none →
      encTick s = .fault (.unwrittenCell .ibuf (s.enc.pos + l)))) ∧
  (∀ (m : List Host.Cell) (a b p j : Nat), j < p →
    (∀ i, i < j → ∃ x, Memory.read m (a + i) = some x ∧ Memory.read m (b + i) = some x) →
    (Memory.read m (a + j) = none → segEq m a b p = .fault (.unwrittenCell .ibuf (a + j))) ∧
    (∀ x, Memory.read m (a + j) = some x → Memory.read m (b + j) = none →
      segEq m a b p = .fault (.unwrittenCell .ibuf (b + j)))) ∧
  (∀ (s : State) (w : Width), s.dec.state = .busy → widthOf s.dec.wsel = some w → s.dec.k < s.dec.clen →
    (Memory.read s.dec.cbuf (cellIndex s.dec.k 0) = none →
      decTick s = .fault (.unwrittenCell .decCbuf (cellIndex s.dec.k 0))) ∧
    (∀ o, Memory.read s.dec.cbuf (cellIndex s.dec.k 0) = some o → Memory.read s.dec.cbuf (cellIndex s.dec.k 1) = none →
      decTick s = .fault (.unwrittenCell .decCbuf (cellIndex s.dec.k 1))) ∧
    (∀ o l, Memory.read s.dec.cbuf (cellIndex s.dec.k 0) = some o →
      Memory.read s.dec.cbuf (cellIndex s.dec.k 1) = some l → Memory.read s.dec.cbuf (cellIndex s.dec.k 2) = none →
      decTick s = .fault (.unwrittenCell .decCbuf (cellIndex s.dec.k 2)))) ∧
  (∀ (i : Instr) (o l : Field) (lit : Symbol) (s : State) (j : Nat), codeFields i = some (o, l, lit) →
    o.toNat ≤ s.dec.pos → j < o.toNat → j < l.toNat → OutputFits s.params (s.dec.pos + l.toNat + 1) →
    (∀ a, a < j → ∃ v, Memory.read s.dec.obuf (s.dec.pos - o.toNat + a) = some v) →
    Memory.read s.dec.obuf (s.dec.pos - o.toNat + j) = none →
    exec i s = .fault (.unwrittenCell .obuf (s.dec.pos - o.toNat + j))) ∧
  (∀ (s : State) (i : Nat), s.enc.state ≠ .busy → withinBuffer s.params .ibuf i = true →
    Memory.read s.enc.ibuf i = none → hostMove (.readCell .ibuf i) s = .fault (.unwrittenCell .ibuf i)) ∧
  (∀ (s : State) (i : Nat), s.enc.state ≠ .busy → withinBuffer s.params .encCbuf i = true →
    Memory.read s.enc.cbuf i = none → hostMove (.readCell .encCbuf i) s = .fault (.unwrittenCell .encCbuf i)) ∧
  (∀ (s : State) (i : Nat), s.dec.state ≠ .busy → withinBuffer s.params .decCbuf i = true →
    Memory.read s.dec.cbuf i = none → hostMove (.readCell .decCbuf i) s = .fault (.unwrittenCell .decCbuf i)) ∧
  (∀ (s : State) (i : Nat), s.dec.state ≠ .busy → withinBuffer s.params .obuf i = true →
    Memory.read s.dec.obuf i = none → hostMove (.readCell .obuf i) s = .fault (.unwrittenCell .obuf i)) ∧
  (∀ (s : State) (f : Fault), encTick s = .fault f →
    ∃ i, f = .unwrittenCell .ibuf i ∧ i < s.enc.ilen ∧ Memory.read s.enc.ibuf i = none) ∧
  (∀ (s : State) (f : Fault), decTick s = .fault f →
    (∃ j, j < 3 ∧ f = .unwrittenCell .decCbuf (cellIndex s.dec.k j) ∧
      Memory.read s.dec.cbuf (cellIndex s.dec.k j) = none) ∨
    (∃ i, i < s.dec.pos ∧ f = .unwrittenCell .obuf i ∧ Memory.read s.dec.obuf i = none))

/-- A decoder that meets a literal cell above 255, of a value its width can hold, refuses the call, whatever the offset and the
length and before any check of them; it never truncates (30_encoding.md R74, 60_exceptions.md R165). -/
def Obligations.LiteralCellAbove255IsRefused : Prop :=
  ∀ (s : State) (w : Width) (o l c : Field), s.dec.state = .busy → widthOf s.dec.wsel = some w →
    s.dec.k < s.dec.clen → Memory.read s.dec.cbuf (cellIndex s.dec.k 0) = some o →
    Memory.read s.dec.cbuf (cellIndex s.dec.k 1) = some l → Memory.read s.dec.cbuf (cellIndex s.dec.k 2) = some c →
    c.toNat ≤ wmax w → 255 < c.toNat →
    decTick s = .refused .literalTooWide
end

