-- ==== Sys2Proof/Laws/Memory.lean ====
section
/-! SUPPORT. Reading and writing one cell of a buffer, the canonical form, and the three cells of a code. -/

namespace Sys2Proof.Machine

variable {n : Nat}

@[simp] theorem Memory.read_nil (a : Nat) : Memory.read ([] : List (Nat × BitVec n)) a = none := rfl

@[simp] theorem Memory.wf_nil : Memory.wf ([] : List (Nat × BitVec n)) = true := rfl

/-- A read after a write to the same cell gives the value written. -/
@[simp] theorem Memory.read_write_same (m : List (Nat × BitVec n)) (a : Nat) (v : BitVec n) :
    Memory.read (Memory.write m a v) a = some v := by
  induction m with
  | nil => simp [Memory.write, Memory.read]
  | cons h t ih =>
    obtain ⟨b, w⟩ := h
    simp only [Memory.write]
    split
    · simp [Memory.read]
    · split
      · simp [Memory.read]
      · rename_i hne
        rw [Memory.read, if_neg (fun hb => hne hb.symm), ih]

/-- A write leaves every other cell alone. -/
theorem Memory.read_write_ne (m : List (Nat × BitVec n)) {a i : Nat} (v : BitVec n) (h : i ≠ a) :
    Memory.read (Memory.write m a v) i = Memory.read m i := by
  induction m with
  | nil => simp [Memory.write, Memory.read, Ne.symm h]
  | cons hd t ih =>
    obtain ⟨b, w⟩ := hd
    simp only [Memory.write]
    split
    · rw [Memory.read, if_neg (Ne.symm h)]
    · split
      · rename_i hab
        subst hab
        simp [Memory.read, Ne.symm h]
      · simp only [Memory.read, ih]

/-- A read after a write, in one equation. -/
theorem Memory.read_write (m : List (Nat × BitVec n)) (a i : Nat) (v : BitVec n) :
    Memory.read (Memory.write m a v) i = if i = a then some v else Memory.read m i := by
  split
  · rename_i h
    rw [h, Memory.read_write_same]
  · rename_i h
    exact Memory.read_write_ne m v h

/-- The canonical form of a list: its first index lies below the rest's first index, and the rest is in canonical form. -/
theorem Memory.wf_cons (a : Nat) (v : BitVec n) (m : List (Nat × BitVec n)) :
    Memory.wf ((a, v) :: m) = true ↔ (∀ b w t, m = (b, w) :: t → a < b) ∧ Memory.wf m = true := by
  cases m with
  | nil => simp [Memory.wf]
  | cons h t =>
    obtain ⟨b, w⟩ := h
    simp only [Memory.wf, Bool.and_eq_true, decide_eq_true_eq, List.cons.injEq, Prod.mk.injEq]
    constructor
    · rintro ⟨h1, h2⟩
      exact ⟨by rintro b' w' t' ⟨⟨rfl, -⟩, -⟩; exact h1, h2⟩
    · rintro ⟨h1, h2⟩
      exact ⟨h1 b w t ⟨⟨rfl, rfl⟩, rfl⟩, h2⟩

/-- The first index after a write is the old first index or the one written. -/
theorem Memory.write_head (m : List (Nat × BitVec n)) (a : Nat) (v : BitVec n) :
    ∀ b w t, Memory.write m a v = (b, w) :: t → b = a ∨ ∃ w' t', m = (b, w') :: t' := by
  intro b w t h
  cases m with
  | nil =>
    simp [Memory.write] at h
    exact Or.inl h.1.1.symm
  | cons hd tl =>
    obtain ⟨b0, w0⟩ := hd
    simp only [Memory.write] at h
    split at h
    · simp at h
      exact Or.inl h.1.1.symm
    · split at h
      · simp at h
        exact Or.inl h.1.1.symm
      · simp at h
        exact Or.inr ⟨w0, tl, by simp [h.1.1]⟩

/-- A write keeps the canonical form. -/
theorem Memory.wf_write {m : List (Nat × BitVec n)} (a : Nat) (v : BitVec n) (h : Memory.wf m = true) :
    Memory.wf (Memory.write m a v) = true := by
  induction m with
  | nil => rfl
  | cons hd t ih =>
    obtain ⟨b, w⟩ := hd
    simp only [Memory.write]
    split
    · rename_i hab
      exact (Memory.wf_cons a v _).mpr ⟨by rintro b' w' t' heq; simp at heq; omega, h⟩
    · split
      · rename_i hab
        subst hab
        exact (Memory.wf_cons a v t).mpr ⟨((Memory.wf_cons a w t).mp h).1, ((Memory.wf_cons a w t).mp h).2⟩
      · rename_i h1 h2
        obtain ⟨hb, ht⟩ := (Memory.wf_cons b w t).mp h
        refine (Memory.wf_cons b w _).mpr ⟨?_, ih ht⟩
        intro b' w' t' heq
        rcases Memory.write_head t a v b' w' t' heq with rfl | ⟨w'', t'', rfl⟩
        · omega
        · exact hb b' w'' t'' rfl

/-- Below the first index of a canonical list nothing is listed. -/
theorem Memory.read_below (a : Nat) (v : BitVec n) (m : List (Nat × BitVec n)) (h : Memory.wf ((a, v) :: m) = true)
    (i : Nat) (hi : i ≤ a) : Memory.read m i = none := by
  induction m generalizing a v with
  | nil => rfl
  | cons hd t ih =>
    obtain ⟨b, w⟩ := hd
    obtain ⟨h1, h2⟩ := (Memory.wf_cons a v _).mp h
    have hab := h1 b w t rfl
    rw [Memory.read, if_neg (by omega)]
    exact ih b w h2 (by omega)

/-- Equal buffers are equal data: two canonical lists that read the same everywhere are the same list. -/
theorem Memory.ext {m m' : List (Nat × BitVec n)} (h : Memory.wf m = true) (h' : Memory.wf m' = true)
    (heq : ∀ i, Memory.read m i = Memory.read m' i) : m = m' := by
  induction m generalizing m' with
  | nil =>
    cases m' with
    | nil => rfl
    | cons hd t =>
      have := heq hd.1
      simp [Memory.read] at this
  | cons hd t ih =>
    obtain ⟨a, v⟩ := hd
    cases m' with
    | nil =>
      have := heq a
      simp [Memory.read] at this
    | cons hd' t' =>
      obtain ⟨b, w⟩ := hd'
      have hab : a = b := by
        rcases Nat.lt_trichotomy a b with hlt | rfl | hlt
        · have := heq a
          rw [Memory.read, if_pos rfl, Memory.read, if_neg (by omega), Memory.read_below b w t' h' a (by omega)] at this
          simp at this
        · rfl
        · have := heq b
          rw [Memory.read, if_neg (by omega), Memory.read_below a v t h b (by omega), Memory.read, if_pos rfl] at this
          simp at this
      subst hab
      have hv := heq a
      simp only [Memory.read, if_true, Option.some.injEq] at hv
      subst hv
      have ht := ((Memory.wf_cons a v t).mp h).2
      have ht' := ((Memory.wf_cons a v t').mp h').2
      rw [ih ht ht' (fun i => ?_)]
      by_cases hi : i = a
      · subst hi
        rw [Memory.read_below i v t h i (Nat.le_refl i), Memory.read_below i v t' h' i (Nat.le_refl i)]
      · have := heq i
        simpa only [Memory.read, if_neg (Ne.symm hi)] using this

/-- The cells a code's write changes are its own three. -/
theorem read_writeCode_other (m : List (Nat × Field)) (k : Nat) (o l : Field) (lit : Symbol) {i : Nat}
    (h : i < cellIndex k 0 ∨ cellIndex k 2 < i) : Memory.read (writeCode m k o l lit) i = Memory.read m i := by
  unfold writeCode
  simp only [cellIndex, codeCells] at *
  rw [Memory.read_write_ne _ _ (by omega), Memory.read_write_ne _ _ (by omega), Memory.read_write_ne _ _ (by omega)]

@[simp] theorem read_writeCode_offset (m : List (Nat × Field)) (k : Nat) (o l : Field) (lit : Symbol) :
    Memory.read (writeCode m k o l lit) (cellIndex k 0) = some o := by
  unfold writeCode
  simp only [cellIndex, codeCells]
  rw [Memory.read_write_ne _ _ (by omega), Memory.read_write_ne _ _ (by omega), Memory.read_write_same]

@[simp] theorem read_writeCode_length (m : List (Nat × Field)) (k : Nat) (o l : Field) (lit : Symbol) :
    Memory.read (writeCode m k o l lit) (cellIndex k 1) = some l := by
  unfold writeCode
  simp only [cellIndex, codeCells]
  rw [Memory.read_write_ne _ _ (by omega), Memory.read_write_same]

@[simp] theorem read_writeCode_literal (m : List (Nat × Field)) (k : Nat) (o l : Field) (lit : Symbol) :
    Memory.read (writeCode m k o l lit) (cellIndex k 2) = some (lit.setWidth 32) := by
  unfold writeCode
  rw [Memory.read_write_same]

theorem wf_writeCode {m : List (Nat × Field)} (k : Nat) (o l : Field) (lit : Symbol) (h : Memory.wf m = true) :
    Memory.wf (writeCode m k o l lit) = true :=
  Memory.wf_write _ _ (Memory.wf_write _ _ (Memory.wf_write _ _ h))

/-- A code's write keeps the codes before it. -/
theorem EmittedShape.writeCode {m : List (Nat × Field)} {j : Nat} (k : Nat) (o l : Field) (lit : Symbol) (hj : j < k)
    (h : EmittedShape m j) : EmittedShape (Machine.writeCode m k o l lit) j := by
  obtain ⟨o', l', s', h0, h1, h2, h3⟩ := h
  refine ⟨o', l', s', ?_, ?_, ?_, h3⟩
  · rw [read_writeCode_other _ _ _ _ _ (Or.inl (by simp only [cellIndex, codeCells]; omega)), h0]
  · rw [read_writeCode_other _ _ _ _ _ (Or.inl (by simp only [cellIndex, codeCells]; omega)), h1]
  · rw [read_writeCode_other _ _ _ _ _ (Or.inl (by simp only [cellIndex, codeCells]; omega)), h2]

theorem WrittenBelow.zero (m : List (Nat × BitVec n)) : WrittenBelow m 0 := by
  intro i hi
  omega

/-- Appending a cell at the end extends what is written. -/
theorem WrittenBelow.append {m : List (Nat × BitVec n)} {k : Nat} (v : BitVec n) (h : WrittenBelow m k) :
    WrittenBelow (Memory.write m k v) (k + 1) := by
  intro i hi
  rw [Memory.read_write]
  split
  · exact ⟨v, rfl⟩
  · exact h i (by omega)

theorem SameBelow.refl (k : Nat) (m : List (Nat × BitVec n)) : SameBelow k m m := fun _ _ => rfl

theorem SameBelow.symm {k : Nat} {m m' : List (Nat × BitVec n)} (h : SameBelow k m m') : SameBelow k m' m :=
  fun i hi => (h i hi).symm

theorem SameBelow.mono {k k' : Nat} {m m' : List (Nat × BitVec n)} (h : SameBelow k m m') (hk : k' ≤ k) :
    SameBelow k' m m' :=
  fun i hi => h i (by omega)

/-- Appending the same cell to two buffers that agree keeps them in agreement. -/
theorem SameBelow.append {k : Nat} {m m' : List (Nat × BitVec n)} (v : BitVec n) (h : SameBelow k m m') :
    SameBelow (k + 1) (Memory.write m k v) (Memory.write m' k v) := by
  intro i hi
  rw [Memory.read_write, Memory.read_write]
  split
  · rfl
  · exact h i (by omega)

end Sys2Proof.Machine
end

