-- ==== Sys2Proof/Laws/Outcome.lean ====
section
/-! SUPPORT. Sequencing of operations, and the reading of one cell. -/

namespace Sys2Proof.Machine

@[simp] theorem andThen_next {α β : Type} (a : α) (f : α → Res β) : andThen (.next a) f = f a := rfl

@[simp] theorem andThen_fault {α β : Type} (e : Fault) (f : α → Res β) :
    andThen (Host.Outcome.fault e : Res α) f = .fault e := rfl

@[simp] theorem andThen_refused {α β : Type} (e : Refusal) (f : α → Res β) :
    andThen (Host.Outcome.refused e : Res α) f = .refused e := rfl

/-- A sequence answers a value exactly when both parts do. -/
theorem andThen_eq_next {α β : Type} {r : Res α} {f : α → Res β} {b : β} :
    andThen r f = .next b ↔ ∃ a, r = .next a ∧ f a = .next b := by
  cases r <;> simp [andThen]

/-- A sequence faults exactly when one of its parts does, the second after an answer of the first. -/
theorem andThen_eq_fault {α β : Type} {r : Res α} {f : α → Res β} {e : Fault} :
    andThen r f = .fault e ↔ r = .fault e ∨ ∃ a, r = .next a ∧ f a = .fault e := by
  cases r <;> simp [andThen]

/-- A unit's read faults exactly when the cell holds no value, naming the cell. -/
theorem memRead_eq_fault {n : Nat} {sp : Space} {m : List (Nat × BitVec n)} {i : Nat} {e : Fault} :
    memRead sp m i = .fault e ↔ Memory.read m i = none ∧ e = .unwrittenCell sp i := by
  unfold memRead
  cases Memory.read m i <;> simp [eq_comm]

/-- A unit's read answers a value exactly when the cell holds it. -/
theorem memRead_eq_next {n : Nat} {sp : Space} {m : List (Nat × BitVec n)} {i : Nat} {v : BitVec n} :
    memRead sp m i = .next v ↔ Memory.read m i = some v := by
  unfold memRead
  cases Memory.read m i <;> simp

/-- A read of a cell that holds a value answers it. -/
theorem memRead_of_read {n : Nat} (sp : Space) {m : List (Nat × BitVec n)} {i : Nat} {v : BitVec n}
    (h : Memory.read m i = some v) : memRead sp m i = .next v :=
  memRead_eq_next.mpr h

/-- A read of a cell that holds no value faults, naming the cell. -/
theorem memRead_of_unwritten {n : Nat} (sp : Space) {m : List (Nat × BitVec n)} {i : Nat}
    (h : Memory.read m i = none) : memRead sp m i = .fault (.unwrittenCell sp i) := by
  unfold memRead
  rw [h]

end Sys2Proof.Machine
end

