-- ==== Sys2Proof/Laws/State.lean ====
section
/-! SUPPORT. One lemma for each field of each update of the state, true by rfl, so that no proof unfolds an update. -/

namespace Sys2Proof.Machine

/-! Raising an error, starting and ending a call. -/

@[simp] theorem endedCall_enc (failed : Bool) (s : State) : endedCall .enc failed s = ⟨codeCells s.enc.clen, failed⟩ := rfl
@[simp] theorem endedCall_dec (failed : Bool) (s : State) : endedCall .dec failed s = ⟨s.dec.pos, failed⟩ := rfl


@[simp] theorem raise_enc_params (c : Cause) (s : State) : (raise .enc c s).params = s.params := rfl
@[simp] theorem raise_enc_dec (c : Cause) (s : State) : (raise .enc c s).dec = s.dec := rfl
@[simp] theorem raise_enc_pending (c : Cause) (s : State) : (raise .enc c s).pending = s.pending := rfl
@[simp] theorem raise_enc_schedule (c : Cause) (s : State) : (raise .enc c s).schedule = s.schedule := rfl
@[simp] theorem raise_enc_rdata (c : Cause) (s : State) : (raise .enc c s).rdata = s.rdata := rfl
@[simp] theorem raise_enc_freeCtr (c : Cause) (s : State) : (raise .enc c s).freeCtr = s.freeCtr := rfl
@[simp] theorem raise_enc_enc_wsel (c : Cause) (s : State) : (raise .enc c s).enc.wsel = s.enc.wsel := rfl
@[simp] theorem raise_enc_enc_ibuf (c : Cause) (s : State) : (raise .enc c s).enc.ibuf = s.enc.ibuf := rfl
@[simp] theorem raise_enc_enc_ilen (c : Cause) (s : State) : (raise .enc c s).enc.ilen = s.enc.ilen := rfl
@[simp] theorem raise_enc_enc_cbuf (c : Cause) (s : State) : (raise .enc c s).enc.cbuf = s.enc.cbuf := rfl
@[simp] theorem raise_enc_enc_clen (c : Cause) (s : State) : (raise .enc c s).enc.clen = s.enc.clen := rfl
@[simp] theorem raise_enc_enc_pos (c : Cause) (s : State) : (raise .enc c s).enc.pos = s.enc.pos := rfl
@[simp] theorem raise_enc_enc_ws (c : Cause) (s : State) : (raise .enc c s).enc.ws = s.enc.ws := rfl
@[simp] theorem raise_enc_enc_n (c : Cause) (s : State) : (raise .enc c s).enc.n = s.enc.n := rfl
@[simp] theorem raise_enc_enc_L (c : Cause) (s : State) : (raise .enc c s).enc.L = s.enc.L := rfl
@[simp] theorem raise_enc_enc_s (c : Cause) (s : State) : (raise .enc c s).enc.s = s.enc.s := rfl
@[simp] theorem raise_enc_enc_bo (c : Cause) (s : State) : (raise .enc c s).enc.bo = s.enc.bo := rfl
@[simp] theorem raise_enc_enc_bl (c : Cause) (s : State) : (raise .enc c s).enc.bl = s.enc.bl := rfl
@[simp] theorem raise_enc_enc_bs (c : Cause) (s : State) : (raise .enc c s).enc.bs = s.enc.bs := rfl
@[simp] theorem raise_enc_enc_mfP (c : Cause) (s : State) : (raise .enc c s).enc.mfP = s.enc.mfP := rfl
@[simp] theorem raise_enc_enc_mfC (c : Cause) (s : State) : (raise .enc c s).enc.mfC = s.enc.mfC := rfl
@[simp] theorem raise_enc_enc_mfHit (c : Cause) (s : State) : (raise .enc c s).enc.mfHit = s.enc.mfHit := rfl
@[simp] theorem raise_enc_enc_mfM (c : Cause) (s : State) : (raise .enc c s).enc.mfM = s.enc.mfM := rfl
@[simp] theorem raise_enc_enc_state (c : Cause) (s : State) : (raise .enc c s).enc.state = .error := rfl
@[simp] theorem raise_enc_enc_cause (c : Cause) (s : State) : (raise .enc c s).enc.cause = c := rfl
@[simp] theorem raise_enc_enc_past (c : Cause) (s : State) :
    (raise .enc c s).enc.past = endedCall .enc true s :: s.enc.past := rfl
@[simp] theorem raise_dec_params (c : Cause) (s : State) : (raise .dec c s).params = s.params := rfl
@[simp] theorem raise_dec_enc (c : Cause) (s : State) : (raise .dec c s).enc = s.enc := rfl
@[simp] theorem raise_dec_pending (c : Cause) (s : State) : (raise .dec c s).pending = s.pending := rfl
@[simp] theorem raise_dec_schedule (c : Cause) (s : State) : (raise .dec c s).schedule = s.schedule := rfl
@[simp] theorem raise_dec_rdata (c : Cause) (s : State) : (raise .dec c s).rdata = s.rdata := rfl
@[simp] theorem raise_dec_freeCtr (c : Cause) (s : State) : (raise .dec c s).freeCtr = s.freeCtr := rfl
@[simp] theorem raise_dec_dec_wsel (c : Cause) (s : State) : (raise .dec c s).dec.wsel = s.dec.wsel := rfl
@[simp] theorem raise_dec_dec_cbuf (c : Cause) (s : State) : (raise .dec c s).dec.cbuf = s.dec.cbuf := rfl
@[simp] theorem raise_dec_dec_clen (c : Cause) (s : State) : (raise .dec c s).dec.clen = s.dec.clen := rfl
@[simp] theorem raise_dec_dec_obuf (c : Cause) (s : State) : (raise .dec c s).dec.obuf = s.dec.obuf := rfl
@[simp] theorem raise_dec_dec_k (c : Cause) (s : State) : (raise .dec c s).dec.k = s.dec.k := rfl
@[simp] theorem raise_dec_dec_pos (c : Cause) (s : State) : (raise .dec c s).dec.pos = s.dec.pos := rfl
@[simp] theorem raise_dec_dec_o (c : Cause) (s : State) : (raise .dec c s).dec.o = s.dec.o := rfl
@[simp] theorem raise_dec_dec_l (c : Cause) (s : State) : (raise .dec c s).dec.l = s.dec.l := rfl
@[simp] theorem raise_dec_dec_lit (c : Cause) (s : State) : (raise .dec c s).dec.lit = s.dec.lit := rfl
@[simp] theorem raise_dec_dec_cuI (c : Cause) (s : State) : (raise .dec c s).dec.cuI = s.dec.cuI := rfl
@[simp] theorem raise_dec_dec_state (c : Cause) (s : State) : (raise .dec c s).dec.state = .error := rfl
@[simp] theorem raise_dec_dec_cause (c : Cause) (s : State) : (raise .dec c s).dec.cause = c := rfl
@[simp] theorem raise_dec_dec_past (c : Cause) (s : State) :
    (raise .dec c s).dec.past = endedCall .dec true s :: s.dec.past := rfl
@[simp] theorem beginCall_enc_params (s : State) : (beginCall .enc s).params = s.params := rfl
@[simp] theorem beginCall_enc_dec (s : State) : (beginCall .enc s).dec = s.dec := rfl
@[simp] theorem beginCall_enc_pending (s : State) : (beginCall .enc s).pending = s.pending := rfl
@[simp] theorem beginCall_enc_schedule (s : State) : (beginCall .enc s).schedule = s.schedule := rfl
@[simp] theorem beginCall_enc_rdata (s : State) : (beginCall .enc s).rdata = s.rdata := rfl
@[simp] theorem beginCall_enc_freeCtr (s : State) : (beginCall .enc s).freeCtr = s.freeCtr := rfl
@[simp] theorem beginCall_enc_enc_wsel (s : State) : (beginCall .enc s).enc.wsel = s.enc.wsel := rfl
@[simp] theorem beginCall_enc_enc_ibuf (s : State) : (beginCall .enc s).enc.ibuf = s.enc.ibuf := rfl
@[simp] theorem beginCall_enc_enc_ilen (s : State) : (beginCall .enc s).enc.ilen = s.enc.ilen := rfl
@[simp] theorem beginCall_enc_enc_cbuf (s : State) : (beginCall .enc s).enc.cbuf = s.enc.cbuf := rfl
@[simp] theorem beginCall_enc_enc_clen (s : State) : (beginCall .enc s).enc.clen = 0 := rfl
@[simp] theorem beginCall_enc_enc_pos (s : State) : (beginCall .enc s).enc.pos = 0 := rfl
@[simp] theorem beginCall_enc_enc_ws (s : State) : (beginCall .enc s).enc.ws = s.enc.ws := rfl
@[simp] theorem beginCall_enc_enc_n (s : State) : (beginCall .enc s).enc.n = s.enc.n := rfl
@[simp] theorem beginCall_enc_enc_L (s : State) : (beginCall .enc s).enc.L = s.enc.L := rfl
@[simp] theorem beginCall_enc_enc_s (s : State) : (beginCall .enc s).enc.s = s.enc.s := rfl
@[simp] theorem beginCall_enc_enc_bo (s : State) : (beginCall .enc s).enc.bo = s.enc.bo := rfl
@[simp] theorem beginCall_enc_enc_bl (s : State) : (beginCall .enc s).enc.bl = s.enc.bl := rfl
@[simp] theorem beginCall_enc_enc_bs (s : State) : (beginCall .enc s).enc.bs = s.enc.bs := rfl
@[simp] theorem beginCall_enc_enc_mfP (s : State) : (beginCall .enc s).enc.mfP = s.enc.mfP := rfl
@[simp] theorem beginCall_enc_enc_mfC (s : State) : (beginCall .enc s).enc.mfC = s.enc.mfC := rfl
@[simp] theorem beginCall_enc_enc_mfHit (s : State) : (beginCall .enc s).enc.mfHit = s.enc.mfHit := rfl
@[simp] theorem beginCall_enc_enc_mfM (s : State) : (beginCall .enc s).enc.mfM = s.enc.mfM := rfl
@[simp] theorem beginCall_enc_enc_state (s : State) : (beginCall .enc s).enc.state = .busy := rfl
@[simp] theorem beginCall_enc_enc_cause (s : State) : (beginCall .enc s).enc.cause = .none := rfl
@[simp] theorem beginCall_enc_enc_past (s : State) : (beginCall .enc s).enc.past = s.enc.past := rfl
@[simp] theorem beginCall_dec_params (s : State) : (beginCall .dec s).params = s.params := rfl
@[simp] theorem beginCall_dec_enc (s : State) : (beginCall .dec s).enc = s.enc := rfl
@[simp] theorem beginCall_dec_pending (s : State) : (beginCall .dec s).pending = s.pending := rfl
@[simp] theorem beginCall_dec_schedule (s : State) : (beginCall .dec s).schedule = s.schedule := rfl
@[simp] theorem beginCall_dec_rdata (s : State) : (beginCall .dec s).rdata = s.rdata := rfl
@[simp] theorem beginCall_dec_freeCtr (s : State) : (beginCall .dec s).freeCtr = s.freeCtr := rfl
@[simp] theorem beginCall_dec_dec_wsel (s : State) : (beginCall .dec s).dec.wsel = s.dec.wsel := rfl
@[simp] theorem beginCall_dec_dec_cbuf (s : State) : (beginCall .dec s).dec.cbuf = s.dec.cbuf := rfl
@[simp] theorem beginCall_dec_dec_clen (s : State) : (beginCall .dec s).dec.clen = s.dec.clen := rfl
@[simp] theorem beginCall_dec_dec_obuf (s : State) : (beginCall .dec s).dec.obuf = s.dec.obuf := rfl
@[simp] theorem beginCall_dec_dec_k (s : State) : (beginCall .dec s).dec.k = 0 := rfl
@[simp] theorem beginCall_dec_dec_pos (s : State) : (beginCall .dec s).dec.pos = 0 := rfl
@[simp] theorem beginCall_dec_dec_o (s : State) : (beginCall .dec s).dec.o = s.dec.o := rfl
@[simp] theorem beginCall_dec_dec_l (s : State) : (beginCall .dec s).dec.l = s.dec.l := rfl
@[simp] theorem beginCall_dec_dec_lit (s : State) : (beginCall .dec s).dec.lit = s.dec.lit := rfl
@[simp] theorem beginCall_dec_dec_cuI (s : State) : (beginCall .dec s).dec.cuI = s.dec.cuI := rfl
@[simp] theorem beginCall_dec_dec_state (s : State) : (beginCall .dec s).dec.state = .busy := rfl
@[simp] theorem beginCall_dec_dec_cause (s : State) : (beginCall .dec s).dec.cause = .none := rfl
@[simp] theorem beginCall_dec_dec_past (s : State) : (beginCall .dec s).dec.past = s.dec.past := rfl
@[simp] theorem endCall_enc_params (s : State) : (endCall .enc s).params = s.params := rfl
@[simp] theorem endCall_enc_dec (s : State) : (endCall .enc s).dec = s.dec := rfl
@[simp] theorem endCall_enc_pending (s : State) : (endCall .enc s).pending = s.pending := rfl
@[simp] theorem endCall_enc_schedule (s : State) : (endCall .enc s).schedule = s.schedule := rfl
@[simp] theorem endCall_enc_rdata (s : State) : (endCall .enc s).rdata = s.rdata := rfl
@[simp] theorem endCall_enc_freeCtr (s : State) : (endCall .enc s).freeCtr = s.freeCtr := rfl
@[simp] theorem endCall_enc_enc_wsel (s : State) : (endCall .enc s).enc.wsel = s.enc.wsel := rfl
@[simp] theorem endCall_enc_enc_ibuf (s : State) : (endCall .enc s).enc.ibuf = s.enc.ibuf := rfl
@[simp] theorem endCall_enc_enc_ilen (s : State) : (endCall .enc s).enc.ilen = s.enc.ilen := rfl
@[simp] theorem endCall_enc_enc_cbuf (s : State) : (endCall .enc s).enc.cbuf = s.enc.cbuf := rfl
@[simp] theorem endCall_enc_enc_clen (s : State) : (endCall .enc s).enc.clen = s.enc.clen := rfl
@[simp] theorem endCall_enc_enc_pos (s : State) : (endCall .enc s).enc.pos = s.enc.pos := rfl
@[simp] theorem endCall_enc_enc_ws (s : State) : (endCall .enc s).enc.ws = s.enc.ws := rfl
@[simp] theorem endCall_enc_enc_n (s : State) : (endCall .enc s).enc.n = s.enc.n := rfl
@[simp] theorem endCall_enc_enc_L (s : State) : (endCall .enc s).enc.L = s.enc.L := rfl
@[simp] theorem endCall_enc_enc_s (s : State) : (endCall .enc s).enc.s = s.enc.s := rfl
@[simp] theorem endCall_enc_enc_bo (s : State) : (endCall .enc s).enc.bo = s.enc.bo := rfl
@[simp] theorem endCall_enc_enc_bl (s : State) : (endCall .enc s).enc.bl = s.enc.bl := rfl
@[simp] theorem endCall_enc_enc_bs (s : State) : (endCall .enc s).enc.bs = s.enc.bs := rfl
@[simp] theorem endCall_enc_enc_mfP (s : State) : (endCall .enc s).enc.mfP = s.enc.mfP := rfl
@[simp] theorem endCall_enc_enc_mfC (s : State) : (endCall .enc s).enc.mfC = s.enc.mfC := rfl
@[simp] theorem endCall_enc_enc_mfHit (s : State) : (endCall .enc s).enc.mfHit = s.enc.mfHit := rfl
@[simp] theorem endCall_enc_enc_mfM (s : State) : (endCall .enc s).enc.mfM = s.enc.mfM := rfl
@[simp] theorem endCall_enc_enc_state (s : State) : (endCall .enc s).enc.state = .done := rfl
@[simp] theorem endCall_enc_enc_cause (s : State) : (endCall .enc s).enc.cause = s.enc.cause := rfl
@[simp] theorem endCall_enc_enc_past (s : State) : (endCall .enc s).enc.past = endedCall .enc false s :: s.enc.past := rfl
@[simp] theorem endCall_dec_params (s : State) : (endCall .dec s).params = s.params := rfl
@[simp] theorem endCall_dec_enc (s : State) : (endCall .dec s).enc = s.enc := rfl
@[simp] theorem endCall_dec_pending (s : State) : (endCall .dec s).pending = s.pending := rfl
@[simp] theorem endCall_dec_schedule (s : State) : (endCall .dec s).schedule = s.schedule := rfl
@[simp] theorem endCall_dec_rdata (s : State) : (endCall .dec s).rdata = s.rdata := rfl
@[simp] theorem endCall_dec_freeCtr (s : State) : (endCall .dec s).freeCtr = s.freeCtr := rfl
@[simp] theorem endCall_dec_dec_wsel (s : State) : (endCall .dec s).dec.wsel = s.dec.wsel := rfl
@[simp] theorem endCall_dec_dec_cbuf (s : State) : (endCall .dec s).dec.cbuf = s.dec.cbuf := rfl
@[simp] theorem endCall_dec_dec_clen (s : State) : (endCall .dec s).dec.clen = s.dec.clen := rfl
@[simp] theorem endCall_dec_dec_obuf (s : State) : (endCall .dec s).dec.obuf = s.dec.obuf := rfl
@[simp] theorem endCall_dec_dec_k (s : State) : (endCall .dec s).dec.k = s.dec.k := rfl
@[simp] theorem endCall_dec_dec_pos (s : State) : (endCall .dec s).dec.pos = s.dec.pos := rfl
@[simp] theorem endCall_dec_dec_o (s : State) : (endCall .dec s).dec.o = s.dec.o := rfl
@[simp] theorem endCall_dec_dec_l (s : State) : (endCall .dec s).dec.l = s.dec.l := rfl
@[simp] theorem endCall_dec_dec_lit (s : State) : (endCall .dec s).dec.lit = s.dec.lit := rfl
@[simp] theorem endCall_dec_dec_cuI (s : State) : (endCall .dec s).dec.cuI = s.dec.cuI := rfl
@[simp] theorem endCall_dec_dec_state (s : State) : (endCall .dec s).dec.state = .done := rfl
@[simp] theorem endCall_dec_dec_cause (s : State) : (endCall .dec s).dec.cause = s.dec.cause := rfl
@[simp] theorem endCall_dec_dec_past (s : State) : (endCall .dec s).dec.past = endedCall .dec false s :: s.dec.past := rfl

/-! The host's configuration writes. -/

@[simp] theorem setCfg_enc_params (v : Nat) (s : State) : (setCfg .enc v s).params = s.params := rfl
@[simp] theorem setCfg_enc_dec (v : Nat) (s : State) : (setCfg .enc v s).dec = s.dec := rfl
@[simp] theorem setCfg_enc_pending (v : Nat) (s : State) : (setCfg .enc v s).pending = s.pending := rfl
@[simp] theorem setCfg_enc_schedule (v : Nat) (s : State) : (setCfg .enc v s).schedule = s.schedule := rfl
@[simp] theorem setCfg_enc_rdata (v : Nat) (s : State) : (setCfg .enc v s).rdata = s.rdata := rfl
@[simp] theorem setCfg_enc_freeCtr (v : Nat) (s : State) : (setCfg .enc v s).freeCtr = s.freeCtr := rfl
@[simp] theorem setCfg_enc_enc_wsel (v : Nat) (s : State) : (setCfg .enc v s).enc.wsel = BitVec.ofNat 2 v := rfl
@[simp] theorem setCfg_enc_enc_ibuf (v : Nat) (s : State) : (setCfg .enc v s).enc.ibuf = s.enc.ibuf := rfl
@[simp] theorem setCfg_enc_enc_ilen (v : Nat) (s : State) : (setCfg .enc v s).enc.ilen = s.enc.ilen := rfl
@[simp] theorem setCfg_enc_enc_cbuf (v : Nat) (s : State) : (setCfg .enc v s).enc.cbuf = s.enc.cbuf := rfl
@[simp] theorem setCfg_enc_enc_clen (v : Nat) (s : State) : (setCfg .enc v s).enc.clen = s.enc.clen := rfl
@[simp] theorem setCfg_enc_enc_pos (v : Nat) (s : State) : (setCfg .enc v s).enc.pos = s.enc.pos := rfl
@[simp] theorem setCfg_enc_enc_ws (v : Nat) (s : State) : (setCfg .enc v s).enc.ws = s.enc.ws := rfl
@[simp] theorem setCfg_enc_enc_n (v : Nat) (s : State) : (setCfg .enc v s).enc.n = s.enc.n := rfl
@[simp] theorem setCfg_enc_enc_L (v : Nat) (s : State) : (setCfg .enc v s).enc.L = s.enc.L := rfl
@[simp] theorem setCfg_enc_enc_s (v : Nat) (s : State) : (setCfg .enc v s).enc.s = s.enc.s := rfl
@[simp] theorem setCfg_enc_enc_bo (v : Nat) (s : State) : (setCfg .enc v s).enc.bo = s.enc.bo := rfl
@[simp] theorem setCfg_enc_enc_bl (v : Nat) (s : State) : (setCfg .enc v s).enc.bl = s.enc.bl := rfl
@[simp] theorem setCfg_enc_enc_bs (v : Nat) (s : State) : (setCfg .enc v s).enc.bs = s.enc.bs := rfl
@[simp] theorem setCfg_enc_enc_mfP (v : Nat) (s : State) : (setCfg .enc v s).enc.mfP = s.enc.mfP := rfl
@[simp] theorem setCfg_enc_enc_mfC (v : Nat) (s : State) : (setCfg .enc v s).enc.mfC = s.enc.mfC := rfl
@[simp] theorem setCfg_enc_enc_mfHit (v : Nat) (s : State) : (setCfg .enc v s).enc.mfHit = s.enc.mfHit := rfl
@[simp] theorem setCfg_enc_enc_mfM (v : Nat) (s : State) : (setCfg .enc v s).enc.mfM = s.enc.mfM := rfl
@[simp] theorem setCfg_enc_enc_state (v : Nat) (s : State) : (setCfg .enc v s).enc.state = s.enc.state := rfl
@[simp] theorem setCfg_enc_enc_cause (v : Nat) (s : State) : (setCfg .enc v s).enc.cause = s.enc.cause := rfl
@[simp] theorem setCfg_enc_enc_past (v : Nat) (s : State) : (setCfg .enc v s).enc.past = s.enc.past := rfl
@[simp] theorem setCfg_dec_params (v : Nat) (s : State) : (setCfg .dec v s).params = s.params := rfl
@[simp] theorem setCfg_dec_enc (v : Nat) (s : State) : (setCfg .dec v s).enc = s.enc := rfl
@[simp] theorem setCfg_dec_pending (v : Nat) (s : State) : (setCfg .dec v s).pending = s.pending := rfl
@[simp] theorem setCfg_dec_schedule (v : Nat) (s : State) : (setCfg .dec v s).schedule = s.schedule := rfl
@[simp] theorem setCfg_dec_rdata (v : Nat) (s : State) : (setCfg .dec v s).rdata = s.rdata := rfl
@[simp] theorem setCfg_dec_freeCtr (v : Nat) (s : State) : (setCfg .dec v s).freeCtr = s.freeCtr := rfl
@[simp] theorem setCfg_dec_dec_wsel (v : Nat) (s : State) : (setCfg .dec v s).dec.wsel = BitVec.ofNat 2 v := rfl
@[simp] theorem setCfg_dec_dec_cbuf (v : Nat) (s : State) : (setCfg .dec v s).dec.cbuf = s.dec.cbuf := rfl
@[simp] theorem setCfg_dec_dec_clen (v : Nat) (s : State) : (setCfg .dec v s).dec.clen = s.dec.clen := rfl
@[simp] theorem setCfg_dec_dec_obuf (v : Nat) (s : State) : (setCfg .dec v s).dec.obuf = s.dec.obuf := rfl
@[simp] theorem setCfg_dec_dec_k (v : Nat) (s : State) : (setCfg .dec v s).dec.k = s.dec.k := rfl
@[simp] theorem setCfg_dec_dec_pos (v : Nat) (s : State) : (setCfg .dec v s).dec.pos = s.dec.pos := rfl
@[simp] theorem setCfg_dec_dec_o (v : Nat) (s : State) : (setCfg .dec v s).dec.o = s.dec.o := rfl
@[simp] theorem setCfg_dec_dec_l (v : Nat) (s : State) : (setCfg .dec v s).dec.l = s.dec.l := rfl
@[simp] theorem setCfg_dec_dec_lit (v : Nat) (s : State) : (setCfg .dec v s).dec.lit = s.dec.lit := rfl
@[simp] theorem setCfg_dec_dec_cuI (v : Nat) (s : State) : (setCfg .dec v s).dec.cuI = s.dec.cuI := rfl
@[simp] theorem setCfg_dec_dec_state (v : Nat) (s : State) : (setCfg .dec v s).dec.state = s.dec.state := rfl
@[simp] theorem setCfg_dec_dec_cause (v : Nat) (s : State) : (setCfg .dec v s).dec.cause = s.dec.cause := rfl
@[simp] theorem setCfg_dec_dec_past (v : Nat) (s : State) : (setCfg .dec v s).dec.past = s.dec.past := rfl
@[simp] theorem setLength_enc_params (v : Nat) (s : State) : (setLength .enc v s).params = s.params := rfl
@[simp] theorem setLength_enc_dec (v : Nat) (s : State) : (setLength .enc v s).dec = s.dec := rfl
@[simp] theorem setLength_enc_pending (v : Nat) (s : State) : (setLength .enc v s).pending = s.pending := rfl
@[simp] theorem setLength_enc_schedule (v : Nat) (s : State) : (setLength .enc v s).schedule = s.schedule := rfl
@[simp] theorem setLength_enc_rdata (v : Nat) (s : State) : (setLength .enc v s).rdata = s.rdata := rfl
@[simp] theorem setLength_enc_freeCtr (v : Nat) (s : State) : (setLength .enc v s).freeCtr = s.freeCtr := rfl
@[simp] theorem setLength_enc_enc_wsel (v : Nat) (s : State) : (setLength .enc v s).enc.wsel = s.enc.wsel := rfl
@[simp] theorem setLength_enc_enc_ibuf (v : Nat) (s : State) : (setLength .enc v s).enc.ibuf = s.enc.ibuf := rfl
@[simp] theorem setLength_enc_enc_ilen (v : Nat) (s : State) : (setLength .enc v s).enc.ilen = v := rfl
@[simp] theorem setLength_enc_enc_cbuf (v : Nat) (s : State) : (setLength .enc v s).enc.cbuf = s.enc.cbuf := rfl
@[simp] theorem setLength_enc_enc_clen (v : Nat) (s : State) : (setLength .enc v s).enc.clen = s.enc.clen := rfl
@[simp] theorem setLength_enc_enc_pos (v : Nat) (s : State) : (setLength .enc v s).enc.pos = s.enc.pos := rfl
@[simp] theorem setLength_enc_enc_ws (v : Nat) (s : State) : (setLength .enc v s).enc.ws = s.enc.ws := rfl
@[simp] theorem setLength_enc_enc_n (v : Nat) (s : State) : (setLength .enc v s).enc.n = s.enc.n := rfl
@[simp] theorem setLength_enc_enc_L (v : Nat) (s : State) : (setLength .enc v s).enc.L = s.enc.L := rfl
@[simp] theorem setLength_enc_enc_s (v : Nat) (s : State) : (setLength .enc v s).enc.s = s.enc.s := rfl
@[simp] theorem setLength_enc_enc_bo (v : Nat) (s : State) : (setLength .enc v s).enc.bo = s.enc.bo := rfl
@[simp] theorem setLength_enc_enc_bl (v : Nat) (s : State) : (setLength .enc v s).enc.bl = s.enc.bl := rfl
@[simp] theorem setLength_enc_enc_bs (v : Nat) (s : State) : (setLength .enc v s).enc.bs = s.enc.bs := rfl
@[simp] theorem setLength_enc_enc_mfP (v : Nat) (s : State) : (setLength .enc v s).enc.mfP = s.enc.mfP := rfl
@[simp] theorem setLength_enc_enc_mfC (v : Nat) (s : State) : (setLength .enc v s).enc.mfC = s.enc.mfC := rfl
@[simp] theorem setLength_enc_enc_mfHit (v : Nat) (s : State) : (setLength .enc v s).enc.mfHit = s.enc.mfHit := rfl
@[simp] theorem setLength_enc_enc_mfM (v : Nat) (s : State) : (setLength .enc v s).enc.mfM = s.enc.mfM := rfl
@[simp] theorem setLength_enc_enc_state (v : Nat) (s : State) : (setLength .enc v s).enc.state = s.enc.state := rfl
@[simp] theorem setLength_enc_enc_cause (v : Nat) (s : State) : (setLength .enc v s).enc.cause = s.enc.cause := rfl
@[simp] theorem setLength_enc_enc_past (v : Nat) (s : State) : (setLength .enc v s).enc.past = s.enc.past := rfl
@[simp] theorem setLength_dec_params (v : Nat) (s : State) : (setLength .dec v s).params = s.params := rfl
@[simp] theorem setLength_dec_enc (v : Nat) (s : State) : (setLength .dec v s).enc = s.enc := rfl
@[simp] theorem setLength_dec_pending (v : Nat) (s : State) : (setLength .dec v s).pending = s.pending := rfl
@[simp] theorem setLength_dec_schedule (v : Nat) (s : State) : (setLength .dec v s).schedule = s.schedule := rfl
@[simp] theorem setLength_dec_rdata (v : Nat) (s : State) : (setLength .dec v s).rdata = s.rdata := rfl
@[simp] theorem setLength_dec_freeCtr (v : Nat) (s : State) : (setLength .dec v s).freeCtr = s.freeCtr := rfl
@[simp] theorem setLength_dec_dec_wsel (v : Nat) (s : State) : (setLength .dec v s).dec.wsel = s.dec.wsel := rfl
@[simp] theorem setLength_dec_dec_cbuf (v : Nat) (s : State) : (setLength .dec v s).dec.cbuf = s.dec.cbuf := rfl
@[simp] theorem setLength_dec_dec_clen (v : Nat) (s : State) : (setLength .dec v s).dec.clen = v := rfl
@[simp] theorem setLength_dec_dec_obuf (v : Nat) (s : State) : (setLength .dec v s).dec.obuf = s.dec.obuf := rfl
@[simp] theorem setLength_dec_dec_k (v : Nat) (s : State) : (setLength .dec v s).dec.k = s.dec.k := rfl
@[simp] theorem setLength_dec_dec_pos (v : Nat) (s : State) : (setLength .dec v s).dec.pos = s.dec.pos := rfl
@[simp] theorem setLength_dec_dec_o (v : Nat) (s : State) : (setLength .dec v s).dec.o = s.dec.o := rfl
@[simp] theorem setLength_dec_dec_l (v : Nat) (s : State) : (setLength .dec v s).dec.l = s.dec.l := rfl
@[simp] theorem setLength_dec_dec_lit (v : Nat) (s : State) : (setLength .dec v s).dec.lit = s.dec.lit := rfl
@[simp] theorem setLength_dec_dec_cuI (v : Nat) (s : State) : (setLength .dec v s).dec.cuI = s.dec.cuI := rfl
@[simp] theorem setLength_dec_dec_state (v : Nat) (s : State) : (setLength .dec v s).dec.state = s.dec.state := rfl
@[simp] theorem setLength_dec_dec_cause (v : Nat) (s : State) : (setLength .dec v s).dec.cause = s.dec.cause := rfl
@[simp] theorem setLength_dec_dec_past (v : Nat) (s : State) : (setLength .dec v s).dec.past = s.dec.past := rfl

/-! The model's own fields, and reset. -/

@[simp] theorem giveHost_params (v : Nat) (s : State) : (giveHost v s).params = s.params := rfl
@[simp] theorem giveHost_enc (v : Nat) (s : State) : (giveHost v s).enc = s.enc := rfl
@[simp] theorem giveHost_dec (v : Nat) (s : State) : (giveHost v s).dec = s.dec := rfl
@[simp] theorem giveHost_pending (v : Nat) (s : State) : (giveHost v s).pending = s.pending := rfl
@[simp] theorem giveHost_schedule (v : Nat) (s : State) : (giveHost v s).schedule = s.schedule := rfl
@[simp] theorem giveHost_rdata (v : Nat) (s : State) : (giveHost v s).rdata = some v := rfl
@[simp] theorem giveHost_freeCtr (v : Nat) (s : State) : (giveHost v s).freeCtr = s.freeCtr := rfl
@[simp] theorem useFree_params (s : State) : (useFree s).params = s.params := rfl
@[simp] theorem useFree_enc (s : State) : (useFree s).enc = s.enc := rfl
@[simp] theorem useFree_dec (s : State) : (useFree s).dec = s.dec := rfl
@[simp] theorem useFree_pending (s : State) : (useFree s).pending = s.pending := rfl
@[simp] theorem useFree_schedule (s : State) : (useFree s).schedule = s.schedule := rfl
@[simp] theorem useFree_rdata (s : State) : (useFree s).rdata = s.rdata := rfl
@[simp] theorem useFree_freeCtr (s : State) : (useFree s).freeCtr = s.freeCtr + 1 := rfl
@[simp] theorem usedTurn_params (s : State) : (usedTurn s).params = s.params := rfl
@[simp] theorem usedTurn_enc (s : State) : (usedTurn s).enc = s.enc := rfl
@[simp] theorem usedTurn_dec (s : State) : (usedTurn s).dec = s.dec := rfl
@[simp] theorem usedTurn_pending (s : State) : (usedTurn s).pending = s.pending := rfl
@[simp] theorem usedTurn_schedule (s : State) : (usedTurn s).schedule = s.schedule.tail := rfl
@[simp] theorem usedTurn_rdata (s : State) : (usedTurn s).rdata = s.rdata := rfl
@[simp] theorem usedTurn_freeCtr (s : State) : (usedTurn s).freeCtr = s.freeCtr := rfl
@[simp] theorem resetUnits_params (s : State) : (resetUnits s).params = s.params := rfl
@[simp] theorem resetUnits_enc (s : State) : (resetUnits s).enc = Enc.reset := rfl
@[simp] theorem resetUnits_dec (s : State) : (resetUnits s).dec = Dec.reset := rfl
@[simp] theorem resetUnits_pending (s : State) : (resetUnits s).pending = s.pending := rfl
@[simp] theorem resetUnits_schedule (s : State) : (resetUnits s).schedule = s.schedule := rfl
@[simp] theorem resetUnits_rdata (s : State) : (resetUnits s).rdata = s.rdata := rfl
@[simp] theorem resetUnits_freeCtr (s : State) : (resetUnits s).freeCtr = s.freeCtr := rfl

/-! The registers of a step of `ENC` and of a step of `DEC`. -/

@[simp] theorem encWindow_wsel (w : Width) (e : Enc) : (encWindow w e).wsel = e.wsel := rfl
@[simp] theorem encWindow_ibuf (w : Width) (e : Enc) : (encWindow w e).ibuf = e.ibuf := rfl
@[simp] theorem encWindow_ilen (w : Width) (e : Enc) : (encWindow w e).ilen = e.ilen := rfl
@[simp] theorem encWindow_cbuf (w : Width) (e : Enc) : (encWindow w e).cbuf = e.cbuf := rfl
@[simp] theorem encWindow_clen (w : Width) (e : Enc) : (encWindow w e).clen = e.clen := rfl
@[simp] theorem encWindow_pos (w : Width) (e : Enc) : (encWindow w e).pos = e.pos := rfl
@[simp] theorem encWindow_ws (w : Width) (e : Enc) : (encWindow w e).ws = windowStart w e.pos := rfl
@[simp] theorem encWindow_n (w : Width) (e : Enc) : (encWindow w e).n = e.pos - windowStart w e.pos := rfl
@[simp] theorem encWindow_L (w : Width) (e : Enc) : (encWindow w e).L = e.ilen - e.pos := rfl
@[simp] theorem encWindow_s (w : Width) (e : Enc) : (encWindow w e).s = e.s := rfl
@[simp] theorem encWindow_bo (w : Width) (e : Enc) : (encWindow w e).bo = e.bo := rfl
@[simp] theorem encWindow_bl (w : Width) (e : Enc) : (encWindow w e).bl = e.bl := rfl
@[simp] theorem encWindow_bs (w : Width) (e : Enc) : (encWindow w e).bs = e.bs := rfl
@[simp] theorem encWindow_mfP (w : Width) (e : Enc) : (encWindow w e).mfP = e.mfP := rfl
@[simp] theorem encWindow_mfC (w : Width) (e : Enc) : (encWindow w e).mfC = e.mfC := rfl
@[simp] theorem encWindow_mfHit (w : Width) (e : Enc) : (encWindow w e).mfHit = e.mfHit := rfl
@[simp] theorem encWindow_mfM (w : Width) (e : Enc) : (encWindow w e).mfM = e.mfM := rfl
@[simp] theorem encWindow_state (w : Width) (e : Enc) : (encWindow w e).state = e.state := rfl
@[simp] theorem encWindow_cause (w : Width) (e : Enc) : (encWindow w e).cause = e.cause := rfl
@[simp] theorem encWindow_past (w : Width) (e : Enc) : (encWindow w e).past = e.past := rfl
@[simp] theorem findHit_wsel (c : Nat) (e : Enc) : (findHit c e).wsel = e.wsel := rfl
@[simp] theorem findHit_ibuf (c : Nat) (e : Enc) : (findHit c e).ibuf = e.ibuf := rfl
@[simp] theorem findHit_ilen (c : Nat) (e : Enc) : (findHit c e).ilen = e.ilen := rfl
@[simp] theorem findHit_cbuf (c : Nat) (e : Enc) : (findHit c e).cbuf = e.cbuf := rfl
@[simp] theorem findHit_clen (c : Nat) (e : Enc) : (findHit c e).clen = e.clen := rfl
@[simp] theorem findHit_pos (c : Nat) (e : Enc) : (findHit c e).pos = e.pos := rfl
@[simp] theorem findHit_ws (c : Nat) (e : Enc) : (findHit c e).ws = e.ws := rfl
@[simp] theorem findHit_n (c : Nat) (e : Enc) : (findHit c e).n = e.n := rfl
@[simp] theorem findHit_L (c : Nat) (e : Enc) : (findHit c e).L = e.L := rfl
@[simp] theorem findHit_s (c : Nat) (e : Enc) : (findHit c e).s = e.s := rfl
@[simp] theorem findHit_bo (c : Nat) (e : Enc) : (findHit c e).bo = e.bo := rfl
@[simp] theorem findHit_bl (c : Nat) (e : Enc) : (findHit c e).bl = e.bl := rfl
@[simp] theorem findHit_bs (c : Nat) (e : Enc) : (findHit c e).bs = e.bs := rfl
@[simp] theorem findHit_mfP (c : Nat) (e : Enc) : (findHit c e).mfP = e.mfP := rfl
@[simp] theorem findHit_mfC (c : Nat) (e : Enc) : (findHit c e).mfC = c := rfl
@[simp] theorem findHit_mfHit (c : Nat) (e : Enc) : (findHit c e).mfHit = true := rfl
@[simp] theorem findHit_mfM (c : Nat) (e : Enc) : (findHit c e).mfM = c := rfl
@[simp] theorem findHit_state (c : Nat) (e : Enc) : (findHit c e).state = e.state := rfl
@[simp] theorem findHit_cause (c : Nat) (e : Enc) : (findHit c e).cause = e.cause := rfl
@[simp] theorem findHit_past (c : Nat) (e : Enc) : (findHit c e).past = e.past := rfl
@[simp] theorem findMiss_wsel (c : Nat) (e : Enc) : (findMiss c e).wsel = e.wsel := rfl
@[simp] theorem findMiss_ibuf (c : Nat) (e : Enc) : (findMiss c e).ibuf = e.ibuf := rfl
@[simp] theorem findMiss_ilen (c : Nat) (e : Enc) : (findMiss c e).ilen = e.ilen := rfl
@[simp] theorem findMiss_cbuf (c : Nat) (e : Enc) : (findMiss c e).cbuf = e.cbuf := rfl
@[simp] theorem findMiss_clen (c : Nat) (e : Enc) : (findMiss c e).clen = e.clen := rfl
@[simp] theorem findMiss_pos (c : Nat) (e : Enc) : (findMiss c e).pos = e.pos := rfl
@[simp] theorem findMiss_ws (c : Nat) (e : Enc) : (findMiss c e).ws = e.ws := rfl
@[simp] theorem findMiss_n (c : Nat) (e : Enc) : (findMiss c e).n = e.n := rfl
@[simp] theorem findMiss_L (c : Nat) (e : Enc) : (findMiss c e).L = e.L := rfl
@[simp] theorem findMiss_s (c : Nat) (e : Enc) : (findMiss c e).s = e.s := rfl
@[simp] theorem findMiss_bo (c : Nat) (e : Enc) : (findMiss c e).bo = e.bo := rfl
@[simp] theorem findMiss_bl (c : Nat) (e : Enc) : (findMiss c e).bl = e.bl := rfl
@[simp] theorem findMiss_bs (c : Nat) (e : Enc) : (findMiss c e).bs = e.bs := rfl
@[simp] theorem findMiss_mfP (c : Nat) (e : Enc) : (findMiss c e).mfP = e.mfP := rfl
@[simp] theorem findMiss_mfC (c : Nat) (e : Enc) : (findMiss c e).mfC = c := rfl
@[simp] theorem findMiss_mfHit (c : Nat) (e : Enc) : (findMiss c e).mfHit = false := rfl
@[simp] theorem findMiss_mfM (c : Nat) (e : Enc) : (findMiss c e).mfM = e.mfM := rfl
@[simp] theorem findMiss_state (c : Nat) (e : Enc) : (findMiss c e).state = e.state := rfl
@[simp] theorem findMiss_cause (c : Nat) (e : Enc) : (findMiss c e).cause = e.cause := rfl
@[simp] theorem findMiss_past (c : Nat) (e : Enc) : (findMiss c e).past = e.past := rfl
@[simp] theorem decLoad_wsel (o l : Field) (lit : Symbol) (d : Dec) : (decLoad o l lit d).wsel = d.wsel := rfl
@[simp] theorem decLoad_cbuf (o l : Field) (lit : Symbol) (d : Dec) : (decLoad o l lit d).cbuf = d.cbuf := rfl
@[simp] theorem decLoad_clen (o l : Field) (lit : Symbol) (d : Dec) : (decLoad o l lit d).clen = d.clen := rfl
@[simp] theorem decLoad_obuf (o l : Field) (lit : Symbol) (d : Dec) : (decLoad o l lit d).obuf = d.obuf := rfl
@[simp] theorem decLoad_k (o l : Field) (lit : Symbol) (d : Dec) : (decLoad o l lit d).k = d.k := rfl
@[simp] theorem decLoad_pos (o l : Field) (lit : Symbol) (d : Dec) : (decLoad o l lit d).pos = d.pos := rfl
@[simp] theorem decLoad_o (o l : Field) (lit : Symbol) (d : Dec) : (decLoad o l lit d).o = o := rfl
@[simp] theorem decLoad_l (o l : Field) (lit : Symbol) (d : Dec) : (decLoad o l lit d).l = l := rfl
@[simp] theorem decLoad_lit (o l : Field) (lit : Symbol) (d : Dec) : (decLoad o l lit d).lit = lit := rfl
@[simp] theorem decLoad_cuI (o l : Field) (lit : Symbol) (d : Dec) : (decLoad o l lit d).cuI = d.cuI := rfl
@[simp] theorem decLoad_state (o l : Field) (lit : Symbol) (d : Dec) : (decLoad o l lit d).state = d.state := rfl
@[simp] theorem decLoad_cause (o l : Field) (lit : Symbol) (d : Dec) : (decLoad o l lit d).cause = d.cause := rfl
@[simp] theorem decLoad_past (o l : Field) (lit : Symbol) (d : Dec) : (decLoad o l lit d).past = d.past := rfl
@[simp] theorem decAppend_wsel (d : Dec) : (decAppend d).wsel = d.wsel := rfl
@[simp] theorem decAppend_cbuf (d : Dec) : (decAppend d).cbuf = d.cbuf := rfl
@[simp] theorem decAppend_clen (d : Dec) : (decAppend d).clen = d.clen := rfl
@[simp] theorem decAppend_obuf (d : Dec) : (decAppend d).obuf = Memory.write d.obuf (d.pos + d.l.toNat) d.lit := rfl
@[simp] theorem decAppend_k (d : Dec) : (decAppend d).k = d.k + 1 := rfl
@[simp] theorem decAppend_pos (d : Dec) : (decAppend d).pos = d.pos + d.l.toNat + 1 := rfl
@[simp] theorem decAppend_o (d : Dec) : (decAppend d).o = d.o := rfl
@[simp] theorem decAppend_l (d : Dec) : (decAppend d).l = d.l := rfl
@[simp] theorem decAppend_lit (d : Dec) : (decAppend d).lit = d.lit := rfl
@[simp] theorem decAppend_cuI (d : Dec) : (decAppend d).cuI = d.cuI := rfl
@[simp] theorem decAppend_state (d : Dec) : (decAppend d).state = d.state := rfl
@[simp] theorem decAppend_cause (d : Dec) : (decAppend d).cause = d.cause := rfl
@[simp] theorem decAppend_past (d : Dec) : (decAppend d).past = d.past := rfl

end Sys2Proof.Machine
end

