-- ==== Sys2Proof/Laws/Decoder.lean ====
section
/-! SUPPORT. What the copy unit and one decoder step can do, and one transition of the decoder's call. -/

namespace Sys2Proof.Machine

/-- The effect of a copy of `r` symbols from `src` to `dst`: every cell of the destination reads as its source cell reads
afterwards, so the copy sees its own writes; nothing else changes (42_decoder.md R125, 70_reset_and_hazards.md R186). -/
structure Copied (r src dst : Nat) (m m' : List Host.Cell) : Prop where
  written : ∀ i, i < r → ∃ v, Memory.read m' (dst + i) = some v
  fromSource : ∀ i, i < r → Memory.read m' (dst + i) = Memory.read m' (src + i)
  elsewhere : ∀ a, a < dst ∨ dst + r ≤ a → Memory.read m' a = Memory.read m a
  form : Memory.wf m = true → Memory.wf m' = true

theorem Copied.refl (src dst : Nat) (m : List Host.Cell) : Copied 0 src dst m m :=
  ⟨fun i hi => absurd hi (by omega), fun i hi => absurd hi (by omega), fun _ _ => rfl, id⟩

theorem copyFrom_spec {r : Nat} : ∀ {src dst : Nat} {m m' : List Host.Cell}, src < dst →
    copyFrom r src dst m = .next m' → Copied r src dst m m' := by
  induction r with
  | zero =>
    intro src dst m m' _ h
    simp only [copyFrom, Host.Outcome.next.injEq] at h
    subst h
    exact Copied.refl src dst m
  | succ r ih =>
    intro src dst m m' hlt h
    simp only [copyFrom, andThen_eq_next, memRead_eq_next] at h
    obtain ⟨v, hv, h⟩ := h
    have hc := ih (by omega) h
    have hdst : Memory.read m' dst = some v := by
      rw [hc.elsewhere dst (Or.inl (by omega)), Memory.read_write_same]
    have hsrc : Memory.read m' src = some v := by
      rw [hc.elsewhere src (Or.inl (by omega)), Memory.read_write_ne _ _ (by omega), hv]
    refine ⟨?_, ?_, ?_, fun hm => hc.form (Memory.wf_write _ _ hm)⟩
    · intro i hi
      cases i with
      | zero => exact ⟨v, hdst⟩
      | succ i =>
        have := hc.written i (by omega)
        simpa only [Nat.add_assoc, Nat.add_comm 1] using this
    · intro i hi
      cases i with
      | zero => simp only [Nat.add_zero]; rw [hdst, hsrc]
      | succ i =>
        have := hc.fromSource i (by omega)
        simpa only [Nat.add_assoc, Nat.add_comm 1] using this
    · intro a ha
      rw [hc.elsewhere a (by omega), Memory.read_write_ne _ _ (by omega)]

/-- The copy answers when the cells from its source up to its destination are written. -/
theorem copyFrom_answers {r : Nat} : ∀ {src dst : Nat} {m : List Host.Cell}, src < dst →
    (∀ a, src ≤ a → a < dst → ∃ v, Memory.read m a = some v) → ∃ m', copyFrom r src dst m = .next m' := by
  induction r with
  | zero => intro src dst m _ _; exact ⟨m, rfl⟩
  | succ r ih =>
    intro src dst m hlt hw
    obtain ⟨v, hv⟩ := hw src (le_refl _) hlt
    simp only [copyFrom, memRead_of_read _ hv, andThen_next]
    refine ih (by omega) ?_
    intro a h1 h2
    rw [Memory.read_write]
    split
    · exact ⟨v, rfl⟩
    · exact hw a (by omega) (by omega)

/-- The copied cells repeat the symbols before the destination, with the distance as their period (42_decoder.md R134). -/
theorem Copied.periodic {r src dst : Nat} {m m' : List Host.Cell} (h : Copied r src dst m m') (hlt : src < dst) :
    ∀ i, i < r → Memory.read m' (dst + i) = Memory.read m (src + i % (dst - src)) := by
  intro i
  induction i using Nat.strongRecOn with
  | ind i ih =>
    intro hi
    rw [h.fromSource i hi]
    rcases Nat.lt_or_ge i (dst - src) with hio | hio
    · rw [Nat.mod_eq_of_lt hio, h.elsewhere _ (Or.inl (by omega))]
    · have hidx : src + i = dst + (i - (dst - src)) := by omega
      rw [hidx, ih (i - (dst - src)) (by omega) (by omega), ← Nat.mod_eq_sub_mod hio]

/-- What one code does when it is admitted (42_decoder.md R122): the copy, the literal after it, and the cursors. -/
structure CodeRuns (o l : Field) (lit : Symbol) (s t : State) (m : List Host.Cell) : Prop where
  inStream : o.toNat ≤ s.dec.pos
  nonzero : 0 < l.toNat → 0 < o.toNat
  fits : OutputFits s.params (s.dec.pos + l.toNat + 1)
  copied : Copied l.toNat (s.dec.pos - o.toNat) s.dec.pos s.dec.obuf m
  result : t = { s with dec := { s.dec with
    o := o
    l := l
    lit := lit
    cuI := if 0 < l.toNat then l.toNat else s.dec.cuI
    obuf := Memory.write m (s.dec.pos + l.toNat) lit
    pos := s.dec.pos + l.toNat + 1
    k := s.dec.k + 1 } }

theorem offsetInvalid_eq_false {pos o l : Nat} :
    offsetInvalid pos o l = false ↔ o ≤ pos ∧ (0 < l → 0 < o) := by
  simp only [offsetInvalid, Bool.or_eq_false_iff, decide_eq_false_iff_not, Bool.and_eq_false_iff]
  omega

theorem offsetInvalid_eq_true {pos o l : Nat} :
    offsetInvalid pos o l = true ↔ pos < o ∨ (0 < l ∧ o = 0) := by
  simp only [offsetInvalid, Bool.or_eq_true, decide_eq_true_eq, Bool.and_eq_true]

/-- A code that is not admitted raises `InvalidOffset` and changes only working registers (42_decoder.md R123, R124). -/
theorem decCode_raises {o l : Field} {lit : Symbol} {s : State}
    (h : s.dec.pos < o.toNat ∨ (0 < l.toNat ∧ o.toNat = 0)) :
    decCode o l lit s = .next (raise .dec .invalidOffset { s with dec := decLoad o l lit s.dec }) := by
  unfold decCode
  rw [if_pos (offsetInvalid_eq_true.mpr h)]

/-- One code either raises `InvalidOffset` or runs. -/
theorem decCode_cases {o l : Field} {lit : Symbol} {s t : State} (h : decCode o l lit s = .next t) :
    ((s.dec.pos < o.toNat ∨ (0 < l.toNat ∧ o.toNat = 0)) ∧
      t = raise .dec .invalidOffset { s with dec := decLoad o l lit s.dec }) ∨
    ∃ m, CodeRuns o l lit s t m := by
  unfold decCode at h
  split at h
  · rename_i hinv
    simp only [Host.Outcome.next.injEq] at h
    exact Or.inl ⟨offsetInvalid_eq_true.mp hinv, h.symm⟩
  · rename_i hval
    obtain ⟨hin, hnz⟩ := offsetInvalid_eq_false.mp (Bool.eq_false_iff.mpr hval)
    split at h
    · rename_i hfit
      simp only [Bool.and_eq_true] at hfit
      simp only [andThen_eq_next] at h
      obtain ⟨d, hd, h⟩ := h
      simp only [Host.Outcome.next.injEq] at h
      unfold decCopy at hd
      split at hd
      · rename_i hl
        simp only [decLoad_l] at hl
        simp only [cuCopy, andThen_eq_next, decLoad_pos, decLoad_o, decLoad_l, decLoad_obuf, copySource, Nat.add_zero,
          Host.Outcome.next.injEq] at hd
        obtain ⟨m, hm, rfl⟩ := hd
        have := hnz hl
        refine Or.inr ⟨m, hin, hnz, hfit, copyFrom_spec (by omega) hm, ?_⟩
        rw [← h, if_pos hl]
        rfl
      · rename_i hl
        simp only [decLoad_l] at hl
        simp only [Host.Outcome.next.injEq] at hd
        subst hd
        refine Or.inr ⟨s.dec.obuf, hin, hnz, hfit, ?_, ?_⟩
        · rw [Nat.eq_zero_of_not_pos hl]
          exact Copied.refl _ _ _
        · rw [← h, if_neg hl]
          rfl
    · simp at h

/-- An admitted code completes when the decoded symbols it may refer to are written and the output has room. -/
theorem decCode_answers {o l : Field} {lit : Symbol} {s : State} (hin : o.toNat ≤ s.dec.pos)
    (hnz : 0 < l.toNat → 0 < o.toNat) (hfit : OutputFits s.params (s.dec.pos + l.toNat + 1))
    (hw : ∀ a, s.dec.pos - o.toNat ≤ a → a < s.dec.pos → ∃ v, Memory.read s.dec.obuf a = some v) :
    ∃ t m, decCode o l lit s = .next t ∧ CodeRuns o l lit s t m := by
  have hval := offsetInvalid_eq_false.mpr ⟨hin, hnz⟩
  have hfit' := Bool.and_eq_true_iff.mpr hfit
  have hcopy : ∃ d, decCopy (decLoad o l lit s.dec) = .next d := by
    unfold decCopy
    split
    · rename_i hl
      simp only [decLoad_l] at hl
      have := hnz hl
      obtain ⟨m, hm⟩ := copyFrom_answers (r := l.toNat) (src := s.dec.pos - o.toNat) (dst := s.dec.pos)
        (m := s.dec.obuf) (by omega) hw
      simp only [cuCopy, decLoad_pos, decLoad_o, decLoad_l, decLoad_obuf, copySource, Nat.add_zero, hm, andThen_next,
        Host.Outcome.next.injEq, exists_eq']
    · exact ⟨_, rfl⟩
  obtain ⟨d, hd⟩ := hcopy
  have h : decCode o l lit s = .next { s with dec := decAppend d } := by
    simp only [decCode, hval, Bool.false_eq_true, if_false, hfit', if_true, hd, andThen_next]
  rcases decCode_cases h with ⟨hbad, -⟩ | ⟨m, hm⟩
  · omega
  · exact ⟨_, m, h, hm⟩

end Sys2Proof.Machine
end

