-- ==== Sys2Proof/Laws/Finder.lean ====
section
/-! SUPPORT. What the match finder can answer: the segment comparison, the scan over the candidates, and `MF.FIND`. -/

namespace Sys2Proof.Machine

/-- The segment comparison answers whether the two segments read the same. -/
theorem segEq_spec {m : List Host.Cell} {p : Nat} : ∀ {a b : Nat} {r : Bool}, segEq m a b p = .next r →
    (r = true ↔ ∀ j, j < p → Memory.read m (a + j) = Memory.read m (b + j)) := by
  induction p with
  | zero =>
    intro a b r h
    simp only [segEq, Host.Outcome.next.injEq] at h
    simp [← h]
  | succ p ih =>
    intro a b r h
    simp only [segEq, andThen_eq_next, memRead_eq_next] at h
    obtain ⟨x, hx, y, hy, h⟩ := h
    split at h
    · rename_i hxy
      rw [ih h]
      constructor
      · intro hall j hj
        cases j with
        | zero => simp [hx, hy, hxy]
        | succ j => have := hall j (by omega); simpa only [Nat.add_assoc, Nat.add_comm 1] using this
      · intro hall j hj
        have := hall (j + 1) (by omega)
        simpa only [Nat.add_assoc, Nat.add_comm 1] using this
    · rename_i hxy
      simp only [Host.Outcome.next.injEq] at h
      subst h
      simp only [Bool.false_eq_true, false_iff]
      intro hall
      have := hall 0 (by omega)
      simp only [Nat.add_zero, hx, hy, Option.some.injEq] at this
      exact hxy this

/-- The segment comparison answers when both segments are written. -/
theorem segEq_answers {m : List Host.Cell} {p : Nat} : ∀ {a b : Nat},
    (∀ j, j < p → ∃ v, Memory.read m (a + j) = some v) → (∀ j, j < p → ∃ v, Memory.read m (b + j) = some v) →
    ∃ r, segEq m a b p = .next r := by
  induction p with
  | zero => intro a b _ _; exact ⟨true, rfl⟩
  | succ p ih =>
    intro a b ha hb
    obtain ⟨x, hx⟩ := ha 0 (by omega)
    obtain ⟨y, hy⟩ := hb 0 (by omega)
    simp only [Nat.add_zero] at hx hy
    simp only [segEq, memRead_of_read _ hx, memRead_of_read _ hy, andThen_next]
    split
    · refine ih (fun j hj => ?_) (fun j hj => ?_)
      · have := ha (j + 1) (by omega); simpa only [Nat.add_assoc, Nat.add_comm 1] using this
      · have := hb (j + 1) (by omega); simpa only [Nat.add_assoc, Nat.add_comm 1] using this
    · exact ⟨false, rfl⟩

/-- The pattern of `p` symbols reads the same at window index `i`. -/
def SegmentAt (e : Enc) (p i : Nat) : Prop :=
  ∀ j, j < p → Memory.read e.ibuf (e.ws + i + j) = Memory.read e.ibuf (e.pos + j)

/-- The scan stops at the largest candidate that matches, or uses up all the candidates. -/
theorem findFrom_spec {p c : Nat} {e f : Enc} (h : findFrom p c e = .next f) :
    (∃ m, m ≤ c ∧ f = findHit m e ∧ SegmentAt e p m ∧ ∀ i, m < i → i ≤ c → ¬ SegmentAt e p i) ∨
    (f = findMiss 0 e ∧ ∀ i, i ≤ c → ¬ SegmentAt e p i) := by
  induction c with
  | zero =>
    simp only [findFrom, andThen_eq_next] at h
    obtain ⟨r, hr, h⟩ := h
    have hs := segEq_spec hr
    split at h
    · rename_i hb
      simp only [Host.Outcome.next.injEq] at h
      exact Or.inl ⟨0, by omega, h.symm, hs.mp hb, by intro i h1 h2; omega⟩
    · rename_i hb
      simp only [Host.Outcome.next.injEq] at h
      refine Or.inr ⟨h.symm, ?_⟩
      intro i hi hseg
      obtain rfl : i = 0 := by omega
      exact hb (hs.mpr hseg)
  | succ c ih =>
    simp only [findFrom, andThen_eq_next] at h
    obtain ⟨r, hr, h⟩ := h
    have hs := segEq_spec hr
    split at h
    · rename_i hb
      simp only [Host.Outcome.next.injEq] at h
      exact Or.inl ⟨c + 1, by omega, h.symm, hs.mp hb, by intro i h1 h2; omega⟩
    · rename_i hb
      have hno : ¬ SegmentAt e p (c + 1) := fun hseg => hb (hs.mpr hseg)
      rcases ih h with ⟨m, hm, hf, hseg, hmax⟩ | ⟨hf, hmax⟩
      · refine Or.inl ⟨m, by omega, hf, hseg, ?_⟩
        intro i h1 h2
        rcases Nat.lt_or_ge i (c + 1) with h3 | h3
        · exact hmax i h1 (by omega)
        · obtain rfl : i = c + 1 := by omega
          exact hno
      · refine Or.inr ⟨hf, ?_⟩
        intro i h2
        rcases Nat.lt_or_ge i (c + 1) with h3 | h3
        · exact hmax i (by omega)
        · obtain rfl : i = c + 1 := by omega
          exact hno

/-- The scan answers when the window's candidates and the pattern are written. -/
theorem findFrom_answers {p c : Nat} {e : Enc}
    (hw : ∀ a, a < e.ws + c + p → ∃ v, Memory.read e.ibuf a = some v)
    (hp : ∀ j, j < p → ∃ v, Memory.read e.ibuf (e.pos + j) = some v) : ∃ f, findFrom p c e = .next f := by
  induction c with
  | zero =>
    obtain ⟨r, hr⟩ := segEq_answers (a := e.ws + 0) (b := e.pos) (fun j hj => hw _ (by omega)) hp
    simp only [findFrom, hr, andThen_next]
    split <;> exact ⟨_, rfl⟩
  | succ c ih =>
    obtain ⟨r, hr⟩ := segEq_answers (a := e.ws + (c + 1)) (b := e.pos) (fun j hj => hw _ (by omega)) hp
    simp only [findFrom, hr, andThen_next]
    split
    · exact ⟨_, rfl⟩
    · exact ih (fun a ha => hw a (by omega))

/-- What `MF.FIND` can change: the finder's own registers (40_match_finder.md R97). -/
structure FinderOnly (e f : Enc) : Prop where
  wsel : f.wsel = e.wsel
  ibuf : f.ibuf = e.ibuf
  ilen : f.ilen = e.ilen
  cbuf : f.cbuf = e.cbuf
  clen : f.clen = e.clen
  pos : f.pos = e.pos
  ws : f.ws = e.ws
  n : f.n = e.n
  L : f.L = e.L
  s : f.s = e.s
  bo : f.bo = e.bo
  bl : f.bl = e.bl
  bs : f.bs = e.bs
  state : f.state = e.state
  cause : f.cause = e.cause
  past : f.past = e.past

theorem FinderOnly.occursAt {e f : Enc} (h : FinderOnly e f) (p i : Nat) : OccursAt f p i ↔ OccursAt e p i := by
  unfold OccursAt
  rw [h.n, h.ibuf, h.ws, h.pos]

/-- `MF.FIND` answers the rightmost occurrence, or that there is none (40_match_finder.md R91, R92, R93). -/
theorem mfFind_spec {p : Nat} {e f : Enc} (h : mfFind p e = .next f) :
    0 < p ∧ FinderOnly e f ∧ f.mfP = p ∧
    ((f.mfHit = true ∧ RightmostAt e p f.mfM) ∨ (f.mfHit = false ∧ f.mfM = e.mfM ∧ ∀ i, ¬ OccursAt e p i)) := by
  unfold mfFind at h
  split at h
  · simp at h
  · rename_i hp
    refine ⟨by omega, ?_⟩
    split at h
    · rename_i hn
      simp only [Host.Outcome.next.injEq] at h
      subst h
      refine ⟨by constructor <;> rfl, rfl, Or.inr ⟨rfl, rfl, ?_⟩⟩
      rintro i ⟨hi, -⟩
      omega
    · rename_i hn
      rcases findFrom_spec h with ⟨m, hm, rfl, hseg, hmax⟩ | ⟨rfl, hmax⟩
      · refine ⟨by constructor <;> rfl, rfl, Or.inl ⟨rfl, ⟨?_, hseg⟩, ?_⟩⟩
        · simp only [findHit_mfM]
          omega
        · rintro j ⟨hj, hjs⟩
          simp only [findHit_mfM]
          by_contra hlt
          exact hmax j (by omega) (by omega) hjs
      · refine ⟨by constructor <;> rfl, rfl, Or.inr ⟨rfl, rfl, ?_⟩⟩
        rintro i ⟨hi, his⟩
        exact hmax i (by omega) his

/-- `MF.FIND` answers when the window and the pattern are written. -/
theorem mfFind_answers {p : Nat} {e : Enc} (hp : 0 < p) (hwin : e.ws + e.n = e.pos)
    (hr : WrittenBelow e.ibuf (e.pos + p)) : ∃ f, mfFind p e = .next f := by
  unfold mfFind
  rw [if_neg (by omega)]
  split
  · exact ⟨_, rfl⟩
  · rename_i hn
    exact findFrom_answers (e := { e with mfP := p }) (fun a ha => hr a (by simp at ha; omega))
      (fun j hj => hr _ (by simp; omega))

end Sys2Proof.Machine
end

