-- ==== Sys2Proof/Laws/Encoder.lean ====
section
/-! SUPPORT. What the encoder's step can do: the search, the emission, the whole step, and one transition of its call. -/

namespace Sys2Proof.Machine

@[simp] theorem uncapped_enc (s : State) : (uncapped s).enc = s.enc := rfl
@[simp] theorem uncapped_dec (s : State) : (uncapped s).dec = s.dec := rfl
@[simp] theorem uncapped_params (s : State) : (uncapped s).params = { s.params with ccapE := none } := rfl
@[simp] theorem uncapped_pending (s : State) : (uncapped s).pending = s.pending := rfl
@[simp] theorem uncapped_schedule (s : State) : (uncapped s).schedule = s.schedule := rfl
@[simp] theorem uncapped_rdata (s : State) : (uncapped s).rdata = s.rdata := rfl
@[simp] theorem uncapped_freeCtr (s : State) : (uncapped s).freeCtr = s.freeCtr := rfl

/-- What the search of a step can change: the working registers and the finder's (10_state.md R25, R26). -/
structure SearchOnly (e f : Enc) : Prop where
  wsel : f.wsel = e.wsel
  ibuf : f.ibuf = e.ibuf
  ilen : f.ilen = e.ilen
  cbuf : f.cbuf = e.cbuf
  clen : f.clen = e.clen
  pos : f.pos = e.pos
  ws : f.ws = e.ws
  n : f.n = e.n
  L : f.L = e.L
  state : f.state = e.state
  cause : f.cause = e.cause
  past : f.past = e.past

theorem SearchOnly.refl (e : Enc) : SearchOnly e e := by constructor <;> rfl

theorem SearchOnly.trans {a b c : Enc} (h : SearchOnly a b) (h' : SearchOnly b c) : SearchOnly a c where
  wsel := h'.wsel.trans h.wsel
  ibuf := h'.ibuf.trans h.ibuf
  ilen := h'.ilen.trans h.ilen
  cbuf := h'.cbuf.trans h.cbuf
  clen := h'.clen.trans h.clen
  pos := h'.pos.trans h.pos
  ws := h'.ws.trans h.ws
  n := h'.n.trans h.n
  L := h'.L.trans h.L
  state := h'.state.trans h.state
  cause := h'.cause.trans h.cause
  past := h'.past.trans h.past

theorem FinderOnly.searchOnly {e f : Enc} (h : FinderOnly e f) : SearchOnly e f :=
  ⟨h.wsel, h.ibuf, h.ilen, h.cbuf, h.clen, h.pos, h.ws, h.n, h.L, h.state, h.cause, h.past⟩

theorem SearchOnly.occursAt {e f : Enc} (h : SearchOnly e f) (p i : Nat) : OccursAt f p i ↔ OccursAt e p i := by
  unfold OccursAt
  rw [h.n, h.ibuf, h.ws, h.pos]

theorem SearchOnly.rightmostAt {e f : Enc} (h : SearchOnly e f) (p i : Nat) :
    RightmostAt f p i ↔ RightmostAt e p i := by
  unfold RightmostAt
  simp only [h.occursAt]

/-- The code registers hold the code for a match of length `l` at its rightmost occurrence, or the trivial code for `l = 0`
(41_encoder.md R104, R107). -/
structure CodeFor (e : Enc) (l : Nat) : Prop where
  length : e.bl.toNat = l
  zero : l = 0 → e.bo.toNat = 0
  found : 0 < l → ∃ m, RightmostAt e l m ∧ e.bo.toNat = e.n - m
  literal : Memory.read e.ibuf (e.pos + l) = some e.bs

theorem wmax_lt (w : Width) : wmax w < 2 ^ 32 := by cases w <;> decide

/-- A shorter prefix of a pattern occurs where the pattern does (41_encoder.md R106). -/
theorem OccursAt.shorter {e : Enc} {p q i : Nat} (h : OccursAt e p i) (hq : q ≤ p) : OccursAt e q i :=
  ⟨by have := h.1; omega, fun j hj => h.2 j (by omega)⟩

/-- The code update of a match (41_encoder.md R107). -/
theorem encGrow_spec {s : Nat} {e g : Enc} (h : encGrow s e = .next g) : SearchOnly e g ∧ g.s = e.s ∧
    g.bo = BitVec.ofNat 32 (e.n - e.mfM) ∧ g.bl = BitVec.ofNat 32 s ∧ Memory.read e.ibuf (e.pos + s) = some g.bs := by
  simp only [encGrow, andThen_eq_next, memRead_eq_next, Host.Outcome.next.injEq] at h
  obtain ⟨x, hx, rfl⟩ := h
  exact ⟨by constructor <;> rfl, rfl, rfl, rfl, hx⟩

/-- The search ends with the code of the longest prefix found, each at its rightmost occurrence, and the width check never
fires (41_encoder.md R105 to R108). -/
theorem encSearch_spec {w : Width} : ∀ {r l : Nat} {e f : Enc} {b : Bool}, e.n ≤ wmax w → l ≤ e.n → CodeFor e l →
    encSearch w r (l + 1) e = .next (b, f) →
    b = false ∧ SearchOnly e f ∧ ∃ k, l ≤ k ∧ k ≤ l + r ∧ k ≤ e.n ∧ CodeFor f k ∧
      (k < l + r → ∀ i, ¬ OccursAt e (k + 1) i) := by
  intro r
  induction r with
  | zero =>
    intro l e f b hn hl hc h
    simp only [encSearch, Host.Outcome.next.injEq, Prod.mk.injEq] at h
    obtain ⟨rfl, rfl⟩ := h
    exact ⟨rfl, SearchOnly.refl _, l, le_refl _, le_refl _, hl, hc, fun hk => absurd hk (by omega)⟩
  | succ r ih =>
    intro l e f b hn hl hc h
    simp only [encSearch, andThen_eq_next] at h
    obtain ⟨f1, hf1, h⟩ := h
    obtain ⟨-, hfo, -, hfind⟩ := mfFind_spec hf1
    have hes : SearchOnly e { e with s := l + 1 } := by constructor <;> rfl
    have hso : SearchOnly e f1 := hes.trans hfo.searchOnly
    rcases hfind with ⟨hhit, hright⟩ | ⟨hhit, -, hno⟩
    · rw [if_pos hhit] at h
      have hright' : RightmostAt e (l + 1) f1.mfM := hright
      have hocc := hright'.1.1
      have hwidth : widthOverflows w (f1.n - f1.mfM) (l + 1) = false := by
        simp only [widthOverflows, hso.n, Bool.or_eq_false_iff, decide_eq_false_iff_not]
        omega
      rw [hwidth] at h
      simp only [Bool.false_eq_true, if_false, andThen_eq_next] at h
      obtain ⟨g, hg, h⟩ := h
      obtain ⟨hgo, -, hbo, hbl, hbs⟩ := encGrow_spec hg
      have heg := hso.trans hgo
      have hlt := wmax_lt w
      have hcg : CodeFor g (l + 1) := by
        refine ⟨?_, by omega, fun _ => ⟨f1.mfM, (heg.rightmostAt _ _).mpr hright', ?_⟩, ?_⟩
        · rw [hbl, BitVec.toNat_ofNat, Nat.mod_eq_of_lt (by omega)]
        · rw [hbo, BitVec.toNat_ofNat, Nat.mod_eq_of_lt (by rw [hso.n]; omega), hso.n, heg.n]
        · rw [hgo.ibuf, hgo.pos]
          exact hbs
      obtain ⟨hb, hgf, k, hk1, hk2, hk3, hck, hk4⟩ := ih (by rw [heg.n]; exact hn) (by rw [heg.n]; omega) hcg h
      refine ⟨hb, heg.trans hgf, k, by omega, by omega, by rw [heg.n] at hk3; exact hk3, hck, ?_⟩
      intro hk i hi
      exact hk4 (by omega) i ((heg.occursAt _ _).mpr hi)
    · rw [if_neg (by simp [hhit])] at h
      simp only [Host.Outcome.next.injEq, Prod.mk.injEq] at h
      obtain ⟨rfl, rfl⟩ := h
      refine ⟨rfl, hso, l, le_refl _, by omega, hl, ⟨?_, ?_, ?_, ?_⟩, fun _ => hno⟩
      · rw [hfo.bl]; exact hc.length
      · rw [hfo.bo]; exact hc.zero
      · intro h0
        obtain ⟨m, hm, hbo⟩ := hc.found h0
        refine ⟨m, (hso.rightmostAt _ _).mpr hm, ?_⟩
        rw [hfo.bo, hso.n]
        exact hbo
      · rw [hfo.bs, hso.ibuf, hso.pos]
        exact hc.literal

/-- The search answers when the whole lookahead is written. -/
theorem encSearch_answers {w : Width} : ∀ {r l : Nat} {e : Enc}, e.ws + e.n = e.pos →
    WrittenBelow e.ibuf (e.pos + l + 1 + r) → ∃ b f, encSearch w r (l + 1) e = .next (b, f) := by
  intro r
  induction r with
  | zero => intro l e _ _; exact ⟨false, e, rfl⟩
  | succ r ih =>
    intro l e hwin hr
    have hes : SearchOnly e { e with s := l + 1 } := by constructor <;> rfl
    obtain ⟨f, hf⟩ := mfFind_answers (p := l + 1) (e := { e with s := l + 1 }) (by omega) hwin
      (fun i hi => hr i (by simp at hi; omega))
    have hso : SearchOnly e f := hes.trans (mfFind_spec hf).2.1.searchOnly
    simp only [encSearch, hf, andThen_next]
    split
    · split
      · exact ⟨true, f, rfl⟩
      · obtain ⟨x, hx⟩ := hr (e.pos + (l + 1)) (by omega)
        have hg : ∃ g, encGrow (l + 1) f = .next g := by
          simp only [encGrow, hso.ibuf, hso.pos, memRead_of_read _ hx, andThen_next, Host.Outcome.next.injEq, exists_eq']
        obtain ⟨g, hg⟩ := hg
        have heg := hso.trans (encGrow_spec hg).1
        simp only [hg, andThen_next]
        exact ih (by rw [heg.ws, heg.n, heg.pos]; exact hwin)
          (by rw [heg.ibuf, heg.pos]; exact fun i hi => hr i (by omega))
    · exact ⟨false, f, rfl⟩

/-- The window of a step ends at the cursor and is bounded by the width (41_encoder.md R102). -/
theorem window_bounds (w : Width) (pos : Nat) :
    windowStart w pos + (pos - windowStart w pos) = pos ∧ pos - windowStart w pos ≤ wmax w := by
  unfold windowStart
  split <;> omega

/-- The trivial code of a step (41_encoder.md R104). -/
theorem encTrivial_spec {e f : Enc} (h : encTrivial e = .next f) : SearchOnly e f ∧ f.s = e.s ∧ CodeFor f 0 := by
  simp only [encTrivial, andThen_eq_next, memRead_eq_next, Host.Outcome.next.injEq] at h
  obtain ⟨x, hx, rfl⟩ := h
  exact ⟨by constructor <;> rfl, rfl, ⟨rfl, fun _ => rfl, fun h => absurd h (by omega), hx⟩⟩

/-- The emission of a step (41_encoder.md R110). -/
theorem encEmit_spec {s t : State} (h : encEmit s = .next t) :
    EmitFits s.params (s.enc.clen + 1) (s.enc.pos + s.enc.bl.toNat + 1) ∧
    t = { s with enc := { s.enc with
      cbuf := writeCode s.enc.cbuf s.enc.clen s.enc.bo s.enc.bl s.enc.bs
      clen := s.enc.clen + 1
      pos := s.enc.pos + s.enc.bl.toNat + 1 } } := by
  unfold encEmit at h
  split at h
  · rename_i hfit
    simp only [Bool.and_eq_true] at hfit
    simp only [Host.Outcome.next.injEq] at h
    exact ⟨hfit, h.symm⟩
  · simp at h

/-- Everything one `ENC.STEP` does when it answers a next state: it never raises; the code registers hold the code of the
longest prefix found; the code is emitted and the cursor advanced; all else stays (41_encoder.md R111). -/
structure StepEmits (w : Width) (s t : State) (f : Enc) (l : Nat) : Prop where
  search : SearchOnly (encWindow w s.enc) f
  code : CodeFor f l
  inRange : l ≤ s.enc.ilen - s.enc.pos - 1
  inWindow : l ≤ s.enc.pos - windowStart w s.enc.pos
  longest : l < s.enc.ilen - s.enc.pos - 1 → ∀ i, ¬ OccursAt (encWindow w s.enc) (l + 1) i
  fits : EmitFits s.params (s.enc.clen + 1) (s.enc.pos + l + 1)
  result : t = { s with enc := { f with
    cbuf := writeCode s.enc.cbuf s.enc.clen f.bo f.bl f.bs
    clen := s.enc.clen + 1
    pos := s.enc.pos + l + 1 } }

theorem encStep_spec {w : Width} {s t : State} (h : encStep w s = .next t) : ∃ f l, StepEmits w s t f l := by
  simp only [encStep, andThen_eq_next] at h
  obtain ⟨e, he, ⟨b, f⟩, hf, h⟩ := h
  obtain ⟨hwe, -, hc0⟩ := encTrivial_spec he
  have hwin := window_bounds w s.enc.pos
  obtain ⟨rfl, hef, k, -, hk2, hk3, hck, hk4⟩ := encSearch_spec (w := w) (l := 0)
    (by rw [hwe.n]; exact hwin.2) (by omega) hc0 hf
  have hwf := hwe.trans hef
  simp only [Bool.false_eq_true, if_false] at h
  obtain ⟨hfit, ht⟩ := encEmit_spec h
  have hL : e.L = s.enc.ilen - s.enc.pos := hwe.L
  have hn : e.n = s.enc.pos - windowStart w s.enc.pos := hwe.n
  have hpos : f.pos = s.enc.pos := hwf.pos
  have hclen : f.clen = s.enc.clen := hwf.clen
  have hcbuf : f.cbuf = s.enc.cbuf := hwf.cbuf
  rw [hL] at hk2 hk4
  refine ⟨f, k, hwf, hck, by omega, by omega, ?_, ?_, ?_⟩
  · intro hlt i hi
    exact hk4 (by omega) i ((hwe.occursAt _ _).mpr hi)
  · simpa only [hpos, hclen, hck.length] using hfit
  · rw [ht]
    simp only [hpos, hclen, hcbuf, hck.length]

/-- `ENC.STEP` completes when the input is written and there is room for one more code (41_encoder.md R111). -/
theorem encStep_answers {w : Width} {s : State} (hpos : s.enc.pos < s.enc.ilen)
    (hin : WrittenBelow s.enc.ibuf s.enc.ilen)
    (hfit : ∀ l, l ≤ s.enc.ilen - s.enc.pos - 1 → EmitFits s.params (s.enc.clen + 1) (s.enc.pos + l + 1)) :
    ∃ t, encStep w s = .next t := by
  obtain ⟨x, hx⟩ := hin s.enc.pos hpos
  have he : ∃ e, encTrivial (encWindow w s.enc) = .next e := by
    simp only [encTrivial, encWindow_ibuf, encWindow_pos, memRead_of_read _ hx, andThen_next, Host.Outcome.next.injEq,
      exists_eq']
  obtain ⟨e, he⟩ := he
  obtain ⟨hwe, -, hc0⟩ := encTrivial_spec he
  have hwin := window_bounds w s.enc.pos
  have hL : e.L = s.enc.ilen - s.enc.pos := hwe.L
  have hp : e.pos = s.enc.pos := hwe.pos
  have hib : e.ibuf = s.enc.ibuf := hwe.ibuf
  obtain ⟨b, f, hf⟩ := encSearch_answers (w := w) (r := e.L - 1) (l := 0) (e := e)
    (by rw [hwe.ws, hwe.n, hwe.pos]; exact hwin.1) (fun i hi => by rw [hib]; exact hin i (by omega))
  obtain ⟨rfl, hef, k, -, hk2, -, hck, -⟩ := encSearch_spec (w := w) (l := 0)
    (by rw [hwe.n]; exact hwin.2) (by omega) hc0 hf
  have hwf := hwe.trans hef
  have hpos' : f.pos = s.enc.pos := hwf.pos
  have hclen : f.clen = s.enc.clen := hwf.clen
  have hroom := hfit k (by omega)
  have hroom' := Bool.and_eq_true_iff.mpr hroom
  simp only [Nat.zero_add] at hf
  simp only [encStep, he, andThen_next, hf, Bool.false_eq_true, if_false, encEmit, hpos', hclen, hck.length, hroom',
    if_true, Host.Outcome.next.injEq, exists_eq']

/-- One transition of `ENC`: a busy unit emits a code or ends its call; any other unit holds its state. -/
theorem encTick_cases {s t : State} (h : encTick s = .next t) :
    (s.enc.state = .busy ∧ s.enc.pos < s.enc.ilen ∧
      ∃ w, widthOf s.enc.wsel = some w ∧ ∃ f l, StepEmits w s t f l) ∨
    (s.enc.state = .busy ∧ s.enc.ilen ≤ s.enc.pos ∧ t = endCall .enc s) ∨
    (s.enc.state ≠ .busy ∧ t = s) := by
  unfold encTick at h
  split at h
  · rename_i hb
    split at h
    · rename_i hpos
      split at h
      · rename_i w hw
        exact Or.inl ⟨hb, hpos, w, hw, encStep_spec h⟩
      · simp at h
    · rename_i hpos
      simp only [Host.Outcome.next.injEq] at h
      exact Or.inr (Or.inl ⟨hb, by omega, h.symm⟩)
  all_goals
    rename_i hb
    simp only [Host.Outcome.next.injEq] at h
    exact Or.inr (Or.inr ⟨by simp [hb], h.symm⟩)

end Sys2Proof.Machine
end

