-- ==== Sys2Proof/Laws/PerInstr.lean ====
section
/-! SUPPORT. Laws stated for each instruction on its own: `CellsFit`, the word of an instruction holds its fields. -/

namespace Sys2Proof.Laws.CellsFit

open Sys2Proof.Machine

/-- The word of an instruction: a command word has no bit above bit 0 (30_encoding.md R84); the cells of a code hold its
offset and length, and its literal widened (30_encoding.md R72, R74). -/
def Statement (i : Instr) : Prop :=
  match encode i with
  | .command _ v => v ≤ 1
  | .code8 o l lit => codeFields i = some (o.setWidth 32, l.setWidth 32, lit)
  | .code16 o l lit => lit.toNat ≤ 255 ∧ codeFields i = some (o.setWidth 32, l.setWidth 32, lit.setWidth 8)
  | .code32 o l lit => lit.toNat ≤ 255 ∧ codeFields i = some (o, l, lit.setWidth 8)

/-- A literal's cell holds a Symbol. -/
theorem literal_le {b : Nat} (s : Symbol) : (s.setWidth b).toNat ≤ 255 := by
  have := s.isLt
  rw [BitVec.toNat_setWidth]
  exact le_trans (Nat.mod_le _ _) (by omega)

/-- A widened Symbol gives the Symbol back. -/
theorem literal_back {b : Nat} (hb : 8 ≤ b) (s : Symbol) : (s.setWidth b).setWidth 8 = s := by
  rw [BitVec.setWidth_setWidth_of_le _ hb, BitVec.setWidth_eq]

/-- Fields whose literal is read back from its cell. -/
theorem fields_back {b : Nat} (hb : 8 ≤ b) (o l : Field) (s : Symbol) :
    (s.setWidth b).toNat ≤ 255 ∧ some (o, l, s) = some (o, l, (s.setWidth b).setWidth 8) :=
  ⟨literal_le s, by rw [literal_back hb]⟩

theorem encodeCmd : Statement .encodeCmd := Nat.le_refl 1
theorem decodeCmd : Statement .decodeCmd := Nat.le_refl 1
theorem nopEnc : Statement .nopEnc := Nat.zero_le 1
theorem nopDec : Statement .nopDec := Nat.zero_le 1
theorem codeW8 (o l : BitVec 8) (s : Symbol) : Statement (.codeW8 o l s) := rfl
theorem litW8 (s : Symbol) : Statement (.litW8 s) := rfl
theorem copyW8 (o l : BitVec 8) (s : Symbol) : Statement (.copyW8 o l s) := rfl
theorem runW8 (o l : BitVec 8) (s : Symbol) : Statement (.runW8 o l s) := rfl
theorem badzW8 (l : BitVec 8) (s : Symbol) : Statement (.badzW8 l s) := rfl
theorem litxW8 (o : BitVec 8) (s : Symbol) : Statement (.litxW8 o s) := rfl
theorem codeW16 (o l : BitVec 16) (s : Symbol) : Statement (.codeW16 o l s) := fields_back (by decide) (o.setWidth 32) (l.setWidth 32) s
theorem litW16 (s : Symbol) : Statement (.litW16 s) := fields_back (by decide) 0 0 s
theorem copyW16 (o l : BitVec 16) (s : Symbol) : Statement (.copyW16 o l s) := fields_back (by decide) (o.setWidth 32) (l.setWidth 32) s
theorem runW16 (o l : BitVec 16) (s : Symbol) : Statement (.runW16 o l s) := fields_back (by decide) (o.setWidth 32) (l.setWidth 32) s
theorem badzW16 (l : BitVec 16) (s : Symbol) : Statement (.badzW16 l s) := fields_back (by decide) 0 (l.setWidth 32) s
theorem litxW16 (o : BitVec 16) (s : Symbol) : Statement (.litxW16 o s) := fields_back (by decide) (o.setWidth 32) 0 s
theorem codeW32 (o l : BitVec 32) (s : Symbol) : Statement (.codeW32 o l s) := fields_back (by decide) o l s
theorem litW32 (s : Symbol) : Statement (.litW32 s) := fields_back (by decide) 0 0 s
theorem copyW32 (o l : BitVec 32) (s : Symbol) : Statement (.copyW32 o l s) := fields_back (by decide) o l s
theorem runW32 (o l : BitVec 32) (s : Symbol) : Statement (.runW32 o l s) := fields_back (by decide) o l s
theorem badzW32 (l : BitVec 32) (s : Symbol) : Statement (.badzW32 l s) := fields_back (by decide) 0 l s
theorem litxW32 (o : BitVec 32) (s : Symbol) : Statement (.litxW32 o s) := fields_back (by decide) o 0 s

end Sys2Proof.Laws.CellsFit
end

