-- ==== Sys2Proof/Laws/Step.lean ====
section
/-! SUPPORT. What an instruction, a decoded word, a host's move and one step can do. -/

namespace Sys2Proof.Machine

/-- Every code is executed by the one decoder step (30_encoding.md R78). -/
theorem exec_code {i : Instr} {o l : Field} {lit : Symbol} (h : codeFields i = some (o, l, lit)) (s : State) :
    exec i s = decCode o l lit s := by
  cases i <;> simp only [codeFields, Option.some.injEq, Prod.mk.injEq, reduceCtorEq] at h <;> obtain ⟨rfl, rfl, rfl⟩ := h <;>
    rfl

/-- A field that fits the width is recovered from its low bits. -/
theorem setWidth_setWidth_of_le {b m : Nat} (x : Field) (hb : 2 ^ b = m + 1) (h : x.toNat ≤ m) :
    (x.setWidth b).setWidth 32 = x := by
  apply BitVec.eq_of_toNat_eq
  have := x.isLt
  rw [BitVec.toNat_setWidth, BitVec.toNat_setWidth, Nat.mod_eq_of_lt (a := x.toNat) (by omega), Nat.mod_eq_of_lt (by omega)]

/-- Reading the low bits of a value that fits them changes nothing. -/
theorem toNat_setWidth_of_le {b m : Nat} (x : Field) (hb : 2 ^ b = m + 1) (h : x.toNat ≤ m) :
    (x.setWidth b).toNat = x.toNat := by
  rw [BitVec.toNat_setWidth, Nat.mod_eq_of_lt (by omega)]

/-- The class of a code at `W = 8` has the fields of its cells (30_encoding.md R78, R79). -/
theorem codeFields_classW8 (o l : BitVec 8) (lit : Symbol) :
    codeFields (classW8 o l lit) = some (o.setWidth 32, l.setWidth 32, lit) := by
  have hz : ∀ x : BitVec 8, x.toNat = 0 → x.setWidth 32 = 0 := fun x hx => by rw [BitVec.eq_of_toNat_eq (y := 0) hx]; rfl
  unfold classW8
  split_ifs with hl ho ho
  · rw [codeFields, hz _ hl, hz _ ho]
  · rw [codeFields, hz _ hl]
  · rw [codeFields, hz _ ho]
  · rfl
  · rfl

/-- The class of a code at `W = 16` has the fields of its cells (30_encoding.md R78, R79). -/
theorem codeFields_classW16 (o l : BitVec 16) (lit : Symbol) :
    codeFields (classW16 o l lit) = some (o.setWidth 32, l.setWidth 32, lit) := by
  have hz : ∀ x : BitVec 16, x.toNat = 0 → x.setWidth 32 = 0 := fun x hx => by rw [BitVec.eq_of_toNat_eq (y := 0) hx]; rfl
  unfold classW16
  split_ifs with hl ho ho
  · rw [codeFields, hz _ hl, hz _ ho]
  · rw [codeFields, hz _ hl]
  · rw [codeFields, hz _ ho]
  · rfl
  · rfl

/-- The class of a code at `W = 32` has the fields of its cells (30_encoding.md R78, R79). -/
theorem codeFields_classW32 (o l : BitVec 32) (lit : Symbol) :
    codeFields (classW32 o l lit) = some (o, l, lit) := by
  have hz : ∀ x : BitVec 32, x.toNat = 0 → x = 0 := fun x hx => BitVec.eq_of_toNat_eq hx
  unfold classW32
  split_ifs with hl ho ho
  · rw [codeFields, hz _ hl, hz _ ho]
  · rw [codeFields, hz _ hl]
  · rw [codeFields, hz _ ho]
  · rfl
  · rfl

/-- What decoding a code's cells answers, at any width: the instruction with the fields of the cells, or a refusal of a
literal above 255 (30_encoding.md R72, R74, R81). -/
theorem decode_rawCode {w : Width} {o l c : Field} (ho : o.toNat ≤ wmax w) (hl : l.toNat ≤ wmax w) (hc : c.toNat ≤ wmax w) :
    (255 < c.toNat ∧ decode (rawCode w o l c) = .reject .literalTooWide) ∨
    (c.toNat ≤ 255 ∧ ∃ i, decode (rawCode w o l c) = .instr i ∧ codeFields i = some (o, l, c.setWidth 8)) := by
  cases w with
  | w8 =>
    exact Or.inr ⟨hc, _, rfl, by
      rw [codeFields_classW8, setWidth_setWidth_of_le (m := 255) _ rfl ho, setWidth_setWidth_of_le (m := 255) _ rfl hl]⟩
  | w16 =>
    simp only [rawCode, decode, toNat_setWidth_of_le (b := 16) (m := 65535) c rfl hc]
    split
    · exact Or.inl ⟨‹_›, rfl⟩
    · exact Or.inr ⟨by omega, _, rfl, by
        rw [codeFields_classW16, setWidth_setWidth_of_le (m := 65535) _ rfl ho,
          setWidth_setWidth_of_le (m := 65535) _ rfl hl, BitVec.setWidth_setWidth_of_le _ (by decide)]⟩
  | w32 =>
    simp only [rawCode, decode]
    split
    · exact Or.inl ⟨‹_›, rfl⟩
    · exact Or.inr ⟨by omega, _, rfl, codeFields_classW32 _ _ _⟩

/-- A widened Symbol gives the Symbol back. -/
theorem literal_back (lit : Symbol) : (lit.setWidth 32).setWidth 8 = lit := by
  rw [BitVec.setWidth_setWidth_of_le _ (by decide), BitVec.setWidth_eq]

/-- A widened Symbol is at most 255. -/
theorem literal_le (lit : Symbol) : (lit.setWidth 32).toNat ≤ 255 := by
  have := lit.isLt
  rw [BitVec.toNat_setWidth]
  exact le_trans (Nat.mod_le _ _) (by omega)

theorem le_wmax (w : Width) : 255 ≤ wmax w := by cases w <;> decide

/-- What a unit reads of a cell is a value of the width (20_memory.md R55). -/
theorem narrowCell_le (w : Width) (i : Nat) (v : Field) : (narrowCell w i v).toNat ≤ wmax w := by
  unfold narrowCell
  split
  · assumption
  · rw [BitVec.toNat_ofNat]
    exact le_trans (Nat.mod_le _ _) (Nat.le_of_lt_succ (Nat.mod_lt _ (Nat.succ_pos _)))

/-- A cell that holds a value of the width is read as it stands. -/
theorem narrowCell_of_le {w : Width} (i : Nat) {v : Field} (h : v.toNat ≤ wmax w) : narrowCell w i v = v := by
  unfold narrowCell
  rw [if_pos h]

/-- Running a code's cells runs the decoder step on its fields, or refuses a literal above 255. -/
theorem runWord_rawCode {w : Width} {o l c : Field} (ho : o.toNat ≤ wmax w) (hl : l.toNat ≤ wmax w) (hc : c.toNat ≤ wmax w)
    (s : State) : runWord (rawCode w o l c) s =
      if 255 < c.toNat then .refused .literalTooWide else decCode o l (c.setWidth 8) s := by
  rcases decode_rawCode ho hl hc with ⟨h, hd⟩ | ⟨h, i, hd, hf⟩
  · rw [if_pos h]
    simp only [runWord, hd, refusalOf]
  · rw [if_neg (by omega)]
    simp only [runWord, hd, exec_code hf]

/-- The cells a fetch reads (30_encoding.md R72). -/
theorem fetchCode_spec {w : Width} {d : Dec} {r : RawWord} (h : fetchCode w d = .next r) : ∃ o l c,
    r = rawCode w (narrowCell w (cellIndex d.k 0) o) (narrowCell w (cellIndex d.k 1) l) (narrowCell w (cellIndex d.k 2) c) ∧
    Memory.read d.cbuf (cellIndex d.k 0) = some o ∧ Memory.read d.cbuf (cellIndex d.k 1) = some l ∧
    Memory.read d.cbuf (cellIndex d.k 2) = some c := by
  simp only [fetchCode, andThen_eq_next, memRead_eq_next, Host.Outcome.next.injEq] at h
  obtain ⟨o, ho, l, hl, c, hc, rfl⟩ := h
  exact ⟨o, l, c, rfl, ho, hl, hc⟩

/-- A busy decoder with a code left, whose cells are written, runs the decoder step on what it reads of them, or refuses a
literal above 255 (42_decoder.md R121, R122; 30_encoding.md R74). -/
theorem decTick_of_reads {s : State} {w : Width} {o l c : Field} (hb : s.dec.state = .busy) (hk : s.dec.k < s.dec.clen)
    (hw : widthOf s.dec.wsel = some w) (ho : Memory.read s.dec.cbuf (cellIndex s.dec.k 0) = some o)
    (hl : Memory.read s.dec.cbuf (cellIndex s.dec.k 1) = some l)
    (hc : Memory.read s.dec.cbuf (cellIndex s.dec.k 2) = some c) :
    decTick s = if 255 < (narrowCell w (cellIndex s.dec.k 2) c).toNat then .refused .literalTooWide
      else decCode (narrowCell w (cellIndex s.dec.k 0) o) (narrowCell w (cellIndex s.dec.k 1) l)
        ((narrowCell w (cellIndex s.dec.k 2) c).setWidth 8) s := by
  simp only [decTick, hb, hk, if_true, hw, fetchCode, memRead_of_read _ ho, memRead_of_read _ hl, memRead_of_read _ hc,
    andThen_next, runWord_rawCode (narrowCell_le _ _ _) (narrowCell_le _ _ _) (narrowCell_le _ _ _)]

/-- One transition of `DEC`: a busy unit runs the code at its cursor or ends its call; any other unit holds its state. -/
theorem decTick_cases {s t : State} (h : decTick s = .next t) :
    (s.dec.state = .busy ∧ s.dec.k < s.dec.clen ∧ ∃ w o l c, widthOf s.dec.wsel = some w ∧
      Memory.read s.dec.cbuf (cellIndex s.dec.k 0) = some o ∧ Memory.read s.dec.cbuf (cellIndex s.dec.k 1) = some l ∧
      Memory.read s.dec.cbuf (cellIndex s.dec.k 2) = some c ∧ (narrowCell w (cellIndex s.dec.k 2) c).toNat ≤ 255 ∧
      decCode (narrowCell w (cellIndex s.dec.k 0) o) (narrowCell w (cellIndex s.dec.k 1) l)
        ((narrowCell w (cellIndex s.dec.k 2) c).setWidth 8) s = .next t) ∨
    (s.dec.state = .busy ∧ s.dec.clen ≤ s.dec.k ∧ t = endCall .dec s) ∨
    (s.dec.state ≠ .busy ∧ t = s) := by
  have h0 := h
  unfold decTick at h
  split at h
  · rename_i hb
    split at h
    · rename_i hk
      split at h
      · rename_i w hw
        simp only [andThen_eq_next] at h
        obtain ⟨r, hr, -⟩ := h
        obtain ⟨o, l, c, -, ho, hl, hc⟩ := fetchCode_spec hr
        rw [decTick_of_reads hb hk hw ho hl hc] at h0
        split at h0
        · simp at h0
        · exact Or.inl ⟨hb, hk, w, o, l, c, hw, ho, hl, hc, by omega, h0⟩
      · simp at h
    · rename_i hk
      simp only [Host.Outcome.next.injEq] at h
      exact Or.inr (Or.inl ⟨hb, by omega, h.symm⟩)
  all_goals
    rename_i hb
    simp only [Host.Outcome.next.injEq] at h
    exact Or.inr (Or.inr ⟨by simp [hb], h.symm⟩)

/-- A command that completes starts a call of its unit, or changes nothing. -/
theorem runWord_command {u : UnitId} {v : Nat} {s t : State} (h : runWord (.command u v) s = .next t) :
    t = s ∨ (v = 1 ∧ s.runState u ≠ .busy ∧ t = beginCall u s ∧
      ∃ w, widthOf (s.wsel u) = some w) := by
  simp only [runWord, decode] at h
  split at h
  · rename_i i hi
    unfold decodeCommand at hi
    split at hi
    · simp only [Decoded.instr.injEq] at hi
      subst hi
      simp only [exec, execNopEnc, Host.Outcome.next.injEq] at h
      exact Or.inl h.symm
    · simp only [Decoded.instr.injEq] at hi
      subst hi
      simp only [exec, execEncode] at h
      split at h
      · simp only [Host.Outcome.next.injEq] at h
        exact Or.inl h.symm
      · rename_i hb
        split at h
        · simp at h
        · rename_i w hw
          split at h
          · simp only [Host.Outcome.next.injEq] at h
            exact Or.inr ⟨rfl, hb, h.symm, w, hw⟩
          · simp at h
    · simp only [Decoded.instr.injEq] at hi
      subst hi
      simp only [exec, execNopDec, Host.Outcome.next.injEq] at h
      exact Or.inl h.symm
    · simp only [Decoded.instr.injEq] at hi
      subst hi
      simp only [exec, execDecode] at h
      split at h
      · simp only [Host.Outcome.next.injEq] at h
        exact Or.inl h.symm
      · rename_i hb
        split at h
        · simp at h
        · rename_i w hw
          split at h
          · simp only [Host.Outcome.next.injEq] at h
            exact Or.inr ⟨rfl, hb, h.symm, w, hw⟩
          · simp at h
    · simp at hi
  · simp at h

/-- A host read changes nothing of the block: only what was read, and the counter of the free values. -/
theorem hostRead_spec {s t : State} {m : HostMove} (hm : (∃ u n, m = .readReg u n) ∨ ∃ sp i, m = .readCell sp i)
    (h : hostMove m s = .next t) : ∃ v c, t = { s with rdata := some v, freeCtr := c } := by
  rcases hm with ⟨u, n, rfl⟩ | ⟨sp, i, rfl⟩
  · simp only [hostMove, hostReadReg] at h
    split at h
    · simp at h
    · split at h <;> simp only [Host.Outcome.next.injEq] at h <;> subst h
      · exact ⟨_, _, rfl⟩
      · exact ⟨_, s.freeCtr, rfl⟩
  · simp only [hostMove, hostReadCell] at h
    split at h
    · simp at h
    · split at h
      · simp only [Host.Outcome.next.injEq] at h
        subst h
        exact ⟨_, _, rfl⟩
      · split at h <;> simp only [Host.Outcome.next.injEq, reduceCtorEq] at h
        subst h
        exact ⟨_, s.freeCtr, rfl⟩

/-- The host read of a cell of a busy unit returns some value. -/
theorem hostReadCell_of_busy {sp : Space} {i : Nat} {s : State} (hb : withinBuffer s.params sp i = true)
    (hs : s.runState sp.owner = .busy) : hostReadCell sp i s = .next (giveHost (freeCell sp s) (useFree s)) := by
  simp only [hostReadCell, hb, Bool.true_eq_false, if_false, hs, if_true]

/-- The host read of a written cell of a unit that is not busy (43_commands.md R154). -/
theorem hostReadCell_of_stored {sp : Space} {i v : Nat} {s : State} (hb : withinBuffer s.params sp i = true)
    (hs : s.runState sp.owner ≠ .busy) (hv : storedCell sp i s = some v) :
    hostReadCell sp i s = .next (giveHost (readValue sp i v s) s) := by
  simp only [hostReadCell, hb, Bool.true_eq_false, if_false, hs, hv]

/-- The host read of a cell never written, of a unit that is not busy, faults (70_reset_and_hazards.md R182). -/
theorem hostReadCell_of_unwritten {sp : Space} {i : Nat} {s : State} (hb : withinBuffer s.params sp i = true)
    (hs : s.runState sp.owner ≠ .busy) (hv : storedCell sp i s = none) :
    hostReadCell sp i s = .fault (.unwrittenCell sp i) := by
  simp only [hostReadCell, hb, Bool.true_eq_false, if_false, hs, hv]

/-- A cell that no failed call wrote last reads as stored. -/
theorem readValue_of_none {sp : Space} {i v : Nat} {s : State} (h : failedWriter sp i s = none) :
    readValue sp i v s = v := by
  simp only [readValue, h]

/-- A cell that a failed call wrote last reads as that call's free value (60_exceptions.md R161). -/
theorem readValue_of_some {sp : Space} {i v n : Nat} {s : State} (h : failedWriter sp i s = some n) :
    readValue sp i v s = failedCell sp n i := by
  simp only [readValue, h]

/-- The newest call tells of the cells it wrote. -/
theorem failedCall_cons_of_lt {c : PastCall} {past : List PastCall} {i : Nat} (h : i < c.count) :
    failedCall (c :: past) i = if c.failed then some past.length else none := by
  simp only [failedCall, h, if_true]

/-- An older call tells of a cell that the newest did not write. -/
theorem failedCall_cons_of_le {c : PastCall} {past : List PastCall} {i : Nat} (h : c.count ≤ i) :
    failedCall (c :: past) i = failedCall past i := by
  simp only [failedCall, Nat.not_lt.mpr h, if_false]

/-- What a host's move can do (43_commands.md R154). -/
theorem hostMove_cases {m : HostMove} {s t : State} (h : hostMove m s = .next t) :
    t = s ∨
    (∃ u w, m = .writeReg u 1 1 ∧ s.runState u ≠ .busy ∧ t = beginCall u s ∧
      widthOf (s.wsel u) = some w) ∨
    (∃ u v, m = .writeReg u 0 v ∧ s.runState u ≠ .busy ∧ t = setCfg u v s) ∨
    (∃ u v, m = .writeReg u 3 v ∧ s.runState u ≠ .busy ∧ t = setLength u v s) ∨
    (∃ i v, m = .writeIbuf i v ∧ s.enc.state ≠ .busy ∧
      t = { s with enc := { s.enc with ibuf := Memory.write s.enc.ibuf i v } }) ∨
    (∃ i v, m = .writeDecCbuf i v ∧ s.dec.state ≠ .busy ∧
      t = { s with dec := { s.dec with cbuf := Memory.write s.dec.cbuf i v } }) ∨
    (∃ v c, t = { s with rdata := some v, freeCtr := c }) ∨
    (m = .reset ∧ t = resetUnits s) := by
  cases m with
  | writeReg u n v =>
    simp only [hostMove, hostWriteReg] at h
    split at h
    · simp at h
    · split at h
      · rename_i hn
        subst hn
        rcases runWord_command h with rfl | ⟨rfl, hb, ht, w, hw⟩
        · exact Or.inl rfl
        · exact Or.inr (Or.inl ⟨u, w, rfl, hb, ht, hw⟩)
      · split at h
        · simp at h
        · split at h
          · simp at h
          · rename_i hb
            split at h
            · rename_i hn
              subst hn
              simp only [Host.Outcome.next.injEq] at h
              exact Or.inr (Or.inr (Or.inl ⟨u, v, rfl, hb, h.symm⟩))
            · split at h
              · rename_i hn
                subst hn
                simp only [Host.Outcome.next.injEq] at h
                exact Or.inr (Or.inr (Or.inr (Or.inl ⟨u, v, rfl, hb, h.symm⟩)))
              · simp only [Host.Outcome.next.injEq] at h
                exact Or.inl h.symm
  | readReg u n =>
    obtain ⟨v, c, ht⟩ := hostRead_spec (Or.inl ⟨u, n, rfl⟩) h
    simp only [ht]
    exact Or.inr (Or.inr (Or.inr (Or.inr (Or.inr (Or.inr (Or.inl ⟨v, c, rfl⟩))))))
  | writeIbuf i v =>
    simp only [hostMove, hostWriteIbuf] at h
    split at h
    · simp at h
    · rename_i hb
      split at h
      · simp only [Host.Outcome.next.injEq] at h
        exact Or.inr (Or.inr (Or.inr (Or.inr (Or.inl ⟨i, v, rfl, hb, h.symm⟩))))
      · simp at h
  | writeDecCbuf i v =>
    simp only [hostMove, hostWriteDecCbuf] at h
    split at h
    · simp at h
    · rename_i hb
      split at h
      · simp only [Host.Outcome.next.injEq] at h
        exact Or.inr (Or.inr (Or.inr (Or.inr (Or.inr (Or.inl ⟨i, v, rfl, hb, h.symm⟩)))))
      · simp at h
  | readCell sp i =>
    obtain ⟨v, c, ht⟩ := hostRead_spec (Or.inr ⟨sp, i, rfl⟩) h
    simp only [ht]
    exact Or.inr (Or.inr (Or.inr (Or.inr (Or.inr (Or.inr (Or.inl ⟨v, c, rfl⟩))))))
  | reset =>
    simp only [hostMove, Host.Outcome.next.injEq] at h
    exact Or.inr (Or.inr (Or.inr (Or.inr (Or.inr (Or.inr (Or.inr ⟨rfl, h.symm⟩))))))

/-- What one step can do: the next agent's transition. -/
theorem step_cases {s t : State} (h : step s = .next t) :
    (nextAgent s = .enc ∧ encTick (usedTurn s) = .next t) ∨
    (nextAgent s = .dec ∧ decTick (usedTurn s) = .next t) ∨
    (nextAgent s = .host ∧ s.pending = [] ∧ t = usedTurn s) ∨
    (nextAgent s = .host ∧ ∃ m rest, s.pending = m :: rest ∧
      hostMove m { usedTurn s with pending := rest } = .next t) := by
  unfold step agentTick at h
  split at h
  · rename_i hn
    unfold hostTick at h
    split at h
    · rename_i hp
      simp only [Host.Outcome.next.injEq] at h
      exact Or.inr (Or.inr (Or.inl ⟨hn, hp, h.symm⟩))
    · rename_i m rest hp
      exact Or.inr (Or.inr (Or.inr ⟨hn, m, rest, hp, h⟩))
  · rename_i hn
    exact Or.inl ⟨hn, h⟩
  · rename_i hn
    exact Or.inr (Or.inl ⟨hn, h⟩)

end Sys2Proof.Machine
end

