-- ==== Sys2Proof/Tests/Slice0.lean ====
section
/-! SUPPORT. The model's own tests: ill-formed terms that WellFormed refuses, words written out from the spec's encodings, one
step of every instruction with results taken from 95_test_vectors.md, and a witness for every statement with hypotheses. -/

namespace Sys2Proof.Tests

open Sys2Proof Sys2Proof.Machine

/-! ## Small states -/

/-- A buffer that holds the values from index 0 on. -/
def cellsFrom {n : Nat} (i : Nat) : List (BitVec n) → List (Nat × BitVec n)
  | [] => []
  | v :: t => (i, v) :: cellsFrom (i + 1) t

/-- A busy encoder at a cursor, with an input and `c` codes emitted. -/
def encAt (wsel : BitVec 2) (xs : List Symbol) (pos c : Nat) : State :=
  { State.reset with enc := { Enc.reset with
    wsel := wsel, ibuf := cellsFrom 0 xs, ilen := xs.length, pos := pos, clen := c, state := .busy } }

/-- A busy decoder before its code `k`, with the cells of its code stream and the symbols decoded so far. -/
def decAt (wsel : BitVec 2) (cells : List Field) (k : Nat) (out : List Symbol) : State :=
  { State.reset with dec := { Dec.reset with
    wsel := wsel, cbuf := cellsFrom 0 cells, clen := cells.length / 3, k := k, obuf := cellsFrom 0 out
    pos := out.length, state := .busy } }

/-- A decoder that has decoded the given symbols and is about to run a code. -/
def outAt (out : List Symbol) : State :=
  decAt 0 [0, 0, 0] 0 out

/-- The symbols from index 0 on that a decoder holds, with its cursor, after a step. -/
def outputOf (r : Res State) : Option (List (Option Symbol) × Nat) :=
  (answer r).map fun t => ((List.range t.dec.pos).map (Memory.read t.dec.obuf), t.dec.pos)

/-- What the host reads of a decoder after a failing step: `STATUS`, the code index and the position. -/
def errorOf (r : Res State) : Option (Nat × Nat × Nat) :=
  (answer r).map fun t => (t.status .dec, t.dec.k, t.dec.pos)

/-- The last code an encoder emitted in a step, and its cursor. -/
def emittedOf (r : Res State) : Option (Option Field × Option Field × Option Field × Nat) :=
  (answer r).map fun t => (Memory.read t.enc.cbuf (3 * (t.enc.clen - 1)), Memory.read t.enc.cbuf (3 * (t.enc.clen - 1) + 1),
    Memory.read t.enc.cbuf (3 * (t.enc.clen - 1) + 2), t.enc.pos)

/-- What a search of the pattern of `p` symbols at the cursor answers: the hit, and the match index if there is one. -/
def foundOf (r : Res Enc) : Option (Bool × Option Nat) :=
  (answer r).map fun f => (f.mfHit, if f.mfHit then some f.mfM else none)

/-! ## Ill-formed instructions (the rows' constraints in opcode_table.json; 30_encoding.md R78, R79) -/

theorem test_copy_needs_a_length : Instr.wellFormed (.copyW8 3 0 1) = false ∧ Instr.wellFormed (.copyW16 3 0 1) = false ∧
    Instr.wellFormed (.copyW32 3 0 1) = false := by decide

theorem test_copy_needs_offset_at_least_length : Instr.wellFormed (.copyW8 2 3 1) = false ∧
    Instr.wellFormed (.copyW16 2 3 1) = false ∧ Instr.wellFormed (.copyW32 2 3 1) = false := by decide

theorem test_run_needs_an_offset : Instr.wellFormed (.runW8 0 3 1) = false ∧ Instr.wellFormed (.runW16 0 3 1) = false ∧
    Instr.wellFormed (.runW32 0 3 1) = false := by decide

theorem test_run_needs_offset_below_length : Instr.wellFormed (.runW8 3 3 1) = false ∧
    Instr.wellFormed (.runW16 3 3 1) = false ∧ Instr.wellFormed (.runW32 3 3 1) = false := by decide

theorem test_badz_needs_a_length : Instr.wellFormed (.badzW8 0 1) = false ∧ Instr.wellFormed (.badzW16 0 1) = false ∧
    Instr.wellFormed (.badzW32 0 1) = false := by decide

theorem test_litx_needs_an_offset : Instr.wellFormed (.litxW8 0 1) = false ∧ Instr.wellFormed (.litxW16 0 1) = false ∧
    Instr.wellFormed (.litxW32 0 1) = false := by decide

/-! ## Words written out from the patterns of opcode_table.json: offset, length, literal, most significant bit first -/

theorem test_decode_commands : decodeTableWord 32 0b1 = some .encodeCmd ∧ decodeTableWord 32 0b0 = some .nopEnc ∧
    decode (.command .dec 0b1) = .instr .decodeCmd ∧ decode (.command .dec 0b0) = .instr .nopDec := by decide

theorem test_decode_reserved_command : decodeTableWord 32 0b10 = none ∧
    decode (.command .dec 0b11) = .reject .reservedCommand := by decide

theorem test_decode_lit_w8 : decodeTableWord 24 0b00000000_00000000_01100001 = some (.litW8 0x61) := by decide

theorem test_decode_copy_w8 : decodeTableWord 24 0b00000100_00000011_01100100 = some (.copyW8 4 3 0x64) := by decide

theorem test_decode_run_w8 : decodeTableWord 24 0b00000001_00000100_01100010 = some (.runW8 1 4 0x62) := by decide

theorem test_decode_badz_w8 : decodeTableWord 24 0b00000000_00000011_01100010 = some (.badzW8 3 0x62) := by decide

theorem test_decode_litx_w8 : decodeTableWord 24 0b00000010_00000000_01100010 = some (.litxW8 2 0x62) := by decide

theorem test_decode_lit_w16 :
    decodeTableWord 48 0b0000000000000000_0000000000000000_0000000001100001 = some (.litW16 0x61) := by decide

/-- V-X4. -/
theorem test_decode_copy_w16 :
    decodeTableWord 48 0b0000000100000000_0000000100000000_0000000000000000 = some (.copyW16 256 256 0) := by decide

theorem test_decode_run_w16 :
    decodeTableWord 48 0b0000000000000010_0000000000000101_0000000001100011 = some (.runW16 2 5 0x63) := by decide

theorem test_decode_badz_w16 :
    decodeTableWord 48 0b0000000000000000_1000000000000000_0000000001100010 = some (.badzW16 0x8000 0x62) := by decide

theorem test_decode_litx_w16 :
    decodeTableWord 48 0b1000000000000000_0000000000000000_0000000001100010 = some (.litxW16 0x8000 0x62) := by decide

/-- V-D18: a literal cell above 255 is no instruction. -/
theorem test_decode_wide_literal :
    decodeTableWord 48 0b0000000000000000_0000000000000000_0000000101100001 = none := by decide

theorem test_decode_lit_w32 : decodeTableWord 96
    0b00000000000000000000000000000000_00000000000000000000000000000000_00000000000000000000000001100001 =
      some (.litW32 0x61) := by decide

theorem test_decode_copy_w32 : decodeTableWord 96
    0b00000000000000000000000100000000_00000000000000000000000100000000_00000000000000000000000000000000 =
      some (.copyW32 256 256 0) := by decide

theorem test_decode_run_w32 : decodeTableWord 96
    0b00000000000000000000000000000001_00000000000000000000000000000100_00000000000000000000000001100010 =
      some (.runW32 1 4 0x62) := by decide

theorem test_decode_badz_w32 : decodeTableWord 96
    0b00000000000000000000000000000000_10000000000000000000000000000000_00000000000000000000000001100010 =
      some (.badzW32 0x80000000 0x62) := by decide

theorem test_decode_litx_w32 : decodeTableWord 96
    0b10000000000000000000000000000000_00000000000000000000000000000000_00000000000000000000000001100010 =
      some (.litxW32 0x80000000 0x62) := by decide

/-- The general row's words are those of its classes, at each width (R85). -/
theorem test_decode_general_code :
    encode (.codeW8 4 3 0x64) = patternWord .w8 0b00000100_00000011_01100100 ∧
    Instr.codeClass (.codeW8 4 3 0x64) = .copyW8 4 3 0x64 ∧
    encode (.codeW16 2 5 0x63) = patternWord .w16 0b0000000000000010_0000000000000101_0000000001100011 ∧
    Instr.codeClass (.codeW16 2 5 0x63) = .runW16 2 5 0x63 ∧
    encode (.codeW32 0 3 0x62) = patternWord .w32
      0b00000000000000000000000000000000_00000000000000000000000000000011_00000000000000000000000001100010 ∧
    Instr.codeClass (.codeW32 0 3 0x62) = .badzW32 3 0x62 := by decide

/-! ## One step of each instruction -/

/-- The call start of P4: `STATE ← BUSY`, `pos ← 0`, `CLEN ← 0`. -/
theorem test_encode_starts : (answer (exec .encodeCmd { encAt 0 [5, 5, 5] 3 2 with
    enc := { (encAt 0 [5, 5, 5] 3 2).enc with state := .done } })).map
      (fun t => (t.status .enc, t.enc.pos, t.enc.clen)) = some (1, 0, 0) := by decide

/-- V-C5. -/
theorem test_encode_refuses_reserved_width :
    exec .encodeCmd { State.reset with enc := { Enc.reset with wsel := 3 } } = .refused (.reservedWidth .enc) := rfl

/-- V-C9: a fresh call clears the cause. -/
theorem test_decode_starts : (answer (exec .decodeCmd (raise .dec .invalidOffset (decAt 0 [0, 0, 0x61] 1 [7])))).map
    (fun t => (t.status .dec, t.dec.pos, t.dec.k)) = some (1, 0, 0) := by decide

/-- V-C5. -/
theorem test_decode_refuses_reserved_width :
    exec .decodeCmd { State.reset with dec := { Dec.reset with wsel := 3 } } = .refused (.reservedWidth .dec) := rfl

/-- V-C4. -/
theorem test_nop_enc : exec .nopEnc (encAt 0 [5, 5] 1 1) = .next (encAt 0 [5, 5] 1 1) := rfl

/-- V-C4. -/
theorem test_nop_dec : exec .nopDec (outAt [5]) = .next (outAt [5]) := rfl

/-- P1, step 2. -/
theorem test_code_w8 : outputOf (exec (.codeW8 1 1 0x62) (outAt [0x61])) =
    some ([some 0x61, some 0x61, some 0x62], 3) := by decide

/-- V-D13. -/
theorem test_lit_w8 : outputOf (exec (.litW8 0x61) (outAt [])) = some ([some 0x61], 1) := by decide

/-- P1, step 4. -/
theorem test_copy_w8 : outputOf (exec (.copyW8 2 2 0x64) (outAt [0x61, 0x61, 0x62, 0x63])) =
    some ([some 0x61, some 0x61, some 0x62, some 0x63, some 0x62, some 0x63, some 0x64], 7) := by decide

/-- V-D4: the offset is one more than the position. -/
theorem test_copy_w8_beyond : errorOf (exec (.copyW8 2 1 0x62) (outAt [0x61])) = some (0xB, 0, 1) := by decide

/-- V-D1. -/
theorem test_run_w8 : outputOf (exec (.runW8 1 4 0x62) (outAt [0x61])) =
    some ([some 0x61, some 0x61, some 0x61, some 0x61, some 0x61, some 0x62], 6) := by decide

/-- V-D7. -/
theorem test_badz_w8 : errorOf (exec (.badzW8 3 0x62) (outAt [0x61])) = some (0xB, 0, 1) := by decide

/-- V-D6. -/
theorem test_litx_w8 : outputOf (exec (.litxW8 1 0x62) (outAt [0x61])) = some ([some 0x61, some 0x62], 2) := by decide

/-- V-D17. -/
theorem test_litx_w8_beyond : errorOf (exec (.litxW8 2 0x62) (outAt [0x61])) = some (0xB, 0, 1) := by decide

/-- V-D11. -/
theorem test_code_w16 : outputOf (exec (.codeW16 2 7 4) (outAt [1, 2, 3])) =
    some ([some 1, some 2, some 3, some 2, some 3, some 2, some 3, some 2, some 3, some 2, some 4], 11) := by decide

theorem test_lit_w16 : outputOf (exec (.litW16 0x61) (outAt [])) = some ([some 0x61], 1) := by decide

/-- V-D9, its fourth code. -/
theorem test_copy_w16 : outputOf (exec (.copyW16 3 3 0x64) (outAt [0x61, 0x62, 0x63])) =
    some ([some 0x61, some 0x62, some 0x63, some 0x61, some 0x62, some 0x63, some 0x64], 7) := by decide

/-- P2, step 3. -/
theorem test_run_w16 : outputOf (exec (.runW16 2 5 0x63) (outAt [0x61, 0x62])) =
    some ([some 0x61, some 0x62, some 0x61, some 0x62, some 0x61, some 0x62, some 0x61, some 0x63], 8) := by decide

/-- V-D8. -/
theorem test_badz_w16 : errorOf (exec (.badzW16 2 0x61) (outAt [])) = some (0xB, 0, 0) := by decide

/-- V-D5. -/
theorem test_litx_w16 : errorOf (exec (.litxW16 1 0x61) (outAt [])) = some (0xB, 0, 0) := by decide

/-- V-D15. -/
theorem test_code_w32 : errorOf (exec (.codeW32 1 1 0x61) (outAt [])) = some (0xB, 0, 0) := by decide

theorem test_lit_w32 : outputOf (exec (.litW32 0x61) (outAt [])) = some ([some 0x61], 1) := by decide

/-- V-D3. -/
theorem test_copy_w32 : outputOf (exec (.copyW32 1 1 0x62) (outAt [0x61])) =
    some ([some 0x61, some 0x61, some 0x62], 3) := by decide

/-- V-D2. -/
theorem test_run_w32 : outputOf (exec (.runW32 2 5 0x63) (outAt [0x61, 0x62])) =
    some ([some 0x61, some 0x62, some 0x61, some 0x62, some 0x61, some 0x62, some 0x61, some 0x63], 8) := by decide

theorem test_badz_w32 : errorOf (exec (.badzW32 3 0x62) (outAt [0x61])) = some (0xB, 0, 1) := by decide

theorem test_litx_w32 : outputOf (exec (.litxW32 1 0x62) (outAt [0x61])) = some ([some 0x61, some 0x62], 2) := by decide

/-! ## The match finder, the encoder's step, the decoder's fetch -/

/-- V-F9. -/
theorem test_find_rightmost : foundOf (mfFind 2 (encWindow .w8 (encAt 0 [0, 1, 0, 1, 2, 0, 1, 2] 5 0).enc)) =
    some (true, some 2) := by decide

/-- V-F17. -/
theorem test_find_at_last_candidate : foundOf (mfFind 2 (encWindow .w8 (encAt 0 [7, 7, 1, 7, 7, 7, 0] 4 0).enc)) =
    some (true, some 0) := by decide

/-- V-F16. -/
theorem test_find_none : foundOf (mfFind 2 (encWindow .w8 (encAt 0 [1, 2, 3, 3, 1, 0] 3 0).enc)) =
    some (false, none) := by decide

/-- P4, step 3. -/
theorem test_encoder_step : emittedOf (encTick (encAt 0 [0, 1, 0, 1, 2, 0, 1, 2, 3, 0, 1, 2, 3] 2 2)) =
    some (some 2, some 2, some 2, 5) := by decide

/-- P4, step 5: the last symbol stays outside the search. -/
theorem test_encoder_last_step : emittedOf (encTick (encAt 0 [0, 1, 0, 1, 2, 0, 1, 2, 3, 0, 1, 2, 3] 9 4)) =
    some (some 4, some 3, some 3, 13) := by decide

/-- P3, step 5. -/
theorem test_decoder_fails : errorOf (decTick (decAt 0 [0, 0, 0x61, 8, 1, 0x65] 1 [0x61, 0x62, 0x63, 0x61, 0x62, 0x63, 0x64])) =
    some (0xB, 1, 7) := by decide

/-- V-D18. -/
theorem test_decoder_refuses_wide_literal : decTick (decAt 1 [0, 0, 0x161] 0 []) = .refused .literalTooWide := rfl

/-- An offset cell too wide for the width does not end the run: at `W = 8` a `LIT` whose offset cell holds 256 takes a next
state, whatever is read of that cell (log 9). -/
theorem test_decoder_runs_a_wide_offset : ∃ t, decTick (decAt 0 [0x100, 0, 0x61] 0 []) = .next t := by
  rw [decTick_of_reads (s := decAt 0 [0x100, 0, 0x61] 0 []) (w := .w8) (o := 0x100) (l := 0) (c := 0x61) rfl (by decide) rfl
    (by decide) (by decide) (by decide), narrowCell_of_le (v := 0) _ (by decide),
    narrowCell_of_le (v := 0x61) _ (by decide), if_neg (by decide)]
  unfold decCode
  split
  · exact ⟨_, rfl⟩
  · exact ⟨_, rfl⟩

/-! ## The machine -/

theorem test_reset_memory_form : Memory.wf State.reset.enc.ibuf = true ∧ Memory.wf State.reset.enc.cbuf = true ∧
    Memory.wf State.reset.dec.cbuf = true ∧ Memory.wf State.reset.dec.obuf = true := by decide

/-- V-C1. -/
theorem test_reset_registers : (List.range 6).map (fun n => regValue .enc n State.reset) = [0, 0, 0, 0, 0, 0] ∧
    (List.range 6).map (fun n => regValue .dec n State.reset) = [0, 0, 0, 0, 0, 0] := by decide

/-- V-C6. -/
theorem test_reserved_command_word : hostMove (.writeReg .enc 1 2) State.reset = .refused .reservedCommand := rfl

/-- V-C5: the write of 3 to `CFG` is accepted and reads back 3. -/
theorem test_cfg_reads_back : (answer (hostMove (.writeReg .enc 0 3) State.reset)).map (regValue .enc 0) = some 3 := by
  decide

/-- The first step after reset runs a placed command and a placed code (log 3). -/
theorem test_first_step : (answer (step (State.reset.withFetchWord 32 1))).map (fun t => t.status .enc) = some 1 ∧
    outputOf (step (State.reset.withFetchWord 24 0x000061)) = some ([some 0x61], 1) := by decide

/-! ## Witnesses: states and operands that meet the hypotheses of each statement together, clause by clause -/

/-- A state whose host is to make the given move. -/
def hostTurn (m : HostMove) (s : State) : State :=
  { s with pending := [m], schedule := [.host] }

/-- A state with the given parameters. -/
def withParams (p : Params) (s : State) : State :=
  { s with params := p }

/-- Small capacities: two symbols in, one code out, one code in, two symbols out. -/
def smallParams : Params :=
  ⟨some 8, some 2, some 1, some 1, some 2, none⟩

theorem witness_DecodeOfEncodeIsTheInstruction : ∃ i : Instr, i.wellFormed = true ∧ (∀ o l s, i ≠ .codeW8 o l s) ∧
    (∀ o l s, i ≠ .codeW16 o l s) ∧ (∀ o l s, i ≠ .codeW32 o l s) :=
  ⟨.copyW8 255 255 0xFF, by decide, by simp, by simp, by simp⟩

theorem witness_EncodeOfDecodeIsTheWord :
    decode (.code8 255 255 0xFF) = .instr (.copyW8 255 255 0xFF) ∧ decode (.command .dec 1) = .instr .decodeCmd := by decide

theorem witness_ReservedWordsRejected_command : ∃ (u : UnitId) (v : Nat) (s : State), 1 < v ∧ withinPosw s.params v = true ∧
    s.runState u = .busy :=
  ⟨.dec, 255, withParams smallParams (outAt []), by decide⟩

theorem witness_ReservedWordsRejected_literal : ∃ (w w' : Width) (c c' : Field), c.toNat ≤ wmax w ∧ 255 < c.toNat ∧
    c'.toNat ≤ wmax w' ∧ 255 < c'.toNat ∧ w ≠ w' :=
  ⟨.w16, .w32, 256, 0xFFFFFFFF, by decide⟩

theorem witness_EncodeStartsACall : ∃ (s : State) (w : Width), s.enc.state ≠ .busy ∧ widthOf s.enc.wsel = some w ∧
    withinCap s.params.icap s.enc.ilen = true :=
  ⟨withParams smallParams { State.reset with enc := { Enc.reset with ilen := 2, state := .done } }, .w8, by decide⟩

theorem witness_DecodeStartsACall : ∃ (s : State) (w : Width), s.dec.state ≠ .busy ∧ widthOf s.dec.wsel = some w ∧
    withinCap s.params.ccapD s.dec.clen = true :=
  ⟨withParams smallParams (raise .dec .invalidOffset (decAt 2 [0, 0, 0x61] 0 [])), .w32, by decide⟩

theorem witness_CommandWhileBusyIsIgnored : ∃ s : State, s.runState .enc = .busy ∧ s.enc.state = .busy ∧
    withinPosw s.params 1 = true :=
  ⟨encAt 0 [5] 0 0, by decide⟩

theorem witness_CommandWhileBusyIsIgnored_dec : ∃ s : State, s.runState .dec = .busy ∧ s.dec.state = .busy ∧
    withinPosw s.params 1 = true :=
  ⟨outAt [], by decide⟩

theorem witness_ReservedWidthIsRefused : ∃ s : State, s.enc.state ≠ .busy ∧ s.enc.wsel = 3 ∧ s.dec.state ≠ .busy ∧
    s.dec.wsel = 3 :=
  ⟨{ State.reset with enc := { Enc.reset with wsel := 3 }, dec := { Dec.reset with wsel := 3 } }, by decide⟩

theorem witness_NopHasNoEffect : ∃ s : State, withinPosw s.params 0 = true :=
  ⟨withParams ⟨some 0, none, none, none, none, none⟩ State.reset, by decide⟩

theorem witness_BeyondCapacityIsRefused_input : ∃ (s : State) (w : Width), s.enc.state ≠ .busy ∧
    widthOf s.enc.wsel = some w ∧ withinCap s.params.icap s.enc.ilen = false :=
  ⟨withParams smallParams { State.reset with enc := { Enc.reset with ilen := 3 } }, .w8, by decide⟩

theorem witness_BeyondCapacityIsRefused_codes : ∃ (s : State) (w : Width), s.dec.state ≠ .busy ∧
    widthOf s.dec.wsel = some w ∧ withinCap s.params.ccapD s.dec.clen = false :=
  ⟨withParams smallParams { State.reset with dec := { Dec.reset with clen := 2 } }, .w8, by decide⟩

theorem witness_BeyondCapacityIsRefused_output : ∃ (i : Instr) (o l : Field) (lit : Symbol) (s : State),
    codeFields i = some (o, l, lit) ∧ offsetInvalid s.dec.pos o.toNat l.toNat = false ∧
    withinCap s.params.ocap (s.dec.pos + l.toNat + 1) = false :=
  ⟨.copyW8 1 1 0, 1, 1, 0, withParams smallParams (outAt [5]), by decide⟩

/-- A position at the last value of a 1-bit register. -/
theorem witness_BeyondCapacityIsRefused_position : ∃ (i : Instr) (o l : Field) (lit : Symbol) (s : State),
    codeFields i = some (o, l, lit) ∧ offsetInvalid s.dec.pos o.toNat l.toNat = false ∧
    withinCap s.params.ocap (s.dec.pos + l.toNat + 1) = true ∧ withinPosw s.params (s.dec.pos + l.toNat + 1) = false :=
  ⟨.litW8 5, 0, 0, 5, withParams ⟨some 1, none, none, none, none, none⟩ (outAt [5]), by decide⟩

/-- A second code where `CCAP_E = 1`, and a cursor beyond a 1-bit register. -/
theorem witness_BeyondCapacityIsRefused_emit : ∃ s t s' t' : State,
    s.enc.state = .busy ∧ s.enc.pos < s.enc.ilen ∧ encTick (unbounded s) = .next t ∧
    withinCap s.params.ccapE t.enc.clen = false ∧
    s'.enc.state = .busy ∧ s'.enc.pos < s'.enc.ilen ∧ encTick (unbounded s') = .next t' ∧
    withinPosw s'.params t'.enc.pos = false :=
  ⟨withParams smallParams (encAt 0 [5, 6] 1 1), _, withParams ⟨some 1, none, none, none, none, none⟩ (encAt 0 [5, 6] 1 1), _,
    rfl, by decide, rfl, rfl, rfl, by decide, rfl, rfl⟩

theorem witness_BeyondCapacityIsRefused_host : ∃ (s : State) (v : Nat), withinPosw s.params v = false ∧
    s.enc.state ≠ .busy ∧ withinBuffer s.params .ibuf 2 = false ∧ s.dec.state ≠ .busy ∧
    withinBuffer s.params .decCbuf 3 = false :=
  ⟨withParams smallParams State.reset, 256, by decide⟩

theorem witness_BeyondCapacityIsRefused_cells : ∃ s : State,
    withinBuffer s.params .encCbuf 3 = false ∧ withinBuffer s.params .encCbuf 2 = true ∧ s.params.ccapE = some 1 ∧
    s.params.ccapD = some 1 :=
  ⟨withParams smallParams State.reset, by decide⟩

theorem witness_CommandsChangeOnlyTheirUnit :
    (∃ s t, exec .encodeCmd s = .next t ∧ t ≠ s) ∧ ∃ s t, exec .decodeCmd s = .next t ∧ t ≠ s :=
  ⟨⟨State.reset, _, rfl, by decide⟩, ⟨State.reset, _, rfl, by decide⟩⟩

theorem written_outAt : WrittenBelow (outAt [0x61, 0x62]).dec.obuf 2 := by
  unfold WrittenBelow
  decide

theorem fits_outAt (n : Nat) : OutputFits (outAt [0x61, 0x62]).params n := ⟨rfl, rfl⟩

/-- A `RUN`, a `COPY` whose offset is the position, and a `LIT`. -/
theorem witness_AdmittedCodeRuns : ∃ (i i' i'' : Instr) (o l o' l' o'' l'' : Field) (lit : Symbol) (s : State),
    codeFields i = some (o, l, lit) ∧ o.toNat ≤ s.dec.pos ∧ (0 < l.toNat → 0 < o.toNat) ∧
    OutputFits s.params (s.dec.pos + l.toNat + 1) ∧ WrittenBelow s.dec.obuf s.dec.pos ∧
    codeFields i' = some (o', l', lit) ∧ o'.toNat = s.dec.pos ∧ (0 < l'.toNat → 0 < o'.toNat) ∧
    OutputFits s.params (s.dec.pos + l'.toNat + 1) ∧
    codeFields i'' = some (o'', l'', lit) ∧ o''.toNat = 0 ∧ l''.toNat = 0 ∧
    OutputFits s.params (s.dec.pos + l''.toNat + 1) :=
  ⟨.runW32 1 5 7, .copyW16 2 2 7, .litW8 7, 1, 5, 2, 2, 0, 0, 7, outAt [0x61, 0x62], rfl, by decide, by decide, fits_outAt _,
    written_outAt, rfl, rfl, by decide, fits_outAt _, rfl, rfl, rfl, fits_outAt _⟩

theorem witness_LiteralAppendsItsSymbol : ∃ s : State, OutputFits s.params (s.dec.pos + 1) :=
  ⟨withParams smallParams (outAt [5]), ⟨rfl, rfl⟩⟩

theorem witness_CopyEqualsABlockCopy : ∃ (i : Instr) (o l : Field) (lit : Symbol) (s : State),
    codeFields i = some (o, l, lit) ∧ 1 ≤ l.toNat ∧ l.toNat ≤ o.toNat ∧ o.toNat ≤ s.dec.pos ∧
    OutputFits s.params (s.dec.pos + l.toNat + 1) ∧
    (∀ j, j < l.toNat → ∃ v, Memory.read s.dec.obuf (s.dec.pos - o.toNat + j) = some v) :=
  ⟨.copyW8 2 2 7, 2, 2, 7, outAt [0x61, 0x62], rfl, by decide, by decide, by decide, fits_outAt _, by decide⟩

theorem witness_RunRepeatsWithItsOffsetAsPeriod : ∃ (i : Instr) (o l : Field) (lit : Symbol) (s t : State),
    codeFields i = some (o, l, lit) ∧ 1 ≤ o.toNat ∧ o.toNat < l.toNat ∧ o.toNat ≤ s.dec.pos ∧ exec i s = .next t :=
  ⟨.runW8 2 3 7, 2, 3, 7, outAt [0x61, 0x62], _, rfl, by decide, by decide, by decide, rfl⟩

theorem witness_ZeroOffsetWithLengthRaises : 1 ≤ (1 : BitVec 8).toNat ∧ 1 ≤ (1 : BitVec 16).toNat ∧
    1 ≤ (1 : BitVec 32).toNat := by decide

theorem witness_ZeroLengthWithOffsetActsAsLiteral : ∃ (o : BitVec 8) (o' : BitVec 16) (o'' : BitVec 32) (s : State),
    1 ≤ o.toNat ∧ o.toNat ≤ s.dec.pos ∧ 1 ≤ o'.toNat ∧ o'.toNat ≤ s.dec.pos ∧ 1 ≤ o''.toNat ∧ o''.toNat ≤ s.dec.pos ∧
    OutputFits s.params (s.dec.pos + 1) :=
  ⟨2, 2, 2, outAt [0x61, 0x62], by decide, by decide, by decide, by decide, by decide, by decide, fits_outAt _⟩

theorem witness_OffsetBeyondPositionRaises_beyond : ∃ (i : Instr) (o l : Field) (lit : Symbol) (s : State),
    codeFields i = some (o, l, lit) ∧ s.dec.pos < o.toNat :=
  ⟨.litxW8 3 7, 3, 0, 7, outAt [0x61, 0x62], by decide⟩

theorem witness_OffsetBeyondPositionRaises_equal : ∃ (i : Instr) (o l : Field) (lit : Symbol) (s : State),
    codeFields i = some (o, l, lit) ∧ 0 < o.toNat ∧ o.toNat = s.dec.pos ∧ OutputFits s.params (s.dec.pos + l.toNat + 1) ∧
    WrittenBelow s.dec.obuf s.dec.pos :=
  ⟨.copyW16 2 2 7, 2, 2, 7, outAt [0x61, 0x62], rfl, by decide, rfl, fits_outAt _, written_outAt⟩

theorem witness_CodesChangeOnlyTheirOutput : ∃ (i : Instr) (o l : Field) (lit : Symbol) (s t : State),
    codeFields i = some (o, l, lit) ∧ exec i s = .next t ∧ offsetInvalid s.dec.pos o.toNat l.toNat = false :=
  ⟨.codeW8 1 4 7, 1, 4, 7, outAt [0x61, 0x62], _, rfl, rfl, by decide⟩

theorem witness_CodesChangeOnlyTheirOutput_error : ∃ (i : Instr) (o l : Field) (lit : Symbol) (s t : State),
    codeFields i = some (o, l, lit) ∧ exec i s = .next t ∧ offsetInvalid s.dec.pos o.toNat l.toNat = true :=
  ⟨.codeW16 3 4 7, 3, 4, 7, outAt [0x61, 0x62], _, rfl, rfl, by decide⟩

theorem witness_EveryCodeAppendsItsLiteral : ∃ (i : Instr) (o l : Field) (lit : Symbol) (s t : State),
    codeFields i = some (o, l, lit) ∧ exec i s = .next t ∧ offsetInvalid s.dec.pos o.toNat l.toNat = false :=
  ⟨.copyW8 2 2 7, 2, 2, 7, outAt [0x61, 0x62], _, rfl, rfl, by decide⟩

theorem witness_FailedStepLeavesTheCursors : ∃ s t : State, s.dec.state = .busy ∧ decTick s = .next t ∧
    t.dec.state = .error :=
  ⟨decAt 0 [2, 1, 0x62] 0 [0x61], _, rfl, rfl, rfl⟩

theorem witness_ErrorIsLeftOnlyByCommandOrReset :
    (∃ s t : State, step s = .next t ∧ s.runState .dec = .error ∧ t.runState .dec ≠ .error) ∧
    (∃ s t : State, step s = .next t ∧ s.runState .enc = .error ∧ t.runState .enc ≠ .error) :=
  ⟨⟨hostTurn (.writeReg .dec 1 1) (raise .dec .invalidOffset State.reset), _, rfl, rfl, by decide⟩,
    ⟨hostTurn .reset (raise .enc .widthOverflow State.reset), _, rfl, rfl, by decide⟩⟩

/-- A step's window and pattern with an occurrence, and with none. -/
theorem witness_FinderReturnsTheRightmostMatch : ∃ (e : Enc) (p : Nat), 1 ≤ p ∧ e.ws + e.n = e.pos ∧
    WrittenBelow e.ibuf (e.pos + p) ∧ (∃ i, OccursAt e p i) ∧ ∀ i, ¬ OccursAt e (p + 1) i := by
  refine ⟨encWindow .w8 (encAt 0 [5, 5, 5] 1 1).enc, 1, by decide, by decide, ?_, ⟨0, ?_⟩, ?_⟩
  · unfold WrittenBelow; decide
  · unfold OccursAt; decide
  · rintro i ⟨h, -⟩
    have hn : (encWindow .w8 (encAt 0 [5, 5, 5] 1 1).enc).n = 1 := by decide
    omega

theorem witness_PatternLongerThanWindowIsNoMatch : ∃ (e : Enc) (p : Nat), 1 ≤ p ∧ e.n < p :=
  ⟨Enc.reset, 1, by decide⟩

theorem witness_FinderIsAFunctionOfWindowAndPattern : ∃ (e e' f f' : Enc) (p : Nat), e ≠ e' ∧ e.n = e'.n ∧
    (∀ i, i < e.n → Memory.read e.ibuf (e.ws + i) = Memory.read e'.ibuf (e'.ws + i)) ∧
    (∀ j, j < p → Memory.read e.ibuf (e.pos + j) = Memory.read e'.ibuf (e'.pos + j)) ∧
    mfFind p e = .next f ∧ mfFind p e' = .next f' :=
  ⟨encWindow .w8 (encAt 0 [5, 5, 5] 1 1).enc, encWindow .w8 (encAt 0 [5, 5, 6] 1 1).enc, _, _, 1, by decide, by decide,
    by decide, by decide, rfl, rfl⟩

theorem written_encAt : WrittenBelow (encAt 0 [5, 5, 5] 1 1).enc.ibuf 3 := by
  unfold WrittenBelow
  decide

theorem witness_EncoderStepEmitsTheLongestMatch : ∃ (w : Width) (s : State), s.enc.state = .busy ∧
    widthOf s.enc.wsel = some w ∧ s.enc.pos < s.enc.ilen ∧ WrittenBelow s.enc.ibuf s.enc.ilen ∧
    (∀ l, l ≤ s.enc.ilen - s.enc.pos - 1 → EmitFits s.params (s.enc.clen + 1) (s.enc.pos + l + 1)) :=
  ⟨.w8, encAt 0 [5, 5, 5] 1 1, rfl, rfl, by decide, written_encAt, fun _ _ => ⟨rfl, rfl⟩⟩

theorem witness_EmittedCodesKeepTheirBounds : ∃ (w : Width) (s t : State), s.enc.state = .busy ∧
    widthOf s.enc.wsel = some w ∧ s.enc.pos < s.enc.ilen ∧ encTick s = .next t :=
  ⟨.w8, encAt 0 [5, 5, 5] 1 1, _, rfl, rfl, by decide, rfl⟩

/-- The hypothesis is met in a state that no run reaches; in a run it is never met. -/
theorem witness_WidthOverflowIsNeverRaised : ∃ s t : State, step s = .next t ∧ t.enc.cause = .widthOverflow :=
  ⟨raise .enc .widthOverflow State.reset, _, rfl, rfl⟩

theorem witness_LastSymbolIsALiteral : ∃ (w : Width) (s : State) (x : Symbol), s.enc.state = .busy ∧
    widthOf s.enc.wsel = some w ∧ s.enc.pos + 1 = s.enc.ilen ∧ Memory.read s.enc.ibuf s.enc.pos = some x ∧
    EmitFits s.params (s.enc.clen + 1) s.enc.ilen :=
  ⟨.w8, encAt 0 [5, 5] 1 1, 5, rfl, rfl, by decide, by decide, ⟨rfl, rfl⟩⟩

theorem encInv_reset : EncInv State.reset.params Enc.reset :=
  ⟨rfl, rfl, by decide, by decide, fun h => absurd h (by decide), by decide, by decide, Or.inl rfl,
    fun k hk => absurd hk (by simp [Enc.reset]), fun _ => rfl, fun h => absurd h (by decide), fun _ => rfl⟩

theorem decInv_reset : DecInv State.reset.params Dec.reset :=
  ⟨rfl, rfl, by decide, by decide, fun h => absurd h (by decide), by decide, by decide,
    fun _ i hi => absurd hi (by simp [Dec.reset]), Or.inl rfl, fun _ => rfl, fun h => absurd h (by decide),
    fun h => absurd h (by decide)⟩

/-- A call's first step and its end, of both units: a loaded unit at the start of its call, and one with nothing to do. -/
theorem witness_CallEndsExactlyAtItsEnd_enc : ∃ s t s' t' : State, Inv s ∧ s.enc.state = .busy ∧ encTick s = .next t ∧
    s.enc.pos < s.enc.ilen ∧ Inv s' ∧ s'.enc.state = .busy ∧ encTick s' = .next t' ∧ s'.enc.pos = s'.enc.ilen := by
  refine ⟨encAt 0 [5, 5, 5] 0 0, _, encAt 0 [] 0 0, _, ⟨?_, decInv_reset⟩, rfl, rfl, by decide, ⟨?_, decInv_reset⟩, rfl, rfl,
    rfl⟩
  all_goals
    exact ⟨by decide, rfl, by decide, by decide, fun _ => ⟨.w8, rfl⟩, by decide, by decide, Or.inl rfl,
      fun k hk => absurd hk (by simp [encAt]), fun _ => rfl, fun h => absurd h (by decide), fun _ => rfl⟩

theorem witness_CallEndsExactlyAtItsEnd_dec : ∃ s t s' t' : State, Inv s ∧ s.dec.state = .busy ∧ decTick s = .next t ∧
    s.dec.k < s.dec.clen ∧ Inv s' ∧ s'.dec.state = .busy ∧ decTick s' = .next t' ∧ s'.dec.k = s'.dec.clen := by
  refine ⟨decAt 0 [0, 0, 0x61] 0 [], _, decAt 0 [] 0 [], _, ⟨encInv_reset, ?_⟩, rfl, rfl, by decide, ⟨encInv_reset, ?_⟩, rfl,
    rfl, rfl⟩
  all_goals
    exact ⟨by decide, rfl, by decide, by decide, fun _ => ⟨.w8, rfl⟩, by decide, by decide,
      fun _ i hi => absurd hi (by simp [decAt]), Or.inl rfl, fun _ => rfl, fun h => absurd h (by decide),
      fun h => absurd h (by decide)⟩

/-- Each unit's turn by the schedule, and by its being busy where the schedule is empty, with both units busy and with one. -/
theorem witness_CallEndsExactlyAtItsEnd_turn : ∃ (s s' e d : State) (rest : List Agent),
    nextAgent s = .enc ∧ s.schedule = .enc :: rest ∧ s.enc.state = .busy ∧ s.dec.state = .busy ∧
    nextAgent s' = .dec ∧ s'.schedule = .dec :: rest ∧
    e.schedule = [] ∧ e.dec.state ≠ .busy ∧ e.enc.state = .busy ∧ d.schedule = [] ∧ d.dec.state = .busy :=
  ⟨{ encAt 0 [5] 0 0 with schedule := [.enc], dec := (outAt [5]).dec }, { outAt [5] with schedule := [.dec] },
    encAt 0 [5] 0 0, outAt [5], [], by decide⟩

theorem witness_CursorsOnlyIncrease :
    (∃ s t : State, s.enc.state = .busy ∧ s.enc.pos < s.enc.ilen ∧ encTick s = .next t) ∧
    (∃ s t : State, s.dec.state = .busy ∧ s.dec.k < s.dec.clen ∧ decTick s = .next t ∧ t.dec.state ≠ .error) :=
  ⟨⟨encAt 0 [5, 5] 1 1, _, rfl, by decide, rfl⟩, ⟨decAt 0 [0, 0, 0x61] 0 [], _, rfl, by decide, rfl, by decide⟩⟩

/-- An encoder loaded with three symbols, not yet started. -/
def loadedEnc : State :=
  { State.reset with enc := { Enc.reset with ibuf := cellsFrom 0 [5, 5, 5], ilen := 3 } }

theorem witness_EncodeCallEndsInDone : EncLoaded .w8 [5, 5, 5] loadedEnc :=
  ⟨by decide, rfl, rfl, by unfold Holds; decide, rfl, rfl⟩

/-- The empty input. -/
theorem witness_EncodeCallEndsInDone_empty : EncLoaded .w8 [] State.reset :=
  ⟨by decide, rfl, rfl, fun i hi => absurd hi (by simp), rfl, rfl⟩

/-- `loadedEnc` with room for the given number of codes; its input takes two. -/
def loadedEncCap (c : Nat) : State :=
  withParams ⟨none, none, some c, none, none, none⟩ loadedEnc

/-- An input longer than `CCAP_E` whose codes fit it, and one whose codes do not. -/
theorem witness_EncodeCallEndsInDone_cap : EncLoaded .w8 [5, 5, 5] (loadedEncCap 2) ∧ EncLoaded .w8 [5, 5, 5] (loadedEncCap 1) ∧
    ∃ s1 t, exec .encodeCmd loadedEnc = .next s1 ∧ runAgent .enc 4 s1 = .next t ∧
      withinCap (loadedEncCap 2).params.ccapE 3 = false ∧ withinCap (loadedEncCap 2).params.ccapE t.enc.clen = true ∧
      withinCap (loadedEncCap 1).params.ccapE t.enc.clen = false :=
  ⟨⟨by decide, rfl, rfl, by unfold Holds; decide, rfl, rfl⟩, ⟨by decide, rfl, rfl, by unfold Holds; decide, rfl, rfl⟩,
    _, _, rfl, rfl, rfl, rfl, rfl⟩

/-- A decoder loaded with the given cells, not yet started. -/
def loadedDec (cells : List Field) : State :=
  { State.reset with dec := { Dec.reset with cbuf := cellsFrom 0 cells, clen := cells.length / 3 } }

/-- V-D1, which ends in `DONE`. -/
theorem witness_DecodeCallEndsInDoneOrError : DecLoaded .w8 (loadedDec [0, 0, 0x61, 1, 4, 0x62]) := by
  refine ⟨by decide, rfl, ?_, rfl, rfl, rfl⟩
  intro k hk
  have hk : k < 2 := hk
  match k, hk with
  | 0, _ => exact ⟨0, 0, 0x61, by decide, by decide, by decide, by decide, by decide⟩
  | 1, _ => exact ⟨1, 4, 0x62, by decide, by decide, by decide, by decide, by decide⟩

/-- V-D8, which ends in `ERROR`. -/
theorem witness_DecodeCallEndsInDoneOrError_error : DecLoaded .w8 (loadedDec [0, 2, 0x61]) := by
  refine ⟨by decide, rfl, ?_, rfl, rfl, rfl⟩
  intro k hk
  have hk : k < 1 := hk
  match k, hk with
  | 0, _ => exact ⟨0, 2, 0x61, by decide, by decide, by decide, by decide, by decide⟩

/-- V-E4 and its codes, V-X12. -/
theorem witness_DecodeOfEncodeGivesTheInputBack : EncLoaded .w8 [5, 5, 5] loadedEnc ∧
    ∃ s1 t, exec .encodeCmd loadedEnc = .next s1 ∧ runAgent .enc 4 s1 = .next t ∧
      DecLoadedFrom t.enc .w8 3 (loadedDec [0, 0, 5, 1, 1, 5]) :=
  ⟨witness_EncodeCallEndsInDone, _, _, rfl, rfl, by decide, rfl, by decide, by unfold SameBelow; decide, rfl, rfl, rfl⟩

/-- Another encoder with the same input below the length and another symbol beyond it, other codes in its buffer, other working
registers and another position. -/
theorem witness_EncodeDependsOnlyOnItsInput : ∃ (s s' t : State) (k : Nat), s.enc.ibuf ≠ s'.enc.ibuf ∧ s.params = s'.params ∧
    s.enc.wsel = s'.enc.wsel ∧ s.enc.ilen = s'.enc.ilen ∧ SameBelow s.enc.ilen s.enc.ibuf s'.enc.ibuf ∧
    runAgent .enc k (beginCall .enc s) = .next t ∧ t.enc.state ≠ .error :=
  ⟨loadedEnc, { loadedEnc with enc := { loadedEnc.enc with
      ibuf := cellsFrom 0 [5, 5, 5, 8], cbuf := cellsFrom 0 [9, 9, 9], clen := 1, mfM := 7, pos := 2 } }, _,
    4, by decide, rfl, rfl, rfl, by unfold SameBelow; decide, rfl, by decide⟩

/-- Another decoder with the same codes and another cell beyond them, another output and another position. -/
theorem witness_DecodeDependsOnlyOnItsInput : ∃ (s s' t : State) (k : Nat), s.dec.cbuf ≠ s'.dec.cbuf ∧ s.params = s'.params ∧
    s.dec.wsel = s'.dec.wsel ∧ s.dec.clen = s'.dec.clen ∧ SameBelow (codeCells s.dec.clen) s.dec.cbuf s'.dec.cbuf ∧
    runAgent .dec k (beginCall .dec s) = .next t ∧ t.dec.state ≠ .error :=
  ⟨loadedDec [0, 0, 5, 1, 1, 5],
    { loadedDec [0, 0, 5, 1, 1, 5] with dec := { (loadedDec [0, 0, 5, 1, 1, 5, 9]).dec with obuf := cellsFrom 0 [9], pos := 1 } },
    _, 3, by decide, rfl, rfl, rfl, by unfold SameBelow; decide, rfl, by decide⟩

/-- Both units busy. -/
def bothBusy : State :=
  { encAt 0 [5, 5] 1 1 with dec := (decAt 0 [0, 0, 0x61] 0 []).dec }

theorem witness_UnitsCommute : ∃ s a b : State, encTick s = .next a ∧ decTick s = .next b ∧ a ≠ s ∧ b ≠ s :=
  ⟨bothBusy, _, _, rfl, rfl, by decide, by decide⟩

/-- The same with a decoder that fails. -/
theorem witness_UnitsCommute_error : ∃ s a b : State, encTick s = .next a ∧ decTick s = .next b ∧ a ≠ s ∧
    b.dec.state = .error :=
  ⟨{ encAt 0 [5, 5] 1 1 with dec := (decAt 0 [2, 1, 0x62] 0 [0x61]).dec }, _, _, rfl, rfl, by decide, rfl⟩

theorem witness_UnitsShareNothing :
    (∃ s t u : State, encTick s = .next t ∧ u.enc = s.enc ∧ u.params = s.params ∧ u ≠ s ∧ t ≠ s) ∧
    (∃ s t u : State, decTick s = .next t ∧ u.dec = s.dec ∧ u.params = s.params ∧ u ≠ s ∧ t ≠ s) :=
  ⟨⟨bothBusy, _, encAt 0 [5, 5] 1 1, rfl, rfl, rfl, by decide, by decide⟩,
    ⟨bothBusy, _, decAt 0 [0, 0, 0x61] 0 [], rfl, rfl, rfl, by decide, by decide⟩⟩

theorem witness_StepRunsTheCommandWritten : ∃ (s : State) (u : UnitId) (v : Nat) (rest : List HostMove) (i : Instr),
    nextAgent s = .host ∧ s.pending = .writeReg u 1 v :: rest ∧ withinPosw s.params v = true ∧
    decode (.command u v) = .instr i :=
  ⟨hostTurn (.writeReg .dec 1 1) State.reset, .dec, 1, [], .decodeCmd, rfl, rfl, rfl, rfl⟩

/-- A move that is no command, a turn with no move to make, and a host whose turn it is because neither unit is busy. -/
theorem witness_StepRunsTheCommandWritten_turn : ∃ (s s' s'' : State) (m : HostMove) (rest : List HostMove),
    nextAgent s = .host ∧ s.pending = m :: rest ∧ nextAgent s' = .host ∧ s'.pending = [] ∧ s'.enc.state = .busy ∧
    s''.schedule = [] ∧ s''.dec.state ≠ .busy ∧ s''.enc.state ≠ .busy :=
  ⟨hostTurn (.writeIbuf 0 5) State.reset, { encAt 0 [5] 0 0 with schedule := [.host] }, State.reset, .writeIbuf 0 5, [],
    by decide⟩

theorem witness_StepRunsTheCodeAtTheCursor : ∃ (s : State) (w : Width) (o l c : Field) (i : Instr),
    nextAgent s = .dec ∧ s.dec.state = .busy ∧ s.dec.k < s.dec.clen ∧ widthOf s.dec.wsel = some w ∧
    Memory.read s.dec.cbuf (cellIndex s.dec.k 0) = some o ∧ Memory.read s.dec.cbuf (cellIndex s.dec.k 1) = some l ∧
    Memory.read s.dec.cbuf (cellIndex s.dec.k 2) = some c ∧
    decode (rawCode w (narrowCell w (cellIndex s.dec.k 0) o) (narrowCell w (cellIndex s.dec.k 1) l)
      (narrowCell w (cellIndex s.dec.k 2) c)) = .instr i :=
  ⟨decAt 0 [0, 0, 0x61, 1, 1, 0x62] 1 [0x61], .w8, 1, 1, 0x62, .copyW8 1 1 0x62, by decide, by decide, by decide, by decide,
    by decide, by decide, by decide, by decide⟩

/-- The same of a code whose offset cell is too wide for the width: it decodes too, whatever is read of that cell. -/
theorem witness_StepRunsTheCodeAtTheCursor_wide : ∃ (s : State) (w : Width) (o l c : Field) (i : Instr),
    wmax w < o.toNat ∧ nextAgent s = .dec ∧ s.dec.state = .busy ∧ s.dec.k < s.dec.clen ∧ widthOf s.dec.wsel = some w ∧
    Memory.read s.dec.cbuf (cellIndex s.dec.k 0) = some o ∧ Memory.read s.dec.cbuf (cellIndex s.dec.k 1) = some l ∧
    Memory.read s.dec.cbuf (cellIndex s.dec.k 2) = some c ∧
    decode (rawCode w (narrowCell w (cellIndex s.dec.k 0) o) (narrowCell w (cellIndex s.dec.k 1) l)
      (narrowCell w (cellIndex s.dec.k 2) c)) = .instr i :=
  ⟨decAt 0 [0x100, 0, 0x61] 0 [], .w8, 0x100, 0, 0x61, _, by decide, by decide, by decide, by decide, by decide, by decide,
    by decide, by decide, rfl⟩

/-- A command word that fits the registers, and a code word, whose size does not matter. -/
theorem witness_FetchedTableWordRunsNext : ∃ (s : State) (i i' : Instr), decodeTableWord 32 1 = some i ∧
    withinPosw s.params 1 = true ∧ decodeTableWord 24 0x040364 = some i' ∧ withinPosw s.params 0x040364 = false :=
  ⟨withParams smallParams State.reset, .encodeCmd, .copyW8 4 3 0x64, by decide⟩

/-- A step of a state with a call running. -/
theorem witness_StepKeepsTheInvariant : ∃ s t : State, Inv s ∧ step s = .next t ∧ t ≠ s ∧ s.dec.state = .busy := by
  refine ⟨decAt 0 [0, 0, 0x61] 0 [], _, ⟨encInv_reset, ?_⟩, rfl, by decide, rfl⟩
  exact ⟨by decide, rfl, by decide, by decide, fun _ => ⟨.w8, rfl⟩, by decide, by decide,
    fun _ i hi => absurd hi (by simp [decAt]), Or.inl rfl, fun _ => rfl, fun h => absurd h (by decide),
      fun h => absurd h (by decide)⟩

/-- A reset during a call. -/
theorem witness_ResetLeavesTheUnitsIdle : ∃ s t : State, hostMove .reset s = .next t ∧ s.enc.state = .busy :=
  ⟨bothBusy, _, rfl, rfl⟩

/-- The last index of each buffer's capacity. -/
theorem witness_HostReadsBackWhatItWrote : ∃ s t t' : State, hostMove (.writeIbuf 1 7) s = .next t ∧
    hostMove (.writeDecCbuf 2 7) s = .next t' :=
  ⟨withParams smallParams State.reset, _, _, rfl, rfl⟩

/-- Two units that have ended their calls: one code emitted, after a call that emitted more; two symbols decoded, after a call
that failed at its fourth. -/
def bothDone : State :=
  { State.reset with
    enc := { Enc.reset with
      ibuf := cellsFrom 0 [5], ilen := 1, pos := 1, clen := 1, cbuf := cellsFrom 0 [0, 0, 5, 1], state := .done
      past := [⟨3, false⟩, ⟨6, false⟩] }
    dec := { Dec.reset with
      cbuf := cellsFrom 0 [0, 0, 5], clen := 1, k := 1, obuf := cellsFrom 0 [5, 6, 7], pos := 2, state := .done
      past := [⟨2, false⟩, ⟨3, true⟩] } }

/-- The last cell of each result, and a cell beyond it that an earlier call left. -/
theorem witness_HostReadsBackWhatItWrote_results : ∃ (s : State) (x y : Symbol) (f g h : Field),
    s.enc.state ≠ .busy ∧ s.dec.state ≠ .busy ∧
    withinBuffer s.params .ibuf 0 = true ∧ Memory.read s.enc.ibuf 0 = some x ∧
    withinBuffer s.params .encCbuf 2 = true ∧ failedCall s.enc.past 2 = none ∧ Memory.read s.enc.cbuf 2 = some f ∧
    withinBuffer s.params .encCbuf 3 = true ∧ failedCall s.enc.past 3 = none ∧ Memory.read s.enc.cbuf 3 = some g ∧
    withinBuffer s.params .decCbuf 2 = true ∧ Memory.read s.dec.cbuf 2 = some h ∧
    withinBuffer s.params .obuf 1 = true ∧ failedCall s.dec.past 1 = none ∧ Memory.read s.dec.obuf 1 = some y :=
  ⟨bothDone, 5, 6, 5, 1, 5, by decide⟩

/-- The cell beyond the result was written by the failed call, the first call since reset. -/
theorem test_failed_call_is_found : failedCall bothDone.dec.past 1 = none ∧ failedCall bothDone.dec.past 2 = some 0 ∧
    failedCall bothDone.dec.past 3 = none := by decide

/-- A decoder whose first call has ended after one symbol, in `DONE` or in `ERROR`. -/
def endedDec (failed : Bool) : State :=
  { State.reset with dec := { Dec.reset with
      obuf := [(0, 5)], pos := 1, k := 1, clen := 2, past := [⟨1, failed⟩]
      state := if failed then .error else .done, cause := if failed then .invalidOffset else .none } }

theorem witness_HostReadsBackWhatItWrote_done : Inv (endedDec false) ∧ (endedDec false).dec.state = .done ∧
    0 < (endedDec false).dec.pos := by
  refine ⟨⟨encInv_reset, ⟨rfl, rfl, by decide, by decide, fun h => absurd h (by decide), by decide, by decide, ?_,
    Or.inr ⟨rfl, rfl⟩, fun h => absurd h (by decide), fun _ => ⟨[], rfl⟩, fun h => absurd h (by decide)⟩⟩, rfl, by decide⟩
  intro _ i hi
  obtain rfl : i = 0 := Nat.lt_one_iff.mp hi
  exact ⟨5, rfl⟩

theorem witness_OpenReadsComplete_error : Inv (endedDec true) ∧ (endedDec true).dec.state = .error ∧
    0 < (endedDec true).dec.pos :=
  ⟨⟨encInv_reset, ⟨rfl, rfl, by decide, by decide, fun h => absurd h (by decide), by decide, by decide,
    fun h => absurd rfl h, Or.inr ⟨rfl, rfl⟩, fun h => absurd h (by decide), fun h => absurd h (by decide),
    fun _ => ⟨[], rfl⟩⟩⟩, rfl, by decide⟩

theorem witness_BusyUnitRefusesHostWrites : ∃ (u : UnitId) (n v : Nat) (s : State), s.runState u = .busy ∧ n ≤ 5 ∧ n ≠ 1 ∧
    withinPosw s.params v = true ∧ s.enc.state = .busy ∧ s.dec.state = .busy :=
  ⟨.enc, 5, 255, withParams smallParams bothBusy, by decide⟩

theorem witness_HostConfiguresAnIdleUnit : ∃ (s : State) (v : Nat), withinPosw s.params v = true ∧ s.enc.state ≠ .busy ∧
    s.dec.state ≠ .busy ∧ v < 4 :=
  ⟨withParams smallParams State.reset, 3, by decide⟩

/-- The last cell within each input buffer's capacity. -/
theorem witness_HostConfiguresAnIdleUnit_cells : ∃ (s : State) (i j : Nat), s.enc.state ≠ .busy ∧
    withinBuffer s.params .ibuf i = true ∧ withinBuffer s.params .ibuf (i + 1) = false ∧ s.dec.state ≠ .busy ∧
    withinBuffer s.params .decCbuf j = true ∧ withinBuffer s.params .decCbuf (j + 1) = false :=
  ⟨withParams smallParams State.reset, 1, 2, by decide⟩

theorem witness_HostReadsTheRegisters : ∃ s : State, s.enc.state ≠ .busy ∧ s.dec.state ≠ .busy :=
  ⟨State.reset, by decide⟩

theorem witness_UnitsNeverChangeTheirInputs : ∃ s t t' : State, encTick s = .next t ∧ decTick s = .next t' ∧ t ≠ s ∧ t' ≠ s :=
  ⟨bothBusy, _, _, rfl, rfl, by decide, by decide⟩

theorem witness_UnitsNeverChangeTheirInputs_hold : ∃ s s' : State, s.enc.state = .done ∧ s.dec.state = .done ∧
    s'.enc.state = .idle ∧ s'.dec.state = .idle :=
  ⟨bothDone, State.reset, by decide⟩

theorem witness_HostNeverWritesAnOutputBuffer : ∃ (m : HostMove) (s t : State), m ≠ .reset ∧ hostMove m s = .next t ∧
    m ≠ .writeReg .enc 1 1 ∧ m ≠ .writeReg .dec 1 1 ∧ t ≠ s :=
  ⟨.writeReg .enc 3 2, State.reset, _, by decide, rfl, by decide, by decide, by decide⟩

/-- `ENCODE` by itself, for the clause about `DEC`. -/
theorem witness_HostNeverWritesAnOutputBuffer_command : ∃ (m : HostMove) (s t : State), m ≠ .reset ∧
    hostMove m s = .next t ∧ m = .writeReg .enc 1 1 ∧ m ≠ .writeReg .dec 1 1 :=
  ⟨.writeReg .enc 1 1, State.reset, _, by decide, rfl, rfl, by decide⟩

theorem witness_UnwrittenCellFaults_enc : ∃ (s : State) (w : Width), s.enc.state = .busy ∧ widthOf s.enc.wsel = some w ∧
    s.enc.pos < s.enc.ilen ∧ Memory.read s.enc.ibuf s.enc.pos = none :=
  ⟨{ encAt 0 [] 0 0 with enc := { (encAt 0 [] 0 0).enc with ilen := 1 } }, .w8, by decide⟩

/-- A busy decoder with one code to run, of whose cells only the given ones are written. -/
def oneCode (cells : List Field) : State :=
  { decAt 0 cells 0 [] with dec := { (decAt 0 cells 0 []).dec with clen := 1 } }

/-- A busy encoder of three symbols, of which only the given ones are written, at a cursor. -/
def holedEnc (cells : List Host.Cell) (pos : Nat) : State :=
  { encAt 0 [] pos 1 with enc := { (encAt 0 [] pos 1).enc with ibuf := cells, ilen := 3 } }

/-- The window's last symbol is missing; and the symbol beyond a match of length 1. -/
theorem witness_UnwrittenCellFaults_search : ∃ (s s' : State) (w : Width) (x : Symbol),
    s.enc.state = .busy ∧ widthOf s.enc.wsel = some w ∧ s.enc.pos < s.enc.ilen ∧
    Memory.read s.enc.ibuf s.enc.pos = some x ∧ 1 ≤ s.enc.pos ∧ s.enc.pos + 1 < s.enc.ilen ∧
    Memory.read s.enc.ibuf (s.enc.pos - 1) = none ∧
    s'.enc.state = .busy ∧ widthOf s'.enc.wsel = some w ∧ s'.enc.pos + 1 < s'.enc.ilen ∧
    WrittenBelow s'.enc.ibuf (s'.enc.pos + 1) ∧ (∃ i, OccursAt (encWindow w s'.enc) 1 i) ∧
    Memory.read s'.enc.ibuf (s'.enc.pos + 1) = none := by
  refine ⟨holedEnc [(1, 5)] 1, holedEnc [(0, 5), (1, 5)] 1, .w8, 5, rfl, rfl, by decide, by decide, by decide, by decide,
    by decide, rfl, rfl, by decide, ?_, ⟨0, ?_⟩, by decide⟩
  · unfold WrittenBelow; decide
  · unfold OccursAt; decide

/-- The second pair of a comparison: its first cell missing, and its second. -/
theorem witness_UnwrittenCellFaults_compare : ∃ (m m' : List Host.Cell) (a b p j : Nat) (x : Symbol), j < p ∧
    (∀ i, i < j → ∃ x, Memory.read m (a + i) = some x ∧ Memory.read m (b + i) = some x) ∧ Memory.read m (a + j) = none ∧
    (∀ i, i < j → ∃ x, Memory.read m' (a + i) = some x ∧ Memory.read m' (b + i) = some x) ∧
    Memory.read m' (a + j) = some x ∧ Memory.read m' (b + j) = none :=
  ⟨[(0, 5), (4, 5)], [(0, 5), (1, 6), (4, 5)], 0, 4, 2, 1, 6, by decide, by decide, by decide, by decide, by decide, by decide⟩

/-- A copy whose second source cell is missing. -/
theorem witness_UnwrittenCellFaults_copy : ∃ (i : Instr) (o l : Field) (lit : Symbol) (s : State) (j : Nat),
    codeFields i = some (o, l, lit) ∧ o.toNat ≤ s.dec.pos ∧ j < o.toNat ∧ j < l.toNat ∧
    OutputFits s.params (s.dec.pos + l.toNat + 1) ∧
    (∀ a, a < j → ∃ v, Memory.read s.dec.obuf (s.dec.pos - o.toNat + a) = some v) ∧
    Memory.read s.dec.obuf (s.dec.pos - o.toNat + j) = none :=
  ⟨.copyW8 2 2 7, 2, 2, 7, { outAt [5, 6] with dec := { (outAt [5, 6]).dec with obuf := [(0, 5)] } }, 1, rfl, by decide,
    by decide, by decide, ⟨rfl, rfl⟩, by decide, by decide⟩

/-- Each unit does fault. -/
theorem witness_UnwrittenCellFaults_only : ∃ (s s' : State) (f f' : Fault), encTick s = .fault f ∧ decTick s' = .fault f' :=
  ⟨holedEnc [] 1, oneCode [], _, _, rfl, rfl⟩

/-- The three cells of a code, each missing in turn. -/
theorem witness_UnwrittenCellFaults_dec : ∃ (s s' s'' : State) (w : Width) (o l : Field),
    s.dec.state = .busy ∧ widthOf s.dec.wsel = some w ∧ s.dec.k < s.dec.clen ∧
    Memory.read s.dec.cbuf (cellIndex s.dec.k 0) = none ∧
    s'.dec.state = .busy ∧ widthOf s'.dec.wsel = some w ∧ s'.dec.k < s'.dec.clen ∧
    Memory.read s'.dec.cbuf (cellIndex s'.dec.k 0) = some o ∧ Memory.read s'.dec.cbuf (cellIndex s'.dec.k 1) = none ∧
    s''.dec.state = .busy ∧ widthOf s''.dec.wsel = some w ∧ s''.dec.k < s''.dec.clen ∧
    Memory.read s''.dec.cbuf (cellIndex s''.dec.k 0) = some o ∧ Memory.read s''.dec.cbuf (cellIndex s''.dec.k 1) = some l ∧
    Memory.read s''.dec.cbuf (cellIndex s''.dec.k 2) = none :=
  ⟨oneCode [], oneCode [1], oneCode [1, 2], .w8, 1, 2, by decide⟩

theorem witness_UnwrittenCellFaults_host : ∃ (s : State) (i j : Nat), s.enc.state ≠ .busy ∧ s.dec.state = .error ∧
    withinBuffer s.params .ibuf i = true ∧ Memory.read s.enc.ibuf i = none ∧
    withinBuffer s.params .encCbuf j = true ∧ Memory.read s.enc.cbuf j = none ∧
    withinBuffer s.params .decCbuf j = true ∧ Memory.read s.dec.cbuf j = none ∧
    withinBuffer s.params .obuf i = true ∧ Memory.read s.dec.obuf i = none :=
  ⟨withParams smallParams (raise .dec .invalidOffset State.reset), 1, 2, by decide⟩

theorem witness_LiteralCellAbove255IsRefused : ∃ (s : State) (w : Width) (o l c : Field), s.dec.state = .busy ∧
    widthOf s.dec.wsel = some w ∧ s.dec.k < s.dec.clen ∧ Memory.read s.dec.cbuf (cellIndex s.dec.k 0) = some o ∧
    Memory.read s.dec.cbuf (cellIndex s.dec.k 1) = some l ∧ Memory.read s.dec.cbuf (cellIndex s.dec.k 2) = some c ∧
    c.toNat ≤ wmax w ∧ 255 < c.toNat :=
  ⟨decAt 1 [0x10000, 0, 256] 0 [], .w16, 0x10000, 0, 256, by decide, by decide, by decide, by decide, by decide, by decide,
    by decide, by decide⟩

theorem witness_OpenReadsComplete_busy : ∃ s : State, s.runState .enc = .busy ∧ s.runState .dec = .busy ∧
    withinBuffer s.params .ibuf 1 = true ∧ withinBuffer s.params .obuf 1 = true ∧ Space.owner .ibuf = .enc ∧
    Space.owner .obuf = .dec :=
  ⟨withParams smallParams bothBusy, by decide⟩

/-- A cell of a failed call within the output, and one left over beyond a later result; `ENC`'s in a state that no run reaches. -/
theorem witness_OpenReadsComplete_failed : ∃ (s s' : State) (x : Field) (y z : Symbol) (n n' n'' : Nat),
    withinBuffer s.params .encCbuf 2 = true ∧ s.enc.state ≠ .busy ∧ Memory.read s.enc.cbuf 2 = some x ∧
    failedCall s.enc.past 2 = some n ∧
    withinBuffer s.params .obuf 2 = true ∧ s.dec.state ≠ .busy ∧ Memory.read s.dec.obuf 2 = some y ∧
    failedCall s.dec.past 2 = some n' ∧
    withinBuffer s'.params .obuf 0 = true ∧ s'.dec.state = .error ∧ Memory.read s'.dec.obuf 0 = some z ∧
    failedCall s'.dec.past 0 = some n'' :=
  ⟨raise .enc .widthOverflow bothDone, endedDec true, 5, 7, 5, 2, 0, 0, by decide⟩

end Sys2Proof.Tests
end

section
/-! SUPPORT. The proofs of 00_scope.md: the widths, the capacities, the units' independence, and a whole `ENCODE` call. -/

namespace Sys2Proof.Machine

/-! ## One transition of the encoder: which case it is, and what the parameters decide -/

theorem encTick_of_running {w : Width} {s : State} (hb : s.enc.state = .busy) (hpos : s.enc.pos < s.enc.ilen)
    (hw : widthOf s.enc.wsel = some w) : encTick s = encStep w s := by
  simp only [encTick, hb, hpos, if_true, hw]

theorem encTick_of_end {s : State} (hb : s.enc.state = .busy) (hpos : s.enc.ilen ≤ s.enc.pos) :
    encTick s = .next (endCall .enc s) := by
  simp only [encTick, hb, Nat.not_lt.mpr hpos, if_false]

theorem encTick_of_not_busy {s : State} (hb : s.enc.state ≠ .busy) : encTick s = .next s := by
  cases hs : s.enc.state with
  | busy => exact absurd hs hb
  | idle => simp only [encTick, hs]
  | done => simp only [encTick, hs]
  | error => simp only [encTick, hs]

/-- A transition of the encoder changes the encoder only (00_scope.md R3). -/
theorem encTick_frame {s t : State} (h : encTick s = .next t) : t = { s with enc := t.enc } := by
  rcases encTick_cases h with ⟨-, -, w, -, f, l, hstep⟩ | ⟨-, -, rfl⟩ | ⟨-, rfl⟩
  · rw [hstep.result]
  · rfl
  · rfl

/-- The code count never falls (10_state.md R45). -/
theorem encTick_clen_le {s t : State} (h : encTick s = .next t) : s.enc.clen ≤ t.enc.clen := by
  rcases encTick_cases h with ⟨-, -, w, -, f, l, hstep⟩ | ⟨-, -, rfl⟩ | ⟨-, rfl⟩
  · rw [hstep.result]
    exact Nat.le_succ _
  · exact Nat.le_refl _
  · exact Nat.le_refl _

/-- A step that completes had room for the code it emits. -/
theorem encTick_fits {s t : State} (h : encTick s = .next t) (hb : s.enc.state = .busy) (hpos : s.enc.pos < s.enc.ilen) :
    EmitFits s.params t.enc.clen t.enc.pos := by
  rcases encTick_cases h with ⟨-, -, w, -, f, l, hstep⟩ | ⟨-, hend, -⟩ | ⟨hnb, -⟩
  · rw [hstep.result]
    exact hstep.fits
  · omega
  · exact absurd hb hnb

/-- The search of a step that completes reads the encoder alone: the parameters come in only at the emission. -/
theorem encStep_emits {w : Width} {s t : State} (h : encStep w s = .next t) : ∃ f,
    encEmit { s with enc := f } = .next t ∧ ∀ u : State, u.enc = s.enc → encStep w u = encEmit { u with enc := f } := by
  simp only [encStep, andThen_eq_next] at h
  obtain ⟨e, he, ⟨b, f⟩, hf, h⟩ := h
  obtain ⟨hwe, -, hc0⟩ := encTrivial_spec he
  obtain ⟨rfl, -⟩ := encSearch_spec (l := 0) (by rw [hwe.n]; exact (window_bounds w s.enc.pos).2) (by omega) hc0 hf
  refine ⟨f, h, fun u hu => ?_⟩
  simp only [encStep, hu, he, andThen_next, hf, Bool.false_eq_true, if_false]

/-- The step that one machine completes, the same encoder makes in any other machine whose parameters allow its result, and is
refused in one whose parameters do not (00_scope.md R10). -/
theorem encTick_transfer {s t u : State} (h : encTick s = .next t) (hb : s.enc.state = .busy)
    (hpos : s.enc.pos < s.enc.ilen) (hu : u.enc = s.enc) :
    encTick u = if withinCap u.params.ccapE t.enc.clen && withinPosw u.params t.enc.pos then .next { u with enc := t.enc }
      else .refused .capacity := by
  rcases encTick_cases h with ⟨-, -, w, hw, -⟩ | ⟨-, hend, -⟩ | ⟨hnb, -⟩
  · rw [encTick_of_running hb hpos hw] at h
    obtain ⟨f, hemit, hstep⟩ := encStep_emits h
    obtain ⟨-, rfl⟩ := encEmit_spec hemit
    rw [encTick_of_running (hu ▸ hb) (hu ▸ hpos) (hu ▸ hw), hstep u hu]
    rfl
  · omega
  · exact absurd hb hnb

/-- A transition that one machine's encoder makes, the same encoder makes in any other machine with the same parameters. -/
theorem encTick_transfer_sameParams {s t u : State} (h : encTick s = .next t) (he : u.enc = s.enc)
    (hp : u.params = s.params) : encTick u = .next { u with enc := t.enc } := by
  rcases encTick_cases h with ⟨hb, hpos, -⟩ | ⟨hb, hend, rfl⟩ | ⟨hb, rfl⟩
  · rw [encTick_transfer h hb hpos he, hp]
    exact if_pos (Bool.and_eq_true_iff.mpr (encTick_fits h hb hpos))
  · rw [encTick_of_end (he ▸ hb) (he ▸ hend)]
    simp only [endCall, endedCall, he]
  · rw [encTick_of_not_busy (he ▸ hb), ← he]

/-! ## One transition of the decoder, in any machine -/

theorem decTick_of_end {s : State} (hb : s.dec.state = .busy) (hk : s.dec.clen ≤ s.dec.k) :
    decTick s = .next (endCall .dec s) := by
  simp only [decTick, hb, Nat.not_lt.mpr hk, if_false]

theorem decTick_of_not_busy {s : State} (hb : s.dec.state ≠ .busy) : decTick s = .next s := by
  cases hs : s.dec.state with
  | busy => exact absurd hs hb
  | idle => simp only [decTick, hs]
  | done => simp only [decTick, hs]
  | error => simp only [decTick, hs]

/-- A code that one machine executes, the same decoder executes alike in any other machine with the same parameters. -/
theorem decCode_transfer {o l : Field} {lit : Symbol} {s t u : State} (h : decCode o l lit s = .next t)
    (hd : u.dec = s.dec) (hp : u.params = s.params) : decCode o l lit u = .next { u with dec := t.dec } := by
  unfold decCode at h ⊢
  rw [hd, hp]
  split at h
  · rename_i hinv
    obtain rfl := Host.Outcome.next.inj h
    rw [if_pos hinv]
    rfl
  · rename_i hval
    split at h
    · rename_i hfit
      obtain ⟨d, hcopy, ht⟩ := andThen_eq_next.mp h
      obtain rfl := Host.Outcome.next.inj ht
      rw [if_neg hval, if_pos hfit, hcopy, andThen_next]
    · cases h

/-- A transition that one machine's decoder makes, the same decoder makes in any other machine with the same parameters. -/
theorem decTick_transfer {s t u : State} (h : decTick s = .next t) (hd : u.dec = s.dec) (hp : u.params = s.params) :
    decTick u = .next { u with dec := t.dec } := by
  rcases decTick_cases h with ⟨hb, hk, w, o, l, c, hw, ho, hl, hc, hlit, hcode⟩ | ⟨hb, hk, rfl⟩ | ⟨hb, rfl⟩
  · rw [decTick_of_reads (hd ▸ hb) (hd ▸ hk) (hd ▸ hw) (hd ▸ ho) (hd ▸ hl) (hd ▸ hc), hd, if_neg (by omega)]
    exact decCode_transfer hcode hd hp
  · rw [decTick_of_end (hd ▸ hb) (hd ▸ hk)]
    simp only [endCall, endedCall, hd]
  · rw [decTick_of_not_busy (hd ▸ hb), ← hd]

theorem SameEncResult.refl (e : Enc) : SameEncResult e e := ⟨rfl, fun _ => rfl⟩

theorem SameDecResult.refl (d : Dec) : SameDecResult d d := ⟨rfl, fun _ => rfl⟩

/-! ## Capacities -/

theorem withinCap_zero (c : Option Nat) : withinCap c 0 = true := by
  cases c <;> simp [withinCap]

theorem withinCap_mono {c : Option Nat} {m n : Nat} (h : withinCap c n = true) (hmn : m ≤ n) : withinCap c m = true := by
  cases c with
  | none => rfl
  | some b =>
    simp only [withinCap, decide_eq_true_eq] at h ⊢
    omega

theorem withinPosw_mono {p : Params} {m n : Nat} (h : withinPosw p n = true) (hmn : m ≤ n) : withinPosw p m = true := by
  cases hp : p.posw with
  | none => simp only [withinPosw, hp]
  | some b =>
    simp only [withinPosw, hp, decide_eq_true_eq] at h ⊢
    exact Nat.lt_of_le_of_lt hmn h

/-- A code buffer with room for `c` codes has `3c` cells (20_memory.md R51, R59). -/
theorem withinCap_codeCells (c i : Nat) : withinCap (Option.map codeCells (some c)) (i + 1) = true ↔ i < 3 * c := by
  simp only [Option.map_some, withinCap, codeCells, decide_eq_true_eq]
  omega

/-- A command to a unit that is not busy, with a valid width, answers by the capacity alone (43_commands.md R141). -/
theorem execEncode_of_width {s : State} {w : Width} (hb : s.enc.state ≠ .busy) (hw : widthOf s.enc.wsel = some w) :
    exec .encodeCmd s = if withinCap s.params.icap s.enc.ilen then .next (beginCall .enc s) else .refused .capacity := by
  simp only [exec, execEncode, hb, if_false, hw]

/-- A command to a unit that is not busy, with a valid width, answers by the capacity alone (43_commands.md R142). -/
theorem execDecode_of_width {s : State} {w : Width} (hb : s.dec.state ≠ .busy) (hw : widthOf s.dec.wsel = some w) :
    exec .decodeCmd s = if withinCap s.params.ccapD s.dec.clen then .next (beginCall .dec s) else .refused .capacity := by
  simp only [exec, execDecode, hb, if_false, hw]

/-- An admitted code whose output does not fit is refused (20_memory.md R60). -/
theorem decCode_refused {o l : Field} {lit : Symbol} {s : State} (hval : offsetInvalid s.dec.pos o.toNat l.toNat = false)
    (hfit : withinCap s.params.ocap (s.dec.pos + l.toNat + 1) = false ∨
      withinPosw s.params (s.dec.pos + l.toNat + 1) = false) : decCode o l lit s = .refused .capacity := by
  have hroom := Bool.and_eq_false_iff.mpr hfit
  simp only [decCode, hval, hroom, Bool.false_eq_true, if_false]

/-! ## The symbols that codes stand for -/

/-- Only the length cells of the codes count. -/
theorem producedBelow_congr {m m' : List (Nat × Field)} {k : Nat}
    (h : ∀ j, j < k → Memory.read m (cellIndex j 1) = Memory.read m' (cellIndex j 1)) :
    producedBelow m k = producedBelow m' k := by
  induction k with
  | zero => rfl
  | succ k ih => simp only [producedBelow, h k (Nat.lt_succ_self k), ih fun j hj => h j (Nat.lt_succ_of_lt hj)]

/-- A code written after `k` others adds its length and its literal (30_encoding.md R76). -/
theorem producedBelow_writeCode (m : List (Nat × Field)) (k : Nat) (o l : Field) (lit : Symbol) :
    producedBelow (writeCode m k o l lit) (k + 1) = producedBelow m k + (l.toNat + 1) := by
  have hbefore : producedBelow (writeCode m k o l lit) k = producedBelow m k :=
    producedBelow_congr fun j hj =>
      read_writeCode_other m k o l lit (Or.inl (by simp only [cellIndex, codeCells]; omega))
  simp only [producedBelow, read_writeCode_length, hbefore]

/-! ## A whole `ENCODE` call -/

theorem Holds.writtenBelow {n : Nat} {m : List (Nat × BitVec n)} {xs : List (BitVec n)} (h : Holds m xs) :
    WrittenBelow m xs.length :=
  fun i hi => ⟨xs[i], by rw [h i hi, List.getElem?_eq_getElem hi]⟩

/-- A unit that is not busy holds its state however often it is given its turn. -/
theorem runAgent_enc_of_not_busy {s : State} (hb : s.enc.state ≠ .busy) (k : Nat) : runAgent .enc k s = .next s := by
  induction k with
  | zero => rfl
  | succ k ih => simp only [runAgent, agentTick, encTick_of_not_busy hb, andThen_next, ih]

/-- What a running call on `n` symbols with an unbounded code buffer keeps: the input is loaded and fits, no error, at most one
code for each symbol passed and at least one after the first, and the codes stand for the symbols passed (41_encoder.md R113). -/
structure Encoding (w : Width) (n : Nat) (s : State) : Prop where
  busy : s.enc.state = .busy
  noCause : s.enc.cause = .none
  width : widthOf s.enc.wsel = some w
  length : s.enc.ilen = n
  input : WrittenBelow s.enc.ibuf n
  noCap : s.params.ccapE = none
  cursorFits : withinPosw s.params n = true
  cursor : s.enc.pos ≤ n
  atMost : s.enc.clen ≤ s.enc.pos
  atLeast : 1 ≤ s.enc.pos → 1 ≤ s.enc.clen
  produced : producedBelow s.enc.cbuf s.enc.clen = s.enc.pos

/-- What a finished call on `n` symbols has left (41_encoder.md R112, R113 (a), (b)). -/
structure Encoded (n : Nat) (t : State) : Prop where
  done : t.enc.state = .done
  noCause : t.enc.cause = .none
  cursor : t.enc.pos = n
  atMost : t.enc.clen ≤ n
  atLeast : 1 ≤ n → 1 ≤ t.enc.clen
  produced : producedBelow t.enc.cbuf t.enc.clen = n

/-- `ENCODE` of a loaded input starts such a call. -/
theorem EncLoaded.encoding {w : Width} {xs : List Symbol} {s : State} (h : EncLoaded w xs s) :
    Encoding w xs.length (uncapped (beginCall .enc s)) where
  busy := rfl
  noCause := rfl
  width := h.width
  length := h.length
  input := h.input.writtenBelow
  noCap := rfl
  cursorFits := h.cursorFits
  cursor := Nat.zero_le _
  atMost := Nat.le_refl _
  atLeast := id
  produced := rfl

/-- A step of the call completes, keeps what the call keeps, and moves the cursor. -/
theorem Encoding.step {w : Width} {n : Nat} {s : State} (h : Encoding w n s) (hpos : s.enc.pos < n) :
    ∃ t, encTick s = .next t ∧ Encoding w n t ∧ s.enc.pos < t.enc.pos := by
  have hroom : ∀ l, l ≤ s.enc.ilen - s.enc.pos - 1 → EmitFits s.params (s.enc.clen + 1) (s.enc.pos + l + 1) :=
    fun l hl => ⟨by rw [h.noCap]; rfl, withinPosw_mono h.cursorFits (by have := h.length; omega)⟩
  have hlt : s.enc.pos < s.enc.ilen := h.length.symm ▸ hpos
  obtain ⟨t, ht⟩ := encStep_answers (w := w) hlt (h.length.symm ▸ h.input) hroom
  obtain ⟨f, l, hstep⟩ := encStep_spec ht
  refine ⟨t, (encTick_of_running h.busy hlt h.width).trans ht, ?_, ?_⟩
  · have hrange := hstep.inRange
    have hlength := h.length
    have hatMost := h.atMost
    obtain rfl := hstep.result
    exact {
      busy := hstep.search.state.trans h.busy
      noCause := hstep.search.cause.trans h.noCause
      width := (congrArg widthOf hstep.search.wsel).trans h.width
      length := hstep.search.ilen.trans h.length
      input := (hstep.search.ibuf : f.ibuf = s.enc.ibuf) ▸ h.input
      noCap := h.noCap
      cursorFits := h.cursorFits
      cursor := by simp only; omega
      atMost := by simp only; omega
      atLeast := fun _ => Nat.succ_pos _
      produced := by
        simp only [producedBelow_writeCode, h.produced, hstep.code.length, Nat.add_assoc] }
  · rw [hstep.result]
    simp only
    omega

/-- The call ends after at most one transition for each symbol left and one for its end (41_encoder.md R112). -/
theorem Encoding.run {w : Width} {n : Nat} (k : Nat) : ∀ {s : State}, Encoding w n s → n < s.enc.pos + k →
    ∃ t, runAgent .enc k s = .next t ∧ Encoded n t := by
  induction k with
  | zero =>
    intro s h hk
    have := h.cursor
    omega
  | succ k ih =>
    intro s h hk
    rcases Nat.lt_or_ge s.enc.pos n with hpos | hend
    · obtain ⟨s1, hs1, h1, hmoved⟩ := h.step hpos
      obtain ⟨t, ht, hdone⟩ := ih h1 (by omega)
      exact ⟨t, by simpa only [runAgent, agentTick, hs1, andThen_next] using ht, hdone⟩
    · have hn : s.enc.pos = n := Nat.le_antisymm h.cursor hend
      refine ⟨endCall .enc s, ?_, rfl, h.noCause, hn, hn ▸ h.atMost, hn ▸ h.atLeast, hn ▸ h.produced⟩
      simp only [runAgent, agentTick, encTick_of_end h.busy (h.length.symm ▸ hend), andThen_next]
      exact runAgent_enc_of_not_busy (by simp) k

theorem runAgent_enc_clen_le {k : Nat} : ∀ {s t : State}, runAgent .enc k s = .next t → s.enc.clen ≤ t.enc.clen := by
  induction k with
  | zero =>
    intro s t h
    obtain rfl := Host.Outcome.next.inj h
    exact Nat.le_refl _
  | succ k ih =>
    intro s t h
    obtain ⟨s1, hs1, h⟩ := andThen_eq_next.mp h
    exact (encTick_clen_le hs1).trans (ih h)

/-- A transition with a bounded code buffer is the unbounded machine's where its code count fits, and is refused where it
does not (00_scope.md R10). -/
theorem encTick_capped {s t : State} (h : encTick (uncapped s) = .next t)
    (hfit : withinCap s.params.ccapE s.enc.clen = true) :
    encTick s = if withinCap s.params.ccapE t.enc.clen then .next { s with enc := t.enc } else .refused .capacity := by
  rcases encTick_cases h with ⟨hb, hpos, -⟩ | ⟨hb, hend, rfl⟩ | ⟨hb, rfl⟩
  · have hposw : withinPosw s.params t.enc.pos = true := (encTick_fits h hb hpos).2
    rw [encTick_transfer h hb hpos (u := s) rfl, hposw, Bool.and_true]
  · exact (encTick_of_end (s := s) hb hend).trans (if_pos hfit).symm
  · exact (encTick_of_not_busy (s := s) hb).trans (if_pos hfit).symm

/-- A run with a bounded code buffer ends as the unbounded machine's where the codes fit, and is refused where they do not
(00_scope.md R10). -/
theorem runAgent_enc_capped (k : Nat) : ∀ {s t : State}, runAgent .enc k (uncapped s) = .next t →
    withinCap s.params.ccapE s.enc.clen = true →
    runAgent .enc k s =
      if withinCap s.params.ccapE t.enc.clen then .next { t with params := s.params } else .refused .capacity := by
  induction k with
  | zero =>
    intro s t h hfit
    obtain rfl := Host.Outcome.next.inj h
    exact (if_pos hfit).symm
  | succ k ih =>
    intro s t h hfit
    obtain ⟨s1, hs1, h⟩ := andThen_eq_next.mp h
    have htick := encTick_capped hs1 hfit
    simp only [runAgent, agentTick, htick]
    by_cases hfit1 : withinCap s.params.ccapE s1.enc.clen = true
    · rw [if_pos hfit1, andThen_next]
      rw [encTick_frame hs1] at h
      exact ih (s := { s with enc := s1.enc }) h hfit1
    · have hnot : ¬ withinCap s.params.ccapE t.enc.clen = true :=
        fun hfit' => hfit1 (withinCap_mono hfit' (runAgent_enc_clen_le h))
      rw [if_neg hfit1, if_neg hnot, andThen_refused]

/-! ## The statements -/

/-- Settles O37: the unbounded call ends by `Encoding.run`, and the bounded one is compared with it by `runAgent_enc_capped`. -/
theorem encodeCallEndsInDone : Obligations.EncodeCallEndsInDone := by
  intro w xs s h
  have hstart : exec .encodeCmd s = .next (beginCall .enc s) := by
    rw [execEncode_of_width h.free h.width, h.length, if_pos h.inputFits]
  obtain ⟨t, ht, hdone⟩ := h.encoding.run (xs.length + 1) (by simp)
  have hcapped := runAgent_enc_capped _ ht (withinCap_zero _)
  refine ⟨_, t, hstart, ht, hdone.done, hdone.noCause, hdone.cursor, hdone.atMost, hdone.atLeast, hdone.produced, ?_, ?_⟩
  · intro hfit
    exact hcapped.trans (if_pos hfit)
  · intro hfit
    exact hcapped.trans (if_neg (Bool.eq_false_iff.mp hfit))

/-- Settles O12, clause by clause: the commands, the codes, the encoder's step against the unbounded machine's, the host's
moves, and the cells of a code buffer. -/
theorem beyondCapacityIsRefused : Obligations.BeyondCapacityIsRefused := by
  refine ⟨?_, ?_, ?_, ?_, ?_, ?_, ?_, ?_, ?_, ?_, ?_⟩
  · intro s w hb hw hcap
    rw [execEncode_of_width hb hw, if_neg (Bool.eq_false_iff.mp hcap)]
  · intro s w hb hw hcap
    rw [execDecode_of_width hb hw, if_neg (Bool.eq_false_iff.mp hcap)]
  · intro i o l lit s hi hval hfit
    rw [exec_code hi, decCode_refused hval hfit]
  · intro s t hb hpos ht hfit
    rw [encTick_transfer ht hb hpos (u := s) rfl, Bool.and_eq_false_iff.mpr hfit]
    rfl
  · intro u n v s hfit
    exact if_pos hfit
  · intro sp i s hfit
    exact if_pos hfit
  · intro i v s hb hfit
    simp only [hostMove, hostWriteIbuf, hb, hfit, Bool.false_eq_true, if_false]
  · intro i v s hb hfit
    simp only [hostMove, hostWriteDecCbuf, hb, hfit, Bool.false_eq_true, if_false]
  · intro p c i hc
    rw [withinBuffer, hc, withinCap_codeCells]
  · intro p c i hc
    rw [withinBuffer, hc, withinCap_codeCells]
  · intro k c
    simp only [cellIndex, codeCells]
    omega

/-- Settles O43: each unit's transition gives that unit the same next state in the other machine, and leaves the rest. -/
theorem unitsShareNothing : Obligations.UnitsShareNothing := by
  refine ⟨?_, ?_⟩
  · intro s t u h he hp
    exact ⟨_, encTick_transfer_sameParams h he hp, SameEncResult.refl _, rfl⟩
  · intro s t u h hd hp
    exact ⟨_, decTick_transfer h hd hp, SameDecResult.refl _, rfl⟩

/-- Settles O5: a case for each width, and the four values of `WSEL`. -/
theorem widthsAndTheirMaxima : Obligations.WidthsAndTheirMaxima := by
  refine ⟨fun w => ?_, rfl, rfl, rfl, rfl, rfl, rfl, rfl⟩
  cases w <;> rfl

end Sys2Proof.Machine
end

section
/-! SUPPORT. The proofs of 10_state.md: the invariant of the block, the cursors, reset, and the host's view of the registers
and the buffers. -/

namespace Sys2Proof.Machine

/-! ## The host's moves -/

/-- A read of a register of a unit that is not busy returns its value (10_state.md R36). -/
theorem hostReadReg_of_not_busy {u : UnitId} {n : Nat} {s : State} (hb : s.runState u ≠ .busy) (hn : n ≤ 5) :
    hostReadReg u n s = .next (giveHost (regValue u n s) s) := by
  simp only [hostReadReg, Nat.not_lt.mpr hn, hb, and_false, if_false]

/-- A read of a register of a busy unit returns a free value, but for `STATUS` (10_state.md R40). -/
theorem hostReadReg_of_busy {u : UnitId} {n : Nat} {s : State} (hb : s.runState u = .busy) (hn : n ≤ 5) (hstatus : n ≠ 2) :
    hostReadReg u n s = .next (giveHost (limitWord s.params (Config.freeWord s.freeCtr)) (useFree s)) := by
  rw [hostReadReg, if_neg (Nat.not_lt.mpr hn), if_pos ⟨hstatus, hb⟩]

/-- A write of a `POSW`-bit word to a register other than `CMD` is refused while the unit is busy (10_state.md R40). -/
theorem hostWriteReg_of_busy {u : UnitId} {n v : Nat} {s : State} (hb : s.runState u = .busy) (hn : n ≤ 5) (hcmd : n ≠ 1)
    (hv : withinPosw s.params v = true) : hostWriteReg u n v s = .refused (.busyAccess u) := by
  simp only [hostWriteReg, hv, Bool.true_eq_false, hcmd, Nat.not_lt.mpr hn, hb, if_false, if_true]

/-- A write of a `POSW`-bit word to a register other than `CMD`, of a unit that is not busy: `CFG` and the length register take
the word, and the others are read-only (10_state.md R36). -/
theorem hostWriteReg_of_not_busy {u : UnitId} {n v : Nat} {s : State} (hb : s.runState u ≠ .busy) (hn : n ≤ 5) (hcmd : n ≠ 1)
    (hv : withinPosw s.params v = true) : hostWriteReg u n v s =
      if n = 0 then .next (setCfg u v s) else if n = 3 then .next (setLength u v s) else .next s := by
  simp only [hostWriteReg, hv, Bool.true_eq_false, hcmd, Nat.not_lt.mpr hn, hb, if_false]

/-- A write to a read-only register of a unit that is not busy is ignored (10_state.md R36). -/
theorem hostWriteReg_readOnly {u : UnitId} {n v : Nat} {s : State} (hb : s.runState u ≠ .busy) (hn : n = 2 ∨ n = 4 ∨ n = 5)
    (hv : withinPosw s.params v = true) : hostWriteReg u n v s = .next s := by
  rw [hostWriteReg_of_not_busy hb (by omega) (by omega) hv, if_neg (by omega), if_neg (by omega)]

/-- A `CFG` value is held in the two bits of `WSEL` (10_state.md R38). -/
theorem toNat_wsel_of_lt {v : Nat} (hv : v < 4) : (BitVec.ofNat 2 v).toNat = v := by
  rw [BitVec.toNat_ofNat, Nat.mod_eq_of_lt hv]

/-- A host read of a cell that a failed call wrote last returns that call's free value, whatever the cell holds
(60_exceptions.md R161). -/
theorem hostReadCell_of_failed {sp : Space} {i v n : Nat} {s : State} (hfit : withinBuffer s.params sp i = true)
    (hb : s.runState sp.owner ≠ .busy) (hv : storedCell sp i s = some v) (hn : failedWriter sp i s = some n) :
    hostReadCell sp i s = .next (giveHost (failedCell sp n i) s) := by
  rw [hostReadCell_of_stored hfit hb hv, readValue_of_some hn]

/-! ## The invariant: reset, and what the host changes -/

theorem EncInv.reset (p : Params) : EncInv p Enc.reset where
  ibufForm := rfl
  cbufForm := rfl
  causeIffError := by decide
  neverError := by decide
  busyWidth := fun h => absurd h (by decide)
  busyPos := fun h => absurd h (by decide)
  countBound := Nat.le_refl _
  countFits := Or.inl rfl
  emitted := fun _ hk => absurd hk (Nat.not_lt_zero _)
  idlePast := fun _ => rfl
  donePast := fun h => absurd h (by decide)
  noneFailed := fun _ => rfl

theorem DecInv.reset (p : Params) : DecInv p Dec.reset where
  cbufForm := rfl
  obufForm := rfl
  causeIffError := by decide
  causeKind := by decide
  busyWidth := fun h => absurd h (by decide)
  busyCursor := fun h => absurd h (by decide)
  cursorBound := Nat.le_refl _
  outputWritten := fun _ => WrittenBelow.zero _
  outputFits := Or.inl rfl
  idlePast := fun _ => rfl
  donePast := fun h => absurd h (by decide)
  errorPast := fun h => absurd h (by decide)

/-- Only a running call ties the configuration and the input's length to the rest: the host may change them, and load an input
in canonical form, while the unit is not busy. -/
theorem EncInv.configured {p : Params} {e : Enc} (h : EncInv p e) (hb : e.state ≠ .busy) (wsel : BitVec 2) (ilen : Nat)
    {ibuf : List Host.Cell} (hform : Memory.wf ibuf = true) :
    EncInv p { e with wsel := wsel, ibuf := ibuf, ilen := ilen } :=
  { h with
    ibufForm := hform
    busyWidth := fun hbusy => absurd hbusy hb
    busyPos := fun hbusy => absurd hbusy hb }

/-- The same of the decoder's configuration, code count and code stream. -/
theorem DecInv.configured {p : Params} {d : Dec} (h : DecInv p d) (hb : d.state ≠ .busy) (wsel : BitVec 2) (clen : Nat)
    {cbuf : List (Nat × Field)} (hform : Memory.wf cbuf = true) :
    DecInv p { d with wsel := wsel, cbuf := cbuf, clen := clen } :=
  { h with
    cbufForm := hform
    busyWidth := fun hbusy => absurd hbusy hb
    busyCursor := fun hbusy => absurd hbusy hb }

/-- `ENCODE` with a width starts a call with nothing emitted (43_commands.md R141). -/
theorem EncInv.beginCall {s : State} {w : Width} (h : EncInv s.params s.enc) (hw : widthOf s.enc.wsel = some w) :
    EncInv s.params (beginCall .enc s).enc :=
  { h with
    causeIffError := by simp
    neverError := by simp
    busyWidth := fun _ => ⟨w, hw⟩
    busyPos := fun _ => Nat.zero_le _
    countBound := Nat.le_refl _
    countFits := Or.inl rfl
    emitted := fun _ hk => absurd hk (Nat.not_lt_zero _)
    idlePast := fun hidle => absurd hidle (by simp)
    donePast := fun hdone => absurd hdone (by simp) }

/-- `DECODE` with a width starts a call with nothing decoded (43_commands.md R142). -/
theorem DecInv.beginCall {s : State} {w : Width} (h : DecInv s.params s.dec) (hw : widthOf s.dec.wsel = some w) :
    DecInv s.params (beginCall .dec s).dec :=
  { h with
    causeIffError := by simp
    causeKind := by simp
    busyWidth := fun _ => ⟨w, hw⟩
    busyCursor := fun _ => Nat.zero_le _
    cursorBound := Nat.le_refl _
    outputWritten := fun _ => WrittenBelow.zero _
    outputFits := Or.inl rfl
    idlePast := fun hidle => absurd hidle (by simp)
    donePast := fun hdone => absurd hdone (by simp)
    errorPast := fun herror => absurd herror (by simp) }

/-- Every move of the host keeps the invariant. -/
theorem Inv.of_hostMove {m : HostMove} {s t : State} (hs : Inv s) (h : hostMove m s = .next t) : Inv t := by
  obtain ⟨henc, hdec⟩ := hs
  rcases hostMove_cases h with rfl | ⟨u, w, -, -, rfl, hw⟩ | ⟨u, v, -, hb, rfl⟩ | ⟨u, v, -, hb, rfl⟩ | ⟨i, v, -, hb, rfl⟩ |
    ⟨i, v, -, hb, rfl⟩ | ⟨v, c, rfl⟩ | ⟨-, rfl⟩
  · exact ⟨henc, hdec⟩
  · cases u with
    | enc => exact ⟨henc.beginCall hw, hdec⟩
    | dec => exact ⟨henc, hdec.beginCall hw⟩
  · cases u with
    | enc => exact ⟨henc.configured hb _ _ henc.ibufForm, hdec⟩
    | dec => exact ⟨henc, hdec.configured hb _ _ hdec.cbufForm⟩
  · cases u with
    | enc => exact ⟨henc.configured hb _ _ henc.ibufForm, hdec⟩
    | dec => exact ⟨henc, hdec.configured hb _ _ hdec.cbufForm⟩
  · exact ⟨henc.configured hb _ _ (Memory.wf_write i v henc.ibufForm), hdec⟩
  · exact ⟨henc, hdec.configured hb _ _ (Memory.wf_write i v hdec.cbufForm)⟩
  · exact ⟨henc, hdec⟩
  · exact ⟨EncInv.reset _, DecInv.reset _⟩

/-! ## The invariant: the encoder's transition -/

theorem EncInv.cause_eq_none {p : Params} {e : Enc} (h : EncInv p e) : e.cause = .none :=
  by_contra fun hc => h.neverError (h.causeIffError.mp hc)

/-- The code of a step is a `LIT` or a `COPY`: an occurrence lies in the window, so it is no longer than its distance
(41_encoder.md R109 (a), (b)). -/
theorem CodeFor.litOrCopy {e : Enc} {l : Nat} (h : CodeFor e l) :
    (e.bl.toNat = 0 ↔ e.bo.toNat = 0) ∧ e.bl.toNat ≤ e.bo.toNat := by
  have hlen := h.length
  rcases Nat.eq_zero_or_pos l with hzero | hpos
  · have hoff := h.zero hzero
    omega
  · obtain ⟨m, ⟨⟨hfit, -⟩, -⟩, hoff⟩ := h.found hpos
    omega

/-- The code that a step writes has the shape of an emitted code. -/
theorem CodeFor.emittedShape {e : Enc} {l : Nat} (h : CodeFor e l) (m : List (Nat × Field)) (k : Nat) :
    EmittedShape (writeCode m k e.bo e.bl e.bs) k :=
  ⟨e.bo, e.bl, e.bs, read_writeCode_offset _ _ _ _ _, read_writeCode_length _ _ _ _ _, read_writeCode_literal _ _ _ _ _,
    h.litOrCopy⟩

/-- A step of a running call keeps the invariant of the encoder (41_encoder.md R111). -/
theorem StepEmits.encInv {w : Width} {s t : State} {f : Enc} {l : Nat} (h : StepEmits w s t f l) (hs : EncInv s.params s.enc)
    (hb : s.enc.state = .busy) (hpos : s.enc.pos < s.enc.ilen) : EncInv s.params t.enc := by
  have hrange := h.inRange
  have hcount := hs.countBound
  have hilen : f.ilen = s.enc.ilen := h.search.ilen
  have hstate : f.state = .busy := h.search.state.trans hb
  have hcause : f.cause = .none := h.search.cause.trans hs.cause_eq_none
  obtain rfl := h.result
  exact {
    ibufForm := (h.search.ibuf : f.ibuf = s.enc.ibuf) ▸ hs.ibufForm
    cbufForm := wf_writeCode _ _ _ _ hs.cbufForm
    causeIffError := by simp [hstate, hcause]
    neverError := by simp [hstate]
    busyWidth := fun _ => (h.search.wsel : f.wsel = s.enc.wsel) ▸ hs.busyWidth hb
    busyPos := fun _ => by simp only; omega
    countBound := by simp only; omega
    countFits := Or.inr h.fits.1
    emitted := fun k hk => by
      rcases Nat.lt_succ_iff_lt_or_eq.mp hk with hbefore | rfl
      · exact (hs.emitted k hbefore).writeCode _ _ _ _ hbefore
      · exact h.code.emittedShape _ _
    idlePast := fun hidle => by simp [hstate] at hidle
    donePast := fun hdone => by simp [hstate] at hdone
    noneFailed := (h.search.past : f.past = s.enc.past) ▸ hs.noneFailed }

/-- The end of a call keeps the invariant of the encoder: its record is of a call that has not failed. -/
theorem EncInv.endCall {s : State} (h : EncInv s.params s.enc) : EncInv s.params (endCall .enc s).enc :=
  { h with
    causeIffError := by simp [h.cause_eq_none]
    neverError := by simp
    busyWidth := fun hbusy => absurd hbusy (by simp)
    busyPos := fun hbusy => absurd hbusy (by simp)
    idlePast := fun hidle => absurd hidle (by simp)
    donePast := fun _ => ⟨s.enc.past, rfl⟩
    noneFailed := fun i => by
      rcases Nat.lt_or_ge i (codeCells s.enc.clen) with hi | hi
      · exact failedCall_cons_of_lt hi
      · exact (failedCall_cons_of_le hi).trans (h.noneFailed i) }

/-- Every transition of the encoder keeps the invariant. -/
theorem Inv.of_encTick {s t : State} (hs : Inv s) (h : encTick s = .next t) : Inv t := by
  obtain ⟨henc, hdec⟩ := hs
  rw [encTick_frame h]
  refine ⟨?_, hdec⟩
  rcases encTick_cases h with ⟨hb, hpos, w, -, f, l, hstep⟩ | ⟨-, -, rfl⟩ | ⟨-, rfl⟩
  · exact hstep.encInv henc hb hpos
  · exact henc.endCall
  · exact henc

/-! ## The invariant: the decoder's transition -/

theorem DecInv.cause_eq_none {p : Params} {d : Dec} (h : DecInv p d) (hne : d.state ≠ .error) : d.cause = .none :=
  by_contra fun hc => hne (h.causeIffError.mp hc)

/-- A copy extends what is written by the cells it appends. -/
theorem Copied.writtenBelow {r src dst : Nat} {m m' : List Host.Cell} (h : Copied r src dst m m') (hw : WrittenBelow m dst) :
    WrittenBelow m' (dst + r) := by
  intro i hi
  rcases Nat.lt_or_ge i dst with hlt | hge
  · rw [h.elsewhere i (Or.inl hlt)]
    exact hw i hlt
  · have hcell := h.written (i - dst) (by omega)
    rwa [Nat.add_sub_cancel' hge] at hcell

/-- An admitted code of a running call keeps the invariant of the decoder (42_decoder.md R122). -/
theorem CodeRuns.decInv {o l : Field} {lit : Symbol} {s t : State} {m : List Host.Cell} (h : CodeRuns o l lit s t m)
    (hs : DecInv s.params s.dec) (hb : s.dec.state = .busy) (hk : s.dec.k < s.dec.clen) : DecInv s.params t.dec := by
  have hcursor := hs.cursorBound
  have hwritten : WrittenBelow s.dec.obuf s.dec.pos := hs.outputWritten (by simp [hb])
  obtain rfl := h.result
  exact { hs with
    obufForm := Memory.wf_write _ _ (h.copied.form hs.obufForm)
    busyCursor := fun _ => hk
    cursorBound := by simp only; omega
    outputWritten := fun _ => (h.copied.writtenBelow hwritten).append lit
    outputFits := Or.inr h.fits
    donePast := fun hdone => by simp [hb] at hdone
    errorPast := fun herror => by simp [hb] at herror }

/-- A code that is not admitted keeps the invariant of the decoder: the failed call is recorded (60_exceptions.md R158). -/
theorem DecInv.raise {s : State} (h : DecInv s.params s.dec) (o l : Field) (lit : Symbol) :
    DecInv s.params (raise .dec .invalidOffset { s with dec := decLoad o l lit s.dec }).dec :=
  { h with
    causeIffError := by simp
    causeKind := by simp
    busyWidth := fun hbusy => absurd hbusy (by simp)
    busyCursor := fun hbusy => absurd hbusy (by simp)
    outputWritten := fun hne => absurd rfl hne
    idlePast := fun hidle => absurd hidle (by simp)
    donePast := fun hdone => absurd hdone (by simp)
    errorPast := fun _ => ⟨s.dec.past, rfl⟩ }

/-- The end of a call keeps the invariant of the decoder. -/
theorem DecInv.endCall {s : State} (h : DecInv s.params s.dec) (hb : s.dec.state = .busy) :
    DecInv s.params (endCall .dec s).dec :=
  have hne : s.dec.state ≠ .error := by simp [hb]
  { h with
    causeIffError := by simp [h.cause_eq_none hne]
    busyWidth := fun hbusy => absurd hbusy (by simp)
    busyCursor := fun hbusy => absurd hbusy (by simp)
    outputWritten := fun _ => h.outputWritten hne
    idlePast := fun hidle => absurd hidle (by simp)
    donePast := fun _ => ⟨s.dec.past, rfl⟩
    errorPast := fun herror => absurd herror (by simp) }

/-- A transition of the decoder changes the decoder only (00_scope.md R3). -/
theorem decTick_frame {s t : State} (h : decTick s = .next t) : t = { s with dec := t.dec } := by
  have hself := decTick_transfer h (u := s) rfl rfl
  exact Host.Outcome.next.inj (h.symm.trans hself)

/-- Every transition of the decoder keeps the invariant. -/
theorem Inv.of_decTick {s t : State} (hs : Inv s) (h : decTick s = .next t) : Inv t := by
  obtain ⟨henc, hdec⟩ := hs
  rw [decTick_frame h]
  refine ⟨henc, ?_⟩
  rcases decTick_cases h with ⟨hb, hk, w, o, l, c, -, -, -, -, -, hcode⟩ | ⟨hb, -, rfl⟩ | ⟨-, rfl⟩
  · rcases decCode_cases hcode with ⟨-, rfl⟩ | ⟨m, hrun⟩
    · exact hdec.raise _ _ _
    · exact hrun.decInv hdec hb hk
  · exact hdec.endCall hb
  · exact hdec

/-! ## The statements -/

/-- Settles O47: the next agent's transition keeps the invariant, which says nothing of the moves and turns still to come. -/
theorem stepKeepsTheInvariant : Obligations.StepKeepsTheInvariant := by
  intro s t hs h
  have hturn : Inv (usedTurn s) := ⟨hs.enc, hs.dec⟩
  rcases step_cases h with ⟨-, h⟩ | ⟨-, h⟩ | ⟨-, -, rfl⟩ | ⟨-, m, rest, -, h⟩
  · exact hturn.of_encTick h
  · exact hturn.of_decTick h
  · exact hturn
  · have hmove : Inv { usedTurn s with pending := rest } := ⟨hs.enc, hs.dec⟩
    exact hmove.of_hostMove h

/-- Settles O36: a step emits one code of at least one symbol within the lookahead; a code that does not raise appends at least
its literal. -/
theorem cursorsOnlyIncrease : Obligations.CursorsOnlyIncrease := by
  refine ⟨?_, ?_⟩
  · intro s t hb hpos h
    rcases encTick_cases h with ⟨-, -, w, -, f, l, hstep⟩ | ⟨-, hend, -⟩ | ⟨hnb, -⟩
    · have hrange := hstep.inRange
      rw [hstep.result]
      exact ⟨by simp only; omega, rfl, by simp only; omega⟩
    · omega
    · exact absurd hb hnb
  · intro s t hb hk h hne
    rcases decTick_cases h with ⟨-, -, w, o, l, c, -, -, -, -, -, hcode⟩ | ⟨-, hend, -⟩ | ⟨hnb, -⟩
    · rcases decCode_cases hcode with ⟨-, rfl⟩ | ⟨m, hrun⟩
      · exact absurd rfl hne
      · rw [hrun.result]
        exact ⟨rfl, by simp only; omega⟩
    · omega
    · exact absurd hb hnb

/-- Settles O48: each unit's invariant holds of its reset state. -/
theorem resetSatisfiesTheInvariant : Obligations.ResetSatisfiesTheInvariant :=
  ⟨EncInv.reset _, DecInv.reset _⟩

/-- Settles O49: in either state both units hold their reset values. -/
theorem resetLeavesTheUnitsIdle : Obligations.ResetLeavesTheUnitsIdle := by
  intro s t h
  have hunits : t.enc = Enc.reset ∧ t.dec = Dec.reset := by
    rcases h with rfl | h
    · exact ⟨rfl, rfl⟩
    · obtain rfl := Host.Outcome.next.inj h
      exact ⟨rfl, rfl⟩
  obtain ⟨henc, hdec⟩ := hunits
  rw [henc, hdec]
  exact ⟨rfl, rfl, rfl, rfl, rfl, rfl, rfl, rfl, rfl, rfl, rfl, rfl, resetUnits s, rfl⟩

/-- Settles O52: `STATE` takes two bits, so `CAUSE` begins at bit 2. -/
theorem statusWordLayout : Obligations.StatusWordLayout := by
  intro st c
  have hstate : st.code < 4 := by cases st <;> decide
  have hcause : c.code ≠ 3 := by cases c <;> decide
  refine ⟨?_, ?_, hcause, rfl, rfl, rfl, rfl, rfl, rfl, rfl⟩
  · simp only [statusWord]
    omega
  · simp only [statusWord]
    omega

/-- Settles O53: the register write by `hostWriteReg_of_busy`; the writes of cells check `BUSY` first. -/
theorem busyUnitRefusesHostWrites : Obligations.BusyUnitRefusesHostWrites :=
  ⟨fun _ _ _ _ hb hn hcmd hv => hostWriteReg_of_busy hb hn hcmd hv, fun _ _ _ hb => if_pos hb, fun _ _ _ hb => if_pos hb⟩

/-- Settles O54, clause by clause: the cells, then the registers of each unit by number. -/
theorem hostConfiguresAnIdleUnit : Obligations.HostConfiguresAnIdleUnit := by
  refine ⟨?_, ?_, fun s v hv => ⟨fun hb => ⟨fun hlt => ?_, ?_, fun n hn => ?_⟩, fun hb => ⟨fun hlt => ?_, ?_, fun n hn => ?_⟩⟩⟩
  · intro i v s hb hfit
    simp only [hostMove, hostWriteIbuf, hb, hfit, if_false, if_true]
  · intro i v s hb hfit
    simp only [hostMove, hostWriteDecCbuf, hb, hfit, if_false, if_true]
  · exact ⟨_, hostWriteReg_of_not_busy hb (by decide) (by decide) hv, toNat_wsel_of_lt hlt, rfl⟩
  · exact hostWriteReg_of_not_busy hb (by decide) (by decide) hv
  · exact hostWriteReg_readOnly hb hn hv
  · exact ⟨_, hostWriteReg_of_not_busy hb (by decide) (by decide) hv, toNat_wsel_of_lt hlt, rfl⟩
  · exact hostWriteReg_of_not_busy hb (by decide) (by decide) hv
  · exact hostWriteReg_readOnly hb hn hv

/-- Settles O55: a read of each of the six registers returns its value. -/
theorem hostReadsTheRegisters : Obligations.HostReadsTheRegisters := by
  have hread : ∀ (u : UnitId) (s : State), s.runState u ≠ .busy → ∀ n, n ≤ 5 →
      hostMove (.readReg u n) s = .next { s with rdata := some (regValue u n s) } :=
    fun _ _ hb _ hn => hostReadReg_of_not_busy hb hn
  intro s
  refine ⟨fun hb => ?_, fun hb => ?_⟩
  · have henc := hread .enc s hb
    exact ⟨henc 0 (by decide), henc 1 (by decide), henc 2 (by decide), henc 3 (by decide), henc 4 (by decide),
      henc 5 (by decide)⟩
  · have hdec := hread .dec s hb
    exact ⟨hdec 0 (by decide), hdec 1 (by decide), hdec 2 (by decide), hdec 3 (by decide), hdec 4 (by decide),
      hdec 5 (by decide)⟩

/-- Settles O58: the reads of a busy unit return a free value; a cell of a failed call reads as that call's free value, and the
invariant's newest record is of the call that failed. -/
theorem openReadsComplete : Obligations.OpenReadsComplete := by
  refine ⟨?_, ?_, ?_, ?_, ?_⟩
  · intro u n s hb hn hstatus
    exact ⟨_, hostReadReg_of_busy hb hn hstatus⟩
  · intro sp i s hfit hb
    exact ⟨_, hostReadCell_of_busy hfit hb⟩
  · intro i n x s hfit hb hx hfailed
    have hstored : storedCell .encCbuf i s = some x.toNat := by simp only [storedCell, hx, Option.map_some]
    exact hostReadCell_of_failed hfit hb hstored hfailed
  · intro i n x s hfit hb hx hfailed
    have hstored : storedCell .obuf i s = some x.toNat := by simp only [storedCell, hx, Option.map_some]
    exact hostReadCell_of_failed hfit hb hstored hfailed
  · intro i s hs herror hi
    obtain ⟨past, hpast⟩ := hs.dec.errorPast herror
    exact ⟨past.length, by rw [hpast]; exact failedCall_cons_of_lt hi⟩

end Sys2Proof.Machine
end

section
/-! SUPPORT. The proofs of 20_memory.md: what the host reads of the cells that it and the units have written. -/

namespace Sys2Proof.Machine

/-! ## The host's writes and reads of a cell -/

/-- A host write to `ENC.IBUF` that completes is of a unit that is not busy, within the capacity (43_commands.md R154). -/
theorem hostWriteIbuf_eq_next {i : Nat} {v : Symbol} {s t : State} (h : hostWriteIbuf i v s = .next t) :
    s.enc.state ≠ .busy ∧ withinBuffer s.params .ibuf i = true ∧
      t = { s with enc := { s.enc with ibuf := Memory.write s.enc.ibuf i v } } := by
  simp only [hostWriteIbuf] at h
  split at h
  · cases h
  · next hb =>
    split at h
    · next hfit => exact ⟨hb, hfit, (Host.Outcome.next.inj h).symm⟩
    · cases h

/-- A host write to `DEC.CBUF` that completes is of a unit that is not busy, within the capacity (43_commands.md R154). -/
theorem hostWriteDecCbuf_eq_next {i : Nat} {v : Field} {s t : State} (h : hostWriteDecCbuf i v s = .next t) :
    s.dec.state ≠ .busy ∧ withinBuffer s.params .decCbuf i = true ∧
      t = { s with dec := { s.dec with cbuf := Memory.write s.dec.cbuf i v } } := by
  simp only [hostWriteDecCbuf] at h
  split at h
  · cases h
  · next hb =>
    split at h
    · next hfit => exact ⟨hb, hfit, (Host.Outcome.next.inj h).symm⟩
    · cases h

/-- A host read of a written cell that no failed call wrote last returns what is stored (43_commands.md R154). -/
theorem hostReadCell_of_kept {sp : Space} {i v : Nat} {s : State} (hfit : withinBuffer s.params sp i = true)
    (hb : s.runState sp.owner ≠ .busy) (hkept : failedWriter sp i s = none) (hv : storedCell sp i s = some v) :
    hostReadCell sp i s = .next (giveHost v s) := by
  rw [hostReadCell_of_stored hfit hb hv, readValue_of_none hkept]

theorem storedCell_ibuf {i : Nat} {v : Symbol} {s : State} (hv : Memory.read s.enc.ibuf i = some v) :
    storedCell .ibuf i s = some v.toNat := by
  simp only [storedCell, hv, Option.map_some]

theorem storedCell_encCbuf {i : Nat} {v : Field} {s : State} (hv : Memory.read s.enc.cbuf i = some v) :
    storedCell .encCbuf i s = some v.toNat := by
  simp only [storedCell, hv, Option.map_some]

theorem storedCell_decCbuf {i : Nat} {v : Field} {s : State} (hv : Memory.read s.dec.cbuf i = some v) :
    storedCell .decCbuf i s = some v.toNat := by
  simp only [storedCell, hv, Option.map_some]

theorem storedCell_obuf {i : Nat} {v : Symbol} {s : State} (hv : Memory.read s.dec.obuf i = some v) :
    storedCell .obuf i s = some v.toNat := by
  simp only [storedCell, hv, Option.map_some]

/-- No failed call wrote a cell of a result of `DEC`: the newest record is of the call that ended in `DONE`
(43_commands.md R148; log 12). -/
theorem DecInv.failedCall_result {p : Params} {d : Dec} (h : DecInv p d) (hdone : d.state = .done) {i : Nat} (hi : i < d.pos) :
    failedCall d.past i = none := by
  obtain ⟨past, hpast⟩ := h.donePast hdone
  rw [hpast]
  exact failedCall_cons_of_lt hi

/-! ## The statement -/

/-- Settles O50: a write that completes leaves the unit not busy and the cell within its capacity, so the read of it returns the
stored value; the invariant's records tell that a result's cells are so. -/
theorem hostReadsBackWhatItWrote : Obligations.HostReadsBackWhatItWrote := by
  refine ⟨?_, ?_, ?_, ?_, ?_, ?_, fun s i hs => hs.enc.noneFailed i, fun s i hs hdone hi => hs.dec.failedCall_result hdone hi⟩
  · intro s t i v h
    obtain ⟨hb, hfit, rfl⟩ := hostWriteIbuf_eq_next h
    exact ⟨hostReadCell_of_kept hfit hb rfl (storedCell_ibuf (Memory.read_write_same _ _ _)),
      fun j hj => Memory.read_write_ne _ _ hj, rfl⟩
  · intro s t i v h
    obtain ⟨hb, hfit, rfl⟩ := hostWriteDecCbuf_eq_next h
    exact ⟨hostReadCell_of_kept hfit hb rfl (storedCell_decCbuf (Memory.read_write_same _ _ _)),
      fun j hj => Memory.read_write_ne _ _ hj, rfl⟩
  · intro s i v hfit hb hv
    exact hostReadCell_of_kept hfit hb rfl (storedCell_ibuf hv)
  · intro s i v hfit hb hkept hv
    exact hostReadCell_of_kept hfit hb hkept (storedCell_encCbuf hv)
  · intro s i v hfit hb hv
    exact hostReadCell_of_kept hfit hb rfl (storedCell_decCbuf hv)
  · intro s i v hfit hb hkept hv
    exact hostReadCell_of_kept hfit hb hkept (storedCell_obuf hv)

end Sys2Proof.Machine
end

section
/-! SUPPORT. The proofs of 30_encoding.md: the class that a code's fields select, decoding and encoding back, the reserved
words, and the step that runs a placed word. -/

namespace Sys2Proof.Machine

/-! ## The class of a code: one case split for the three widths -/

theorem copyFields_iff {o l : Nat} : copyFields o l = true ↔ 1 ≤ l ∧ l ≤ o := by
  rw [copyFields, Bool.and_eq_true, decide_eq_true_iff, decide_eq_true_iff]

theorem runFields_iff {o l : Nat} : runFields o l = true ↔ 1 ≤ o ∧ o < l := by
  rw [runFields, Bool.and_eq_true, decide_eq_true_iff, decide_eq_true_iff]

theorem nonzeroField_iff {v : Nat} : nonzeroField v = true ↔ 1 ≤ v :=
  decide_eq_true_iff

/-- The choice between the five classes of a code by its offset and length (30_encoding.md R78, R79), at any width. -/
def byClass {b : Nat} {α : Type} (o l : BitVec b) (lit : α) (litx badz : BitVec b → α) (copy run : BitVec b → BitVec b → α) :
    α :=
  if l.toNat = 0 then
    if o.toNat = 0 then lit else litx o
  else if o.toNat = 0 then badz l
  else if l.toNat ≤ o.toNat then copy o l
  else run o l

theorem classW8_eq_byClass (o l : BitVec 8) (lit : Symbol) : classW8 o l lit =
    byClass o l (.litW8 lit) (.litxW8 · lit) (.badzW8 · lit) (.copyW8 · · lit) (.runW8 · · lit) := rfl

theorem classW16_eq_byClass (o l : BitVec 16) (lit : Symbol) : classW16 o l lit =
    byClass o l (.litW16 lit) (.litxW16 · lit) (.badzW16 · lit) (.copyW16 · · lit) (.runW16 · · lit) := rfl

theorem classW32_eq_byClass (o l : BitVec 32) (lit : Symbol) : classW32 o l lit =
    byClass o l (.litW32 lit) (.litxW32 · lit) (.badzW32 · lit) (.copyW32 · · lit) (.runW32 · · lit) := rfl

section
variable {b : Nat} {α : Type} {lit : α} {litx badz : BitVec b → α} {copy run : BitVec b → BitVec b → α}

/-- The class that the fields select is one whose row's constraint they meet. -/
theorem byClass_cases {P : BitVec b → BitVec b → α → Prop} (o l : BitVec b) (hlit : P 0 0 lit)
    (hlitx : ∀ o, nonzeroField o.toNat = true → P o 0 (litx o)) (hbadz : ∀ l, nonzeroField l.toNat = true → P 0 l (badz l))
    (hcopy : ∀ o l, copyFields o.toNat l.toNat = true → P o l (copy o l))
    (hrun : ∀ o l, runFields o.toNat l.toNat = true → P o l (run o l)) : P o l (byClass o l lit litx badz copy run) := by
  have hzero : ∀ x : BitVec b, x.toNat = 0 → x = 0 := fun x hx => BitVec.eq_of_toNat_eq (by simpa using hx)
  unfold byClass
  split_ifs with hl ho ho hle
  · rwa [hzero o ho, hzero l hl]
  · rw [hzero l hl]
    exact hlitx o (nonzeroField_iff.mpr (by omega))
  · rw [hzero o ho]
    exact hbadz l (nonzeroField_iff.mpr (by omega))
  · exact hcopy o l (copyFields_iff.mpr (by omega))
  · exact hrun o l (runFields_iff.mpr (by omega))

theorem byClass_lit : byClass 0 0 lit litx badz copy run = lit := by
  rw [byClass, BitVec.ofNat_eq_ofNat, if_pos BitVec.toNat_zero, if_pos BitVec.toNat_zero]

theorem byClass_litx {o : BitVec b} (h : nonzeroField o.toNat = true) : byClass o 0 lit litx badz copy run = litx o := by
  have ho := nonzeroField_iff.mp h
  rw [byClass, BitVec.ofNat_eq_ofNat, if_pos BitVec.toNat_zero, if_neg (by omega)]

theorem byClass_badz {l : BitVec b} (h : nonzeroField l.toNat = true) : byClass 0 l lit litx badz copy run = badz l := by
  have hl := nonzeroField_iff.mp h
  rw [byClass, BitVec.ofNat_eq_ofNat, if_neg (by omega), if_pos BitVec.toNat_zero]

theorem byClass_copy {o l : BitVec b} (h : copyFields o.toNat l.toNat = true) :
    byClass o l lit litx badz copy run = copy o l := by
  obtain ⟨hl, hle⟩ := copyFields_iff.mp h
  rw [byClass, if_neg (by omega), if_neg (by omega), if_pos hle]

theorem byClass_run {o l : BitVec b} (h : runFields o.toNat l.toNat = true) :
    byClass o l lit litx badz copy run = run o l := by
  obtain ⟨ho, hlt⟩ := runFields_iff.mp h
  rw [byClass, if_neg (by omega), if_neg (by omega), if_neg (by omega)]

end

/-- An instruction is its own class, or it is the general code of a width (30_encoding.md R85). -/
theorem codeClass_cases (i : Instr) : i.codeClass = i ∨ (∃ o l s, i = .codeW8 o l s) ∨ (∃ o l s, i = .codeW16 o l s) ∨
    ∃ o l s, i = .codeW32 o l s := by
  cases i with
  | codeW8 o l s => exact .inr (.inl ⟨o, l, s, rfl⟩)
  | codeW16 o l s => exact .inr (.inr (.inl ⟨o, l, s, rfl⟩))
  | codeW32 o l s => exact .inr (.inr (.inr ⟨o, l, s, rfl⟩))
  | _ => exact .inl rfl

/-! ## From a word to its instruction and back -/

/-- The instruction that a word stands for: its encoding is the word, and it is well formed and its own class. -/
structure StandsFor (r : RawWord) (i : Instr) : Prop where
  encode_eq : encode i = r
  wellFormed : i.wellFormed = true
  ownClass : i.codeClass = i

theorem standsFor_classW8 (o l : BitVec 8) (lit : Symbol) : StandsFor (.code8 o l lit) (classW8 o l lit) := by
  rw [classW8_eq_byClass]
  exact byClass_cases (P := fun o l i => StandsFor (.code8 o l lit) i) o l ⟨rfl, rfl, rfl⟩
    (fun _ h => ⟨rfl, h, rfl⟩) (fun _ h => ⟨rfl, h, rfl⟩) (fun _ _ h => ⟨rfl, h, rfl⟩) (fun _ _ h => ⟨rfl, h, rfl⟩)

theorem standsFor_classW16 (o l : BitVec 16) (lit : Symbol) : StandsFor (.code16 o l (lit.setWidth 16)) (classW16 o l lit) := by
  rw [classW16_eq_byClass]
  exact byClass_cases (P := fun o l i => StandsFor (.code16 o l (lit.setWidth 16)) i) o l ⟨rfl, rfl, rfl⟩
    (fun _ h => ⟨rfl, h, rfl⟩) (fun _ h => ⟨rfl, h, rfl⟩) (fun _ _ h => ⟨rfl, h, rfl⟩) (fun _ _ h => ⟨rfl, h, rfl⟩)

theorem standsFor_classW32 (o l : BitVec 32) (lit : Symbol) : StandsFor (.code32 o l (lit.setWidth 32)) (classW32 o l lit) := by
  rw [classW32_eq_byClass]
  exact byClass_cases (P := fun o l i => StandsFor (.code32 o l (lit.setWidth 32)) i) o l ⟨rfl, rfl, rfl⟩
    (fun _ h => ⟨rfl, h, rfl⟩) (fun _ h => ⟨rfl, h, rfl⟩) (fun _ _ h => ⟨rfl, h, rfl⟩) (fun _ _ h => ⟨rfl, h, rfl⟩)

theorem standsFor_of_decodeCommand {u : UnitId} {v : Nat} {i : Instr} (h : decodeCommand u v = .instr i) :
    StandsFor (.command u v) i := by
  unfold decodeCommand at h
  split at h <;> cases h <;> exact ⟨rfl, rfl, rfl⟩

/-- A literal's cell that is at most 255 is a widened Symbol (30_encoding.md R74). -/
theorem literalCell_eq_widened {b : Nat} {c : BitVec b} (h : c.toNat ≤ 255) : (c.setWidth 8).setWidth b = c := by
  apply BitVec.eq_of_toNat_eq
  have := c.isLt
  rw [BitVec.toNat_setWidth, BitVec.toNat_setWidth, Nat.mod_eq_of_lt (a := c.toNat) (by omega), Nat.mod_eq_of_lt this]

/-- Whatever the decoder accepts, the word stands for the instruction read. -/
theorem standsFor_of_decode {r : RawWord} {i : Instr} (h : decode r = .instr i) : StandsFor r i := by
  cases r with
  | command u v => exact standsFor_of_decodeCommand h
  | code8 o l lit =>
    cases h
    exact standsFor_classW8 o l lit
  | code16 o l lit =>
    simp only [decode] at h
    split at h <;> cases h
    simpa only [literalCell_eq_widened (show lit.toNat ≤ 255 by omega)] using standsFor_classW16 o l (lit.setWidth 8)
  | code32 o l lit =>
    simp only [decode] at h
    split at h <;> cases h
    simpa only [literalCell_eq_widened (show lit.toNat ≤ 255 by omega)] using standsFor_classW32 o l (lit.setWidth 8)

/-- Cells with a widened literal are accepted at `W = 16` (30_encoding.md R74). -/
theorem decode_code16_widened (o l : BitVec 16) (lit : Symbol) :
    decode (.code16 o l (lit.setWidth 16)) = .instr (classW16 o l lit) := by
  rw [decode, if_neg (Nat.not_lt.mpr (Laws.CellsFit.literal_le lit)), Laws.CellsFit.literal_back (by decide)]

/-- Cells with a widened literal are accepted at `W = 32` (30_encoding.md R74). -/
theorem decode_code32_widened (o l : BitVec 32) (lit : Symbol) :
    decode (.code32 o l (lit.setWidth 32)) = .instr (classW32 o l lit) := by
  rw [decode, if_neg (Nat.not_lt.mpr (literal_le lit)), literal_back]

/-- The word of a well-formed instruction is read as its class: a row's constraint makes its fields select that row. -/
theorem decode_encode_of_wellFormed (i : Instr) (h : i.wellFormed = true) : decode (encode i) = .instr i.codeClass := by
  cases i with
  | encodeCmd | decodeCmd | nopEnc | nopDec | codeW8 => rfl
  | codeW16 o l s => exact decode_code16_widened o l s
  | codeW32 o l s => exact decode_code32_widened o l s
  | litW8 => rw [encode, decode, classW8_eq_byClass, byClass_lit, Instr.codeClass]
  | litxW8 => rw [encode, decode, classW8_eq_byClass, byClass_litx h, Instr.codeClass]
  | badzW8 => rw [encode, decode, classW8_eq_byClass, byClass_badz h, Instr.codeClass]
  | copyW8 => rw [encode, decode, classW8_eq_byClass, byClass_copy h, Instr.codeClass]
  | runW8 => rw [encode, decode, classW8_eq_byClass, byClass_run h, Instr.codeClass]
  | litW16 => rw [encode, decode_code16_widened, classW16_eq_byClass, byClass_lit, Instr.codeClass]
  | litxW16 => rw [encode, decode_code16_widened, classW16_eq_byClass, byClass_litx h, Instr.codeClass]
  | badzW16 => rw [encode, decode_code16_widened, classW16_eq_byClass, byClass_badz h, Instr.codeClass]
  | copyW16 => rw [encode, decode_code16_widened, classW16_eq_byClass, byClass_copy h, Instr.codeClass]
  | runW16 => rw [encode, decode_code16_widened, classW16_eq_byClass, byClass_run h, Instr.codeClass]
  | litW32 => rw [encode, decode_code32_widened, classW32_eq_byClass, byClass_lit, Instr.codeClass]
  | litxW32 => rw [encode, decode_code32_widened, classW32_eq_byClass, byClass_litx h, Instr.codeClass]
  | badzW32 => rw [encode, decode_code32_widened, classW32_eq_byClass, byClass_badz h, Instr.codeClass]
  | copyW32 => rw [encode, decode_code32_widened, classW32_eq_byClass, byClass_copy h, Instr.codeClass]
  | runW32 => rw [encode, decode_code32_widened, classW32_eq_byClass, byClass_run h, Instr.codeClass]

/-! ## The reserved words -/

/-- A command word with a bit above bit 0 set is reserved, for both units (30_encoding.md R84). -/
theorem decode_reservedCommand (u : UnitId) {v : Nat} (h : 1 < v) : decode (.command u v) = .reject .reservedCommand := by
  obtain ⟨n, rfl⟩ := Nat.exists_eq_add_of_lt h
  cases u <;> simp [decode, decodeCommand]

/-- The host's write of a `POSW`-bit word to `CMD` runs it, at any time (43_commands.md R154). -/
theorem hostMove_writeCmd (u : UnitId) {v : Nat} {s : State} (h : withinPosw s.params v = true) :
    hostMove (.writeReg u 1 v) s = runWord (.command u v) s := by
  rw [hostMove, hostWriteReg, if_neg (by simp [h]), if_pos rfl]

/-- A literal's cell above 255 is rejected whatever the other two cells hold (30_encoding.md R74). -/
theorem decode_wideLiteral {w : Width} (o l : Field) {c : Field} (hc : c.toNat ≤ wmax w) (h : 255 < c.toNat) :
    decode (rawCode w o l c) = .reject .literalTooWide := by
  cases w with
  | w8 => exact absurd hc (Nat.not_le.mpr h)
  | w16 => rw [rawCode, decode, toNat_setWidth_of_le (m := 65535) c rfl hc, if_pos h]
  | w32 => rw [rawCode, decode, if_pos h]

/-! ## The step that runs a placed word (log 3) -/

theorem widthOf_wselOf (w : Width) : widthOf (wselOf w) = some w := by cases w <;> rfl

/-- The next step after a command word is placed is the host's write of it, on the state as before. -/
theorem step_placeCommand (u : UnitId) {v : Nat} {s : State} (h : withinPosw s.params v = true) :
    step (placeCommand u v s) = runWord (.command u v) s :=
  hostMove_writeCmd u h

/-- The next step after a code's cells are placed is the decoder's run of them. -/
theorem step_placeCode {w : Width} {o l c : Field} (ho : o.toNat ≤ wmax w) (hl : l.toNat ≤ wmax w) (hc : c.toNat ≤ wmax w)
    (s : State) : step (placeCode w o l c s) = runWord (rawCode w o l c) (usedTurn (placeCode w o l c s)) := by
  have hk : s.dec.k < max s.dec.clen (s.dec.k + 1) := by omega
  have hne : ∀ a b : Nat, a ≠ b → cellIndex s.dec.k a ≠ cellIndex s.dec.k b := fun a b hab => by simp [cellIndex, hab]
  calc step (placeCode w o l c s)
      = decTick (usedTurn (placeCode w o l c s)) := rfl
    _ = _ := by
      rw [decTick_of_reads (w := w) (o := o) (l := l) (c := c) rfl hk (widthOf_wselOf w)
        (by simp [usedTurn, placeCode, Memory.read_write, hne]) (by simp [usedTurn, placeCode, Memory.read_write, hne])
        (by simp [usedTurn, placeCode]),
        narrowCell_of_le _ ho, narrowCell_of_le _ hl, narrowCell_of_le _ hc, runWord_rawCode ho hl hc]

/-- A cell widened to 32 bits holds a value of its width. -/
theorem toNat_widened_le {b m : Nat} (hb : 2 ^ b = m + 1) (x : BitVec b) : (x.setWidth 32).toNat ≤ m := by
  have := x.isLt
  rw [BitVec.toNat_setWidth]
  exact le_trans (Nat.mod_le _ _) (by omega)

/-- A cell widened to 32 bits is recovered from its low bits. -/
theorem setWidth_widened {b : Nat} (hb : b ≤ 32) (x : BitVec b) : (x.setWidth 32).setWidth b = x := by
  rw [BitVec.setWidth_setWidth_of_le _ hb, BitVec.setWidth_eq]

theorem runWord_of_reject {r : RawWord} {e : DecodeError} (h : decode r = .reject e) (s : State) :
    runWord r s = .refused (refusalOf e) := by
  rw [runWord, h]

theorem runWord_of_decode {r : RawWord} {i : Instr} (h : decode r = .instr i) (s : State) : runWord r s = exec i s := by
  rw [runWord, h]

/-- The next step after a word is placed runs it, on the state as before, or on the state in which its cells are placed. -/
theorem step_placeWord {r : RawWord} {s : State} (hfit : ∀ u v, r = .command u v → withinPosw s.params v = true) :
    step (placeWord r s) = runWord r s ∨ ∃ w o l c, step (placeWord r s) = runWord r (usedTurn (placeCode w o l c s)) := by
  cases r with
  | command u v => exact .inl (step_placeCommand u (hfit u v rfl))
  | code8 o l c =>
    have h := step_placeCode (w := .w8) (toNat_widened_le rfl o) (toNat_widened_le rfl l) (toNat_widened_le rfl c) s
    simp only [rawCode, setWidth_widened (show 8 ≤ 32 by decide)] at h
    exact .inr ⟨_, _, _, _, h⟩
  | code16 o l c =>
    have h := step_placeCode (w := .w16) (toNat_widened_le rfl o) (toNat_widened_le rfl l) (toNat_widened_le rfl c) s
    simp only [rawCode, setWidth_widened (show 16 ≤ 32 by decide)] at h
    exact .inr ⟨_, _, _, _, h⟩
  | code32 o l c =>
    exact .inr ⟨_, _, _, _, step_placeCode (w := .w32) (Nat.le_of_lt_succ o.isLt) (Nat.le_of_lt_succ l.isLt)
      (Nat.le_of_lt_succ c.isLt) s⟩

/-- A table row's instruction is what its word decodes to. -/
theorem decodeTableWord_eq_some {nbits v : Nat} {i : Instr} (h : decodeTableWord nbits v = some i) :
    ∃ r, tableWord nbits v = some r ∧ decode r = .instr i := by
  unfold decodeTableWord at h
  split at h
  · cases h
  · next r hr =>
    split at h
    · next hd => exact ⟨r, hr, hd.trans (congrArg _ (Option.some.inj h))⟩
    · cases h

theorem patternWord_ne_command (w : Width) (n : Nat) (u : UnitId) (v : Nat) : patternWord w n ≠ .command u v := by
  cases w <;> exact RawWord.noConfusion

/-- Only the rows of 32 bits stand for a command, whose word is the pattern itself. -/
theorem tableWord_eq_command {nbits n : Nat} {u : UnitId} {v : Nat} (h : tableWord nbits n = some (.command u v)) :
    nbits = 32 ∧ n = v := by
  unfold tableWord at h
  split_ifs at h with hn
  · cases h
    exact ⟨hn, rfl⟩
  all_goals exact absurd (Option.some.inj h) (patternWord_ne_command _ _ _ _)

/-! ## The statements -/

/-- Settles O2: a well-formed instruction's word is read as its class (`decode_encode_of_wellFormed`), and what is read has the
word as its encoding (`standsFor_of_decode`). -/
theorem decodeOfEncodeIsTheInstruction : Obligations.DecodeOfEncodeIsTheInstruction := by
  intro i hwf
  have hdec := decode_encode_of_wellFormed i hwf
  obtain ⟨henc, hclass, -⟩ := standsFor_of_decode hdec
  refine ⟨hdec, henc, hclass, fun h8 h16 h32 => ?_⟩
  obtain hself | ⟨o, l, s, hi⟩ | ⟨o, l, s, hi⟩ | ⟨o, l, s, hi⟩ := codeClass_cases i
  · exact hself
  · exact absurd hi (h8 o l s)
  · exact absurd hi (h16 o l s)
  · exact absurd hi (h32 o l s)

/-- Settles O3: the class that the cells of an accepted word select has them as its encoding. -/
theorem encodeOfDecodeIsTheWord : Obligations.EncodeOfDecodeIsTheWord := by
  intro r i h
  obtain ⟨henc, hwf, hself⟩ := standsFor_of_decode h
  exact ⟨henc, hwf, hself⟩

/-- Settles O6: a general code and its class have the same fields, and the one decoder step runs them (`exec_code`). -/
theorem generalCodeDoesWhatItsClassDoes : Obligations.GeneralCodeDoesWhatItsClassDoes := by
  intro i s
  obtain hself | ⟨o, l, lit, rfl⟩ | ⟨o, l, lit, rfl⟩ | ⟨o, l, lit, rfl⟩ := codeClass_cases i
  · rw [hself]
  · exact exec_code (codeFields_classW8 o l lit) s
  · exact exec_code (codeFields_classW16 o l lit) s
  · exact exec_code (codeFields_classW32 o l lit) s

/-- Settles O1, by decoding each word. -/
theorem tableWordsDecode : Obligations.TableWordsDecode := by
  unfold Obligations.TableWordsDecode
  decide

/-- Settles O4: the decoder rejects the word by name, and the host's write of `CMD` runs what the decoder reads. -/
theorem reservedWordsRejected : Obligations.ReservedWordsRejected := by
  refine ⟨fun u v hv => decode_reservedCommand u hv, fun u v s hv hfit => ?_,
    fun w o l c hc hwide => decode_wideLiteral o l hc hwide⟩
  rw [hostMove_writeCmd u hfit]
  exact runWord_of_reject (decode_reservedCommand u hv) s

/-- Settles O46: `withFetchWord` places the row's word, and the next step runs what is placed (`step_placeWord`). -/
theorem fetchedTableWordRunsNext : Obligations.FetchedTableWordRunsNext := by
  intro s nbits v i h hfit
  obtain ⟨r, hr, hd⟩ := decodeTableWord_eq_some h
  have hplaced : s.withFetchWord nbits v = placeWord r s := by rw [State.withFetchWord, hr]
  have hcmd : ∀ u n, r = .command u n → withinPosw s.params n = true := by
    rintro u n rfl
    obtain ⟨hn, rfl⟩ := tableWord_eq_command hr
    exact hfit hn
  rw [hplaced]
  obtain hrun | ⟨w, o, l, c, hrun⟩ := step_placeWord hcmd
  · exact ⟨s, hrun.trans (runWord_of_decode hd s), rfl, rfl, rfl, rfl, rfl, rfl, rfl⟩
  · exact ⟨_, hrun.trans (runWord_of_decode hd _), rfl, rfl, rfl, rfl, rfl, rfl, rfl⟩

/-- Settles O60: a value that the width can hold is read as it stands, and the refusal of a wide literal comes before the
decoder step and its checks. -/
theorem literalCellAbove255IsRefused : Obligations.LiteralCellAbove255IsRefused := by
  intro s w o l c hb hw hk ho hl hc hfit hwide
  rw [decTick_of_reads hb hk hw ho hl hc, narrowCell_of_le _ hfit, if_pos hwide]

end Sys2Proof.Machine
end

section
/-! SUPPORT. The proofs of 40_match_finder.md: what the match finder answers, and every read of a cell never written, by the
encoder and its finder, by the decoder and its copy unit, and by the host. -/

namespace Sys2Proof.Machine

/-! ## The match finder: when it answers at once, and what its answer depends on -/

/-- An empty pattern is refused (40_match_finder.md R94 (6)). -/
theorem mfFind_empty (e : Enc) : mfFind 0 e = .refused .emptyPattern := rfl

/-- A pattern longer than the window is no match, with no candidate formed (40_match_finder.md R93 (a)). -/
theorem mfFind_of_window_lt {p : Nat} {e : Enc} (hp : 0 < p) (hn : e.n < p) :
    mfFind p e = .next { e with mfP := p, mfHit := false } := by
  rw [mfFind, if_neg (Nat.ne_of_gt hp), if_pos hn]

/-- A pattern that fits the window is tried at the candidates from `n - p` down (40_match_finder.md R91). -/
theorem mfFind_of_le_window {p : Nat} {e : Enc} (hp : 0 < p) (hn : p ≤ e.n) :
    mfFind p e = findFrom p (e.n - p) { e with mfP := p } := by
  rw [mfFind, if_neg (Nat.ne_of_gt hp), if_neg (Nat.not_lt.mpr hn)]

/-- On a match the candidate register stays at the match (40_match_finder.md R91). -/
theorem mfFind_hit_candidate {p : Nat} {e f : Enc} (h : mfFind p e = .next f) (hhit : f.mfHit = true) : f.mfC = f.mfM := by
  have hp := (mfFind_spec h).1
  rcases Nat.lt_or_ge e.n p with hn | hn
  · rw [mfFind_of_window_lt hp hn] at h
    obtain rfl := Host.Outcome.next.inj h
    simp at hhit
  · rw [mfFind_of_le_window hp hn] at h
    rcases findFrom_spec h with ⟨m, -, rfl, -⟩ | ⟨rfl, -⟩
    · rfl
    · simp at hhit

/-- A change of the finder's registers only, written as an update (40_match_finder.md R97). -/
theorem FinderOnly.eq_update {e f : Enc} (h : FinderOnly e f) :
    f = { e with mfP := f.mfP, mfC := f.mfC, mfHit := f.mfHit, mfM := f.mfM } := by
  cases f
  cases h
  simp_all only

/-- Occurrences depend on the window and the pattern alone (40_match_finder.md R90). -/
theorem occursAt_congr {e e' : Enc} {p : Nat} (hn : e.n = e'.n)
    (hwin : ∀ i, i < e.n → Memory.read e.ibuf (e.ws + i) = Memory.read e'.ibuf (e'.ws + i))
    (hpat : ∀ j, j < p → Memory.read e.ibuf (e.pos + j) = Memory.read e'.ibuf (e'.pos + j)) (i : Nat) :
    OccursAt e p i ↔ OccursAt e' p i := by
  unfold OccursAt
  rw [← hn]
  refine and_congr_right fun hi => forall₂_congr fun j hj => ?_
  rw [hpat j hj, Nat.add_assoc, Nat.add_assoc, hwin (i + j) (by omega)]

/-- There is one rightmost occurrence (40_match_finder.md R92). -/
theorem RightmostAt.unique {e : Enc} {p i j : Nat} (hi : RightmostAt e p i) (hj : RightmostAt e p j) : i = j :=
  Nat.le_antisymm (hj.2 i hi.1) (hi.2 j hj.1)

/-! ## A fault that names a cell below a bound -/

/-- The fault names a cell of the buffer below an index, and the cell holds no value (70_reset_and_hazards.md R182). -/
def NamesUnwritten {n : Nat} (sp : Space) (m : List (Nat × BitVec n)) (k : Nat) (f : Fault) : Prop :=
  ∃ i, f = .unwrittenCell sp i ∧ i < k ∧ Memory.read m i = none

theorem memRead_fault {n : Nat} {sp : Space} {m : List (Nat × BitVec n)} {i k : Nat} {f : Fault}
    (h : memRead sp m i = .fault f) (hi : i < k) : NamesUnwritten sp m k f := by
  obtain ⟨hnone, hf⟩ := memRead_eq_fault.mp h
  exact ⟨i, hf, hi, hnone⟩

/-! ## The segment comparison -/

/-- The comparison reads the two cells and goes on while they are equal (40_match_finder.md R95). -/
theorem segEq_of_equal {m : List Host.Cell} {a b p : Nat} {x : Symbol} (ha : Memory.read m a = some x)
    (hb : Memory.read m b = some x) : segEq m a b (p + 1) = segEq m (a + 1) (b + 1) p := by
  simp only [segEq, memRead_of_read _ ha, memRead_of_read _ hb, andThen_next, if_true]

/-- The comparison reaches the `j`-th pair of cells when all the pairs before it are equal (40_match_finder.md R95). -/
theorem segEq_of_equal_before {m : List Host.Cell} {p : Nat} (j : Nat) : ∀ {a b : Nat},
    (∀ i, i < j → ∃ x, Memory.read m (a + i) = some x ∧ Memory.read m (b + i) = some x) →
    segEq m a b (j + p) = segEq m (a + j) (b + j) p := by
  induction j with
  | zero =>
    intro a b _
    rw [Nat.zero_add, Nat.add_zero, Nat.add_zero]
  | succ j ih =>
    intro a b h
    obtain ⟨x, ha, hb⟩ := h 0 (Nat.succ_pos j)
    rw [Nat.add_right_comm, segEq_of_equal (a := a) (b := b) ha hb, ih fun i hi => ?_]
    · simp only [Nat.add_assoc, Nat.add_comm 1]
    · simpa only [Nat.add_assoc, Nat.add_comm 1] using h (i + 1) (by omega)

theorem segEq_of_unwritten_left {m : List Host.Cell} {a b p : Nat} (ha : Memory.read m a = none) :
    segEq m a b (p + 1) = .fault (.unwrittenCell .ibuf a) := by
  simp only [segEq, memRead_of_unwritten _ ha, andThen_fault]

theorem segEq_of_unwritten_right {m : List Host.Cell} {a b p : Nat} {x : Symbol} (ha : Memory.read m a = some x)
    (hb : Memory.read m b = none) : segEq m a b (p + 1) = .fault (.unwrittenCell .ibuf b) := by
  simp only [segEq, memRead_of_read _ ha, memRead_of_unwritten _ hb, andThen_next, andThen_fault]

/-- The comparison faults for nothing but a cell of one of its segments that holds no value. -/
theorem segEq_fault {m : List Host.Cell} {k p : Nat} {f : Fault} : ∀ {a b : Nat}, a + p ≤ k → b + p ≤ k →
    segEq m a b p = .fault f → NamesUnwritten .ibuf m k f := by
  induction p with
  | zero =>
    intro a b _ _ h
    cases h
  | succ p ih =>
    intro a b ha hb h
    simp only [segEq, andThen_eq_fault] at h
    rcases h with h | ⟨x, -, h | ⟨y, -, h⟩⟩
    · exact memRead_fault h (by omega)
    · exact memRead_fault h (by omega)
    · split at h
      · exact ih (by omega) (by omega) h
      · cases h

/-! ## The finder's faults -/

/-- A scan whose first comparison faults, faults. -/
theorem findFrom_of_first_fault {p c : Nat} {e : Enc} {f : Fault} (h : segEq e.ibuf (e.ws + c) e.pos p = .fault f) :
    findFrom p c e = .fault f := by
  cases c with
  | zero => rw [findFrom, h, andThen_fault]
  | succ c => rw [findFrom, h, andThen_fault]

/-- The scan faults for nothing but a cell of the window or of the pattern that holds no value. -/
theorem findFrom_fault {p c k : Nat} {e : Enc} {f : Fault} (hwin : e.ws + c + p ≤ k) (hpat : e.pos + p ≤ k)
    (h : findFrom p c e = .fault f) : NamesUnwritten .ibuf e.ibuf k f := by
  induction c with
  | zero =>
    rcases andThen_eq_fault.mp h with h | ⟨b, -, h⟩
    · exact segEq_fault hwin hpat h
    · split at h <;> cases h
  | succ c ih =>
    rcases andThen_eq_fault.mp h with h | ⟨b, -, h⟩
    · exact segEq_fault hwin hpat h
    · split at h
      · cases h
      · exact ih (by omega) h

theorem mfFind_fault {p k : Nat} {e : Enc} {f : Fault} (hwin : e.ws + e.n = e.pos) (hpat : e.pos + p ≤ k)
    (h : mfFind p e = .fault f) : NamesUnwritten .ibuf e.ibuf k f := by
  rcases Nat.eq_zero_or_pos p with rfl | hp
  · cases h
  · rcases Nat.lt_or_ge e.n p with hn | hn
    · rw [mfFind_of_window_lt hp hn] at h
      cases h
    · rw [mfFind_of_le_window hp hn] at h
      exact findFrom_fault (e := { e with mfP := p }) (by simp only; omega) hpat h

/-! ## The encoder's search and its faults -/

/-- The window registers of a step: the window ends at the cursor and is no longer than the width allows (41_encoder.md
R102). -/
structure WindowSet (w : Width) (e : Enc) : Prop where
  ends : e.ws + e.n = e.pos
  bounded : e.n ≤ wmax w

theorem WindowSet.encWindow (w : Width) (e : Enc) : WindowSet w (Machine.encWindow w e) :=
  ⟨(window_bounds w e.pos).1, (window_bounds w e.pos).2⟩

/-- The search leaves the window as it is. -/
theorem SearchOnly.windowSet {w : Width} {e f : Enc} (h : SearchOnly e f) (hw : WindowSet w e) : WindowSet w f := by
  constructor
  · rw [h.ws, h.n, h.pos]
    exact hw.ends
  · rw [h.n]
    exact hw.bounded

theorem encGrow_of_read {l : Nat} {e : Enc} {x : Symbol} (hx : Memory.read e.ibuf (e.pos + l) = some x) :
    ∃ g, encGrow l e = .next g ∧ SearchOnly e g := by
  have hg : encGrow l e = .next { e with bo := BitVec.ofNat 32 (e.n - e.mfM), bl := BitVec.ofNat 32 l, bs := x } := by
    rw [encGrow, memRead_of_read _ hx, andThen_next]
  exact ⟨_, hg, (encGrow_spec hg).1⟩

theorem encGrow_of_unwritten {l : Nat} {e : Enc} (hx : Memory.read e.ibuf (e.pos + l) = none) :
    encGrow l e = .fault (.unwrittenCell .ibuf (e.pos + l)) := by
  rw [encGrow, memRead_of_unwritten _ hx, andThen_fault]

/-- A search of one length changes working registers only. -/
theorem mfFind_searchOnly {p l : Nat} {e f : Enc} (h : mfFind p { e with s := l } = .next f) : SearchOnly e f := by
  have hlen : SearchOnly e { e with s := l } := by constructor <;> rfl
  exact hlen.trans (mfFind_spec h).2.1.searchOnly

/-- An occurrence lies in the window, so that its distance and its length fit the width (41_encoder.md R108). -/
theorem OccursAt.widthFits {w : Width} {e : Enc} {l i : Nat} (h : OccursAt e l i) (hn : e.n ≤ wmax w) :
    widthOverflows w (e.n - i) l = false := by
  have hin := h.1
  simp only [widthOverflows, Bool.or_eq_false_iff, decide_eq_false_iff_not]
  omega

/-- Where a length occurs in a written window, the search makes its code and goes on to the next length
(41_encoder.md R105, R107). -/
theorem encSearch_of_occurs {w : Width} {l i : Nat} {e : Enc} (hwin : WindowSet w e) (hl : 0 < l)
    (hr : WrittenBelow e.ibuf (e.pos + l)) (hocc : OccursAt e l i) :
    ∃ f, SearchOnly e f ∧ ∀ r, encSearch w (r + 1) l e = andThen (encGrow l f) (encSearch w r (l + 1)) := by
  obtain ⟨f, hf⟩ := mfFind_answers (e := { e with s := l }) hl hwin.ends hr
  have hso := mfFind_searchOnly hf
  obtain ⟨-, -, -, ⟨hhit, hright⟩ | ⟨-, -, hno⟩⟩ := mfFind_spec hf
  · have hfits : widthOverflows w (f.n - f.mfM) l = false := by
      rw [hso.n]
      exact OccursAt.widthFits (e := e) hright.1 hwin.bounded
    refine ⟨f, hso, fun r => ?_⟩
    rw [encSearch, hf, andThen_next, if_pos hhit, hfits, if_neg Bool.false_ne_true]
  · exact absurd hocc (hno i)

/-- The search reaches the symbol beyond a match: where the first `l` symbols of the lookahead occur in the window and the next
one was never written, the search faults on it (41_encoder.md R107). -/
theorem encSearch_of_unwritten_literal {w : Width} {l i : Nat} : ∀ {r k : Nat} {e : Enc}, WindowSet w e → 0 < k →
    k ≤ l → l < k + r → WrittenBelow e.ibuf (e.pos + l) → OccursAt e l i → Memory.read e.ibuf (e.pos + l) = none →
    encSearch w r k e = .fault (.unwrittenCell .ibuf (e.pos + l)) := by
  intro r
  induction r with
  | zero =>
    intro k e _ _ hkl hlr
    omega
  | succ r ih =>
    intro k e hwin hk hkl hlr hr hocc hnone
    obtain ⟨f, hso, hsearch⟩ := encSearch_of_occurs hwin hk (fun a ha => hr a (by omega)) (hocc.shorter hkl)
    rw [hsearch]
    rcases Nat.lt_or_eq_of_le hkl with hlt | rfl
    · obtain ⟨x, hx⟩ := hr (e.pos + k) (by omega)
      obtain ⟨g, hg, hfg⟩ := encGrow_of_read (l := k) (e := f) (by rw [hso.ibuf, hso.pos]; exact hx)
      have heg := hso.trans hfg
      rw [hg, andThen_next, ← heg.pos]
      exact ih (heg.windowSet hwin) (Nat.succ_pos k) hlt (by omega) (by rw [heg.ibuf, heg.pos]; exact hr)
        ((heg.occursAt l i).mpr hocc) (by rw [heg.ibuf, heg.pos]; exact hnone)
    · rw [encGrow_of_unwritten (by rw [hso.ibuf, hso.pos]; exact hnone), andThen_fault, hso.pos]

/-- The first search compares the window's last symbol first, and faults where that was never written
(40_match_finder.md R91, R95). -/
theorem encSearch_of_unwritten_last {w : Width} {r : Nat} {e : Enc} (hwin : WindowSet w e) (hn : 0 < e.n)
    (hnone : Memory.read e.ibuf (e.pos - 1) = none) :
    encSearch w (r + 1) 1 e = .fault (.unwrittenCell .ibuf (e.pos - 1)) := by
  have hends := hwin.ends
  have hlast : e.ws + (e.n - 1) = e.pos - 1 := by omega
  have hfind : mfFind 1 { e with s := 1 } = .fault (.unwrittenCell .ibuf (e.pos - 1)) := by
    rw [mfFind_of_le_window (e := { e with s := 1 }) Nat.one_pos hn]
    refine findFrom_of_first_fault ?_
    simp only [hlast]
    exact segEq_of_unwritten_left hnone
  rw [encSearch, hfind, andThen_fault]

/-- The search faults for nothing but a cell, up to the lookahead's end, that holds no value. -/
theorem encSearch_fault {w : Width} {k : Nat} {f : Fault} : ∀ {r l : Nat} {e : Enc}, WindowSet w e → e.pos + l + r ≤ k →
    encSearch w r l e = .fault f → NamesUnwritten .ibuf e.ibuf k f := by
  intro r
  induction r with
  | zero =>
    intro l e _ _ h
    cases h
  | succ r ih =>
    intro l e hwin hk h
    rcases andThen_eq_fault.mp h with h | ⟨e', he', h⟩
    · exact mfFind_fault (e := { e with s := l }) hwin.ends (by simp only; omega) h
    · have hso := mfFind_searchOnly he'
      split at h
      · split at h
        · cases h
        · rcases andThen_eq_fault.mp h with h | ⟨g, hg, h⟩
          · rcases andThen_eq_fault.mp h with h | ⟨x, -, h⟩
            · exact hso.ibuf ▸ memRead_fault h (by rw [hso.pos]; omega)
            · cases h
          · have heg := hso.trans (encGrow_spec hg).1
            exact heg.ibuf ▸ ih (heg.windowSet hwin) (by rw [heg.pos]; omega) h
      · cases h

/-! ## The encoder's step and its faults -/

theorem encEmit_ne_fault (s : State) (f : Fault) : encEmit s ≠ .fault f := by
  unfold encEmit
  split <;> simp

theorem encTrivial_of_read {e : Enc} {x : Symbol} (hx : Memory.read e.ibuf e.pos = some x) :
    ∃ f, encTrivial e = .next f ∧ SearchOnly e f := by
  have hf : encTrivial e = .next { e with bo := 0, bl := 0, bs := x } := by
    rw [encTrivial, memRead_of_read _ hx, andThen_next]
  exact ⟨_, hf, (encTrivial_spec hf).1⟩

theorem encStep_of_unwritten_cursor {w : Width} {s : State} (hnone : Memory.read s.enc.ibuf s.enc.pos = none) :
    encStep w s = .fault (.unwrittenCell .ibuf s.enc.pos) := by
  have htrivial : encTrivial (encWindow w s.enc) = .fault (.unwrittenCell .ibuf s.enc.pos) := by
    rw [encTrivial, encWindow_ibuf, encWindow_pos, memRead_of_unwritten _ hnone, andThen_fault]
  rw [encStep, htrivial, andThen_fault]

/-- A step whose trivial code is read faults exactly as its search does: the emission reads no cell (41_encoder.md R111). -/
theorem encStep_fault_iff {w : Width} {s : State} {x : Symbol} (hx : Memory.read s.enc.ibuf s.enc.pos = some x) :
    ∃ e, SearchOnly (encWindow w s.enc) e ∧
      ∀ f, encStep w s = .fault f ↔ encSearch w (s.enc.ilen - s.enc.pos - 1) 1 e = .fault f := by
  obtain ⟨e, htrivial, he⟩ := encTrivial_of_read (e := encWindow w s.enc) hx
  refine ⟨e, he, fun f => ?_⟩
  rw [encStep, htrivial, andThen_next, andThen_eq_fault, he.L, encWindow_L]
  refine or_iff_left ?_
  rintro ⟨r, -, h⟩
  split at h
  · cases h
  · exact encEmit_ne_fault _ _ h

/-- The window of a cursor beyond the start is not empty (41_encoder.md R102). -/
theorem window_nonempty (w : Width) {pos : Nat} (h : 1 ≤ pos) : 0 < pos - windowStart w pos := by
  have hw := le_wmax w
  unfold windowStart
  split <;> omega

/-- A step with a window and a search faults where the window's last symbol was never written (40_match_finder.md R91, R95). -/
theorem encStep_of_unwritten_last {w : Width} {s : State} {x : Symbol} (hx : Memory.read s.enc.ibuf s.enc.pos = some x)
    (hstart : 1 ≤ s.enc.pos) (hlook : s.enc.pos + 1 < s.enc.ilen) (hnone : Memory.read s.enc.ibuf (s.enc.pos - 1) = none) :
    encStep w s = .fault (.unwrittenCell .ibuf (s.enc.pos - 1)) := by
  obtain ⟨e, he, hiff⟩ := encStep_fault_iff (w := w) hx
  obtain ⟨r, hr⟩ := Nat.exists_eq_add_one_of_ne_zero (show s.enc.ilen - s.enc.pos - 1 ≠ 0 by omega)
  have hcur : e.pos = s.enc.pos := he.pos
  rw [hiff, hr, ← hcur]
  exact encSearch_of_unwritten_last (he.windowSet (.encWindow w s.enc)) (by rw [he.n]; exact window_nonempty w hstart)
    (by rw [he.ibuf, hcur]; exact hnone)

/-- A step faults where the symbol beyond a match was never written (41_encoder.md R107). -/
theorem encStep_of_unwritten_literal {w : Width} {s : State} {l i : Nat} (hl : 1 ≤ l) (hlook : s.enc.pos + l < s.enc.ilen)
    (hr : WrittenBelow s.enc.ibuf (s.enc.pos + l)) (hocc : OccursAt (encWindow w s.enc) l i)
    (hnone : Memory.read s.enc.ibuf (s.enc.pos + l) = none) :
    encStep w s = .fault (.unwrittenCell .ibuf (s.enc.pos + l)) := by
  obtain ⟨x, hx⟩ := hr s.enc.pos (by omega)
  obtain ⟨e, he, hiff⟩ := encStep_fault_iff (w := w) hx
  have hcur : e.pos = s.enc.pos := he.pos
  rw [hiff, ← hcur]
  exact encSearch_of_unwritten_literal (he.windowSet (.encWindow w s.enc)) Nat.one_pos hl (by omega)
    (by rw [he.ibuf, hcur]; exact hr) ((he.occursAt l i).mpr hocc) (by rw [he.ibuf, hcur]; exact hnone)

/-- The step faults for nothing but a cell of the input that holds no value. -/
theorem encStep_fault {w : Width} {s : State} {f : Fault} (hpos : s.enc.pos < s.enc.ilen) (h : encStep w s = .fault f) :
    NamesUnwritten .ibuf s.enc.ibuf s.enc.ilen f := by
  cases hread : Memory.read s.enc.ibuf s.enc.pos with
  | none =>
    rw [encStep_of_unwritten_cursor hread] at h
    exact ⟨_, (Host.Outcome.fault.inj h).symm, hpos, hread⟩
  | some x =>
    obtain ⟨e, he, hiff⟩ := encStep_fault_iff (w := w) hread
    have hibuf : e.ibuf = s.enc.ibuf := he.ibuf
    have hcur : e.pos = s.enc.pos := he.pos
    exact hibuf ▸ encSearch_fault (he.windowSet (.encWindow w s.enc)) (by omega) ((hiff f).mp h)

/-- A transition of the encoder faults for nothing but a cell of the input that holds no value. -/
theorem encTick_fault {s : State} {f : Fault} (h : encTick s = .fault f) :
    NamesUnwritten .ibuf s.enc.ibuf s.enc.ilen f := by
  unfold encTick at h
  split at h
  · split at h
    · next hpos =>
      split at h
      · exact encStep_fault hpos h
      · cases h
    · cases h
  all_goals cases h

/-! ## The decoder: its code's cells and its copy -/

/-- A busy decoder with a code left fetches it and runs it (42_decoder.md R121). -/
theorem decTick_of_running {w : Width} {s : State} (hb : s.dec.state = .busy) (hk : s.dec.k < s.dec.clen)
    (hw : widthOf s.dec.wsel = some w) : decTick s = andThen (fetchCode w s.dec) fun r => runWord r s := by
  simp only [decTick, hb, hk, if_true, hw]

/-- The fetch faults for nothing but a cell of its code that holds no value (30_encoding.md R72). -/
theorem fetchCode_fault {w : Width} {d : Dec} {f : Fault} (h : fetchCode w d = .fault f) :
    ∃ j, j < 3 ∧ f = .unwrittenCell .decCbuf (cellIndex d.k j) ∧ Memory.read d.cbuf (cellIndex d.k j) = none := by
  simp only [fetchCode, andThen_eq_fault, memRead_eq_fault] at h
  rcases h with ⟨hnone, hf⟩ | ⟨o, -, ⟨hnone, hf⟩ | ⟨l, -, ⟨hnone, hf⟩ | ⟨c, -, h⟩⟩⟩
  · exact ⟨0, by decide, hf, hnone⟩
  · exact ⟨1, by decide, hf, hnone⟩
  · exact ⟨2, by decide, hf, hnone⟩
  · cases h

/-- The copy reaches its `j`-th source cell, below the destination, when those before it are written, and faults where that one
holds no value: the cells that it has appended lie above (42_decoder.md R125). -/
theorem copyFrom_of_unwritten {j : Nat} : ∀ {r src dst : Nat} {m : List Host.Cell}, j < r → src + j < dst →
    (∀ a, a < j → ∃ v, Memory.read m (src + a) = some v) → Memory.read m (src + j) = none →
    copyFrom r src dst m = .fault (.unwrittenCell .obuf (src + j)) := by
  induction j with
  | zero =>
    intro r src dst m hr _ _ hnone
    obtain ⟨r, rfl⟩ := Nat.exists_eq_add_one_of_ne_zero (Nat.ne_of_gt hr)
    rw [copyFrom, memRead_of_unwritten (i := src) _ hnone, andThen_fault, Nat.add_zero]
  | succ j ih =>
    intro r src dst m hr hlt hw hnone
    obtain ⟨r, rfl⟩ := Nat.exists_eq_add_one_of_ne_zero (Nat.ne_zero_of_lt hr)
    obtain ⟨v, hv⟩ := hw 0 (Nat.succ_pos j)
    have hnext : src + 1 + j = src + (j + 1) := by omega
    rw [copyFrom, memRead_of_read (i := src) _ hv, andThen_next, ← hnext]
    refine ih (by omega) (by omega) (fun a ha => ?_) ?_
    · rw [Memory.read_write_ne _ _ (by omega), Nat.add_assoc, Nat.add_comm 1]
      exact hw (a + 1) (by omega)
    · rw [Memory.read_write_ne _ _ (by omega), hnext]
      exact hnone

/-- The copy faults for nothing but a cell below its destination that holds no value: what it appends is written. -/
theorem copyFrom_fault {r : Nat} {f : Fault} : ∀ {src dst : Nat} {m : List Host.Cell}, src < dst →
    copyFrom r src dst m = .fault f → NamesUnwritten .obuf m dst f := by
  induction r with
  | zero =>
    intro src dst m _ h
    cases h
  | succ r ih =>
    intro src dst m hlt h
    rcases andThen_eq_fault.mp h with h | ⟨v, -, h⟩
    · exact memRead_fault h hlt
    · obtain ⟨i, hf, hi, hnone⟩ := ih (by omega) h
      have hne : i ≠ dst := by
        rintro rfl
        simp at hnone
      exact ⟨i, hf, by omega, (Memory.read_write_ne m v hne).symm.trans hnone⟩

/-- A code that is admitted and copies faults exactly as its copy does (42_decoder.md R122). -/
theorem decCode_fault_iff {o l : Field} {lit : Symbol} {s : State} {f : Fault} (hin : o.toNat ≤ s.dec.pos)
    (ho : 0 < o.toNat) (hl : 0 < l.toNat) (hfit : OutputFits s.params (s.dec.pos + l.toNat + 1)) :
    decCode o l lit s = .fault f ↔ copyFrom l.toNat (s.dec.pos - o.toNat) s.dec.pos s.dec.obuf = .fault f := by
  have hval := offsetInvalid_eq_false (l := l.toNat).mpr ⟨hin, fun _ => ho⟩
  rw [decCode, hval, if_neg Bool.false_ne_true, if_pos (Bool.and_eq_true_iff.mpr hfit), decCopy, decLoad_l, if_pos hl]
  simp only [cuCopy, andThen_eq_fault, reduceCtorEq, and_false, exists_false, or_false]
  rfl

/-- A code faults for nothing but a cell below the position that holds no value. -/
theorem decCode_fault {o l : Field} {lit : Symbol} {s : State} {f : Fault} (h : decCode o l lit s = .fault f) :
    NamesUnwritten .obuf s.dec.obuf s.dec.pos f := by
  have h0 := h
  unfold decCode at h
  split at h
  · cases h
  · next hval =>
    obtain ⟨hin, hnz⟩ := offsetInvalid_eq_false.mp (Bool.eq_false_iff.mpr hval)
    split at h
    · next hfit =>
      rcases Nat.eq_zero_or_pos l.toNat with hl | hl
      · rw [decCopy, decLoad_l, if_neg (by omega)] at h
        cases h
      · have ho := hnz hl
        exact copyFrom_fault (by omega) ((decCode_fault_iff hin ho hl (Bool.and_eq_true_iff.mp hfit)).mp h0)
    · cases h

/-- A transition of the decoder faults for nothing but a cell of its code, or a cell of its output below the position, that
holds no value. -/
theorem decTick_fault {s : State} {f : Fault} (h : decTick s = .fault f) :
    (∃ j, j < 3 ∧ f = .unwrittenCell .decCbuf (cellIndex s.dec.k j) ∧
      Memory.read s.dec.cbuf (cellIndex s.dec.k j) = none) ∨ NamesUnwritten .obuf s.dec.obuf s.dec.pos f := by
  have h0 := h
  unfold decTick at h
  split at h
  · next hb =>
    split at h
    · next hk =>
      split at h
      · next w hw =>
        rcases andThen_eq_fault.mp h with h | ⟨r, hr, -⟩
        · exact Or.inl (fetchCode_fault h)
        · obtain ⟨o, l, c, -, ho, hl, hc⟩ := fetchCode_spec hr
          rw [decTick_of_reads hb hk hw ho hl hc] at h0
          split at h0
          · cases h0
          · exact Or.inr (decCode_fault h0)
      · cases h
    · cases h
  all_goals cases h

/-! ## The statements -/

/-- Settles O26: the finder answers on a written window and pattern (`mfFind_answers`), and its answer is the rightmost
occurrence or that there is none (`mfFind_spec`). -/
theorem finderReturnsTheRightmostMatch : Obligations.FinderReturnsTheRightmostMatch := by
  intro e p hp hwin hwritten
  obtain ⟨f, hf⟩ := mfFind_answers hp hwin hwritten
  obtain ⟨-, -, -, ⟨hhit, hocc, hmax⟩ | ⟨hmiss, -, hno⟩⟩ := mfFind_spec hf
  · exact ⟨f, hf, Or.inl ⟨⟨_, hocc⟩, hhit, hocc, hmax⟩⟩
  · exact ⟨f, hf, Or.inr ⟨hno, hmiss⟩⟩

/-- Settles O29: the two units have the same occurrences (`occursAt_congr`), so both find none or both find the one rightmost
occurrence. -/
theorem finderIsAFunctionOfWindowAndPattern : Obligations.FinderIsAFunctionOfWindowAndPattern := by
  refine ⟨fun e f p h => (mfFind_spec h).2.1.eq_update, fun e e' f f' p hn hwin hpat h h' => ?_⟩
  have hsame := occursAt_congr hn hwin hpat
  obtain ⟨-, -, hmfP, hfound⟩ := mfFind_spec h
  obtain ⟨-, -, hmfP', hfound'⟩ := mfFind_spec h'
  have hp : f.mfP = f'.mfP := hmfP.trans hmfP'.symm
  obtain ⟨hhit, hright⟩ | ⟨hmiss, -, hno⟩ := hfound <;> obtain ⟨hhit', hright'⟩ | ⟨hmiss', -, hno'⟩ := hfound'
  · have hm : f.mfM = f'.mfM := by
      unfold RightmostAt at hright
      simp only [hsame] at hright
      exact RightmostAt.unique hright hright'
    have hc : f.mfC = f'.mfC := by rw [mfFind_hit_candidate h hhit, mfFind_hit_candidate h' hhit', hm]
    exact ⟨hhit.trans hhit'.symm, fun _ => ⟨hm, hc⟩, hp⟩
  · exact absurd ((hsame _).mp hright.1) (hno' _)
  · exact absurd ((hsame _).mpr hright'.1) (hno _)
  · exact ⟨hmiss.trans hmiss'.symm, fun hhit => absurd hhit (by simp [hmiss]), hp⟩

/-- Settles O59, clause by clause: the encoder, the segment comparison, the decoder's fetch and its copy, the host's reads, and
that a unit faults for nothing else. -/
theorem unwrittenCellFaults : Obligations.UnwrittenCellFaults := by
  refine ⟨?_, ?_, ?_, ?_, fun s i hb hfit hnone => hostReadCell_of_unwritten hfit hb (Option.map_eq_none_iff.mpr hnone),
    fun s i hb hfit hnone => hostReadCell_of_unwritten hfit hb (Option.map_eq_none_iff.mpr hnone),
    fun s i hb hfit hnone => hostReadCell_of_unwritten hfit hb (Option.map_eq_none_iff.mpr hnone),
    fun s i hb hfit hnone => hostReadCell_of_unwritten hfit hb (Option.map_eq_none_iff.mpr hnone),
    fun s f h => encTick_fault h, ?_⟩
  · intro s w hb hw hpos
    rw [encTick_of_running hb hpos hw]
    exact ⟨encStep_of_unwritten_cursor, fun x hx hstart hlook => encStep_of_unwritten_last hx hstart hlook,
      fun l hl hlook hr ⟨i, hocc⟩ => encStep_of_unwritten_literal hl hlook hr hocc⟩
  · intro m a b p j hj hequal
    obtain ⟨q, rfl⟩ : ∃ q, p = j + (q + 1) := ⟨p - j - 1, by omega⟩
    rw [segEq_of_equal_before j hequal]
    exact ⟨segEq_of_unwritten_left, fun x => segEq_of_unwritten_right⟩
  · intro s w hb hw hk
    rw [decTick_of_running hb hk hw, fetchCode]
    refine ⟨fun ho => ?_, fun o ho hl => ?_, fun o l ho hl hc => ?_⟩
    · rw [memRead_of_unwritten _ ho, andThen_fault, andThen_fault]
    · rw [memRead_of_read _ ho, andThen_next, memRead_of_unwritten _ hl, andThen_fault, andThen_fault]
    · rw [memRead_of_read _ ho, andThen_next, memRead_of_read _ hl, andThen_next, memRead_of_unwritten _ hc, andThen_fault,
        andThen_fault]
  · intro i o l lit s j hi hin hjo hjl hfit hw hnone
    rw [exec_code hi, decCode_fault_iff hin (by omega) (by omega) hfit]
    exact copyFrom_of_unwritten hjl (by omega) hw hnone
  · intro s f h
    rcases decTick_fault h with hcode | ⟨i, hf, hi, hnone⟩
    · exact Or.inl hcode
    · exact Or.inr ⟨i, hi, hf, hnone⟩

/-- Settles O27: the window's length is compared before a candidate is formed (`mfFind_of_window_lt`). -/
theorem patternLongerThanWindowIsNoMatch : Obligations.PatternLongerThanWindowIsNoMatch :=
  fun _ _ hp hn => mfFind_of_window_lt hp hn

/-- Settles O28: the empty pattern is refused before the window is looked at (`mfFind_empty`). -/
theorem emptyPatternIsRefused : Obligations.EmptyPatternIsRefused :=
  mfFind_empty

end Sys2Proof.Machine
end

section
/-! SUPPORT. The proofs of 41_encoder.md: the window of a step, the code that it emits, and that it never raises. -/

namespace Sys2Proof.Machine

/-! ## The code of a step, in terms of the input -/

/-- A code reaches back no further than its window (41_encoder.md R109 (c), (d)). -/
theorem CodeFor.offset_le_window {e : Enc} {l : Nat} (h : CodeFor e l) : e.bo.toNat ≤ e.n := by
  rcases Nat.eq_zero_or_pos l with hzero | hpos
  · rw [h.zero hzero]
    exact Nat.zero_le _
  · obtain ⟨m, -, hoff⟩ := h.found hpos
    omega

/-- Where the window ends at the cursor, the segment that a code copies reads the same as the segment it replaces
(41_encoder.md R109 (f)). -/
theorem CodeFor.segment {e : Enc} {l : Nat} (h : CodeFor e l) (hwin : e.ws + e.n = e.pos) {j : Nat} (hj : j < l) :
    Memory.read e.ibuf (e.pos - e.bo.toNat + j) = Memory.read e.ibuf (e.pos + j) := by
  obtain ⟨m, ⟨⟨hfit, hread⟩, -⟩, hoff⟩ := h.found (by omega)
  have hsource : e.pos - e.bo.toNat = e.ws + m := by omega
  rw [hsource, hread j hj]

/-- No prefix longer than the step's code occurs in the window, since one symbol more already does not (41_encoder.md R106). -/
theorem StepEmits.no_longer_match {w : Width} {s t : State} {f : Enc} {l l' : Nat} (h : StepEmits w s t f l) (hlt : l < l')
    (hle : l' ≤ s.enc.ilen - s.enc.pos - 1) (i : Nat) : ¬ OccursAt (encWindow w s.enc) l' i :=
  fun hocc => h.longest (by omega) i (hocc.shorter hlt)

/-- A transition of a running call that completes has emitted a code. -/
theorem stepEmits_of_encTick {w : Width} {s t : State} (hb : s.enc.state = .busy) (hw : widthOf s.enc.wsel = some w)
    (hpos : s.enc.pos < s.enc.ilen) (h : encTick s = .next t) : ∃ f, StepEmits w s t f f.bl.toNat := by
  rw [encTick_of_running hb hpos hw] at h
  obtain ⟨f, l, hstep⟩ := encStep_spec h
  obtain rfl := hstep.code.length
  exact ⟨f, hstep⟩

/-- At the last symbol no length is searched: the step emits the trivial code (41_encoder.md R104, R105). -/
theorem encStep_of_last_symbol {w : Width} {s : State} {x : Symbol} (hlast : s.enc.pos + 1 = s.enc.ilen)
    (hx : Memory.read s.enc.ibuf s.enc.pos = some x) (hfit : EmitFits s.params (s.enc.clen + 1) (s.enc.pos + 1)) :
    encStep w s = .next { s with enc := { encWindow w s.enc with
      bo := 0, bl := 0, bs := x
      cbuf := writeCode s.enc.cbuf s.enc.clen 0 0 x
      clen := s.enc.clen + 1
      pos := s.enc.pos + 1 } } := by
  have htrivial : encTrivial (encWindow w s.enc) = .next { encWindow w s.enc with bo := 0, bl := 0, bs := x } := by
    simp only [encTrivial, encWindow_ibuf, encWindow_pos, memRead_of_read _ hx, andThen_next]
  have hnone : s.enc.ilen - s.enc.pos - 1 = 0 := by omega
  simp only [encStep, htrivial, andThen_next, encWindow_L, hnone, encSearch, Bool.false_eq_true, if_false]
  exact if_pos (Bool.and_eq_true_iff.mpr hfit)

/-! ## The encoder's cause -/

/-- A transition of the encoder leaves `ENC.CAUSE` as it is (41_encoder.md R108). -/
theorem encTick_cause {s t : State} (h : encTick s = .next t) : t.enc.cause = s.enc.cause := by
  rcases encTick_cases h with ⟨-, -, w, -, f, l, hstep⟩ | ⟨-, -, rfl⟩ | ⟨-, rfl⟩
  · rw [hstep.result]
    exact hstep.search.cause
  · rfl
  · rfl

/-- A move of the host leaves `ENC.CAUSE` as it is or clears it (43_commands.md R150, 70_reset_and_hazards.md R180). -/
theorem hostMove_encCause {m : HostMove} {s t : State} (h : hostMove m s = .next t) :
    t.enc.cause = s.enc.cause ∨ t.enc.cause = .none := by
  rcases hostMove_cases h with rfl | ⟨u, w, -, -, rfl, -⟩ | ⟨u, v, -, -, rfl⟩ | ⟨u, v, -, -, rfl⟩ | ⟨i, v, -, -, rfl⟩ |
    ⟨i, v, -, -, rfl⟩ | ⟨v, c, rfl⟩ | ⟨-, rfl⟩
  · exact Or.inl rfl
  · cases u with
    | enc => exact Or.inr rfl
    | dec => exact Or.inl rfl
  · cases u <;> exact Or.inl rfl
  · cases u <;> exact Or.inl rfl
  · exact Or.inl rfl
  · exact Or.inl rfl
  · exact Or.inl rfl
  · exact Or.inr rfl

/-! ## The statements -/

/-- Settles O31: the step completes by `encStep_answers`, and what it emits is told by `StepEmits`, whose working registers
hold the code of the longest match. -/
theorem encoderStepEmitsTheLongestMatch : Obligations.EncoderStepEmitsTheLongestMatch := by
  intro w s hb hw hpos hin hroom
  obtain ⟨t, hstep⟩ := encStep_answers (w := w) hpos hin hroom
  have htick : encTick s = .next t := (encTick_of_running hb hpos hw).trans hstep
  obtain ⟨f, hemits⟩ := stepEmits_of_encTick hb hw hpos htick
  have hsearch := hemits.search
  have hibuf : f.ibuf = s.enc.ibuf := hsearch.ibuf
  have hcursor : f.pos = s.enc.pos := hsearch.pos
  have hfound : 0 < f.bl.toNat →
      ∃ m, RightmostAt (encWindow w s.enc) f.bl.toNat m ∧ f.bo.toNat = (encWindow w s.enc).n - m := by
    intro hl
    obtain ⟨m, hright, hoff⟩ := hemits.code.found hl
    exact ⟨m, (hsearch.rightmostAt _ _).mp hright, hsearch.n ▸ hoff⟩
  have hliteral : Memory.read s.enc.ibuf (s.enc.pos + f.bl.toNat) = some f.bs :=
    hibuf ▸ hcursor ▸ hemits.code.literal
  have hframe := encTick_frame htick
  refine ⟨t, f.bo, f.bl, f.bs, htick, hemits.inRange, hemits.code.zero, hfound,
    fun l' => hemits.no_longer_match, hliteral, ?_⟩
  obtain rfl := hemits.result
  exact ⟨read_writeCode_offset _ _ _ _ _, read_writeCode_length _ _ _ _ _, read_writeCode_literal _ _ _ _ _,
    fun a => read_writeCode_other _ _ _ _ _, rfl, rfl, hsearch.wsel, hibuf, hsearch.ilen, hsearch.state.trans hb,
    hsearch.cause, hsearch.past, hframe⟩

/-- Settles O32: the code of a step is that of a match inside its window (`CodeFor`), and the window is bounded by the width and
ends at the cursor. -/
theorem emittedCodesKeepTheirBounds : Obligations.EmittedCodesKeepTheirBounds := by
  intro w s t hb hw hpos htick
  obtain ⟨f, hemits⟩ := stepEmits_of_encTick hb hw hpos htick
  have hibuf : f.ibuf = s.enc.ibuf := hemits.search.ibuf
  have hcursor : f.pos = s.enc.pos := hemits.search.pos
  obtain ⟨hends, hbounded⟩ := hemits.search.windowSet (.encWindow w s.enc)
  obtain ⟨hzero, hcopy⟩ := hemits.code.litOrCopy
  have hoffset := hemits.code.offset_le_window
  have hrange := hemits.inRange
  have hsegment := fun j (hj : j < f.bl.toNat) => hemits.code.segment hends hj
  have hliteral := hemits.code.literal
  rw [hibuf, hcursor] at hliteral
  simp only [hibuf, hcursor] at hsegment
  obtain rfl := hemits.result
  exact ⟨f.bo, f.bl, f.bs,
    ⟨read_writeCode_offset _ _ _ _ _, read_writeCode_length _ _ _ _ _, read_writeCode_literal _ _ _ _ _, by omega, by omega⟩,
    hzero, hcopy, by omega, by omega, hsegment, hliteral⟩

/-- Settles O33: the encoder's own transition leaves the cause (`encTick_cause`), the decoder's leaves the encoder, and the host
can only clear it. -/
theorem widthOverflowIsNeverRaised : Obligations.WidthOverflowIsNeverRaised := by
  intro s t h hcause
  rcases step_cases h with ⟨-, h⟩ | ⟨-, h⟩ | ⟨-, -, rfl⟩ | ⟨-, m, rest, -, h⟩
  · exact (encTick_cause h).symm.trans hcause
  · rw [decTick_frame h] at hcause
    exact hcause
  · exact hcause
  · rcases hostMove_encCause h with hkept | hcleared
    · exact hkept.symm.trans hcause
    · rw [hcleared] at hcause
      cases hcause

/-- Settles O30, by whether the window is cut off at `WMAX(W)`. -/
theorem windowIsTheBoundedTrailingPart : Obligations.WindowIsTheBoundedTrailingPart := by
  intro w e
  simp only [encWindow_ws, encWindow_n, windowStart]
  split <;> omega

/-- Settles O34: no length is searched (`encStep_of_last_symbol`). -/
theorem lastSymbolIsALiteral : Obligations.LastSymbolIsALiteral := by
  intro w s x hb hw hlast hx hfit
  rw [encTick_of_running hb (by omega) hw]
  exact ⟨_, encStep_of_last_symbol hlast hx (hlast.symm ▸ hfit), hlast, rfl, rfl⟩

end Sys2Proof.Machine
end

section
/-! SUPPORT. The proofs of 42_decoder.md: what each class of code does, a whole `DECODE` call, and the round-trip law. -/

namespace Sys2Proof.Machine

/-! ## One code -/

/-- The cells of a buffer from a position on are what a code admitted there makes of the cells below: each copied cell reads as
the cell `offset` before it, and the literal follows (42_decoder.md R122, R125, R127). -/
structure Spells (m : List Host.Cell) (p : Nat) (o l : Field) (lit : Symbol) : Prop where
  admitted : offsetInvalid p o.toNat l.toNat = false
  copied : ∀ i, i < l.toNat → Memory.read m (p + i) = Memory.read m (p - o.toNat + i)
  literal : Memory.read m (p + l.toNat) = some lit

section

variable {o l : Field} {lit : Symbol} {p : Nat} {s t : State} {m : List Host.Cell}

/-- The copied cells repeat the last `offset` cells below the position (42_decoder.md R134). -/
theorem Spells.periodic (h : Spells m p o l lit) (i : Nat) (hi : i < l.toNat) :
    Memory.read m (p + i) = Memory.read m (p - o.toNat + i % o.toNat) := by
  obtain ⟨hin, hnz⟩ := offsetInvalid_eq_false.mp h.admitted
  have ho := hnz (by omega)
  induction i using Nat.strongRecOn with
  | ind i ih =>
    rw [h.copied i hi]
    rcases Nat.lt_or_ge i o.toNat with hlt | hge
    · rw [Nat.mod_eq_of_lt hlt]
    · have hback : p - o.toNat + i = p + (i - o.toNat) := by omega
      rw [hback, ih (i - o.toNat) (by omega) (by omega), ← Nat.mod_eq_sub_mod hge]

/-- The source cell of a copied cell lies below the position. -/
theorem Spells.source_lt (h : Spells m p o l lit) {i : Nat} (hi : i < l.toNat) :
    p - o.toNat + i % o.toNat < p := by
  obtain ⟨hin, hnz⟩ := offsetInvalid_eq_false.mp h.admitted
  have hmod := Nat.mod_lt i (hnz (by omega))
  omega

/-- A code that runs leaves the cells outside its output (42_decoder.md R122). -/
theorem CodeRuns.elsewhere (h : CodeRuns o l lit s t m) {a : Nat} (ha : a < s.dec.pos ∨ s.dec.pos + l.toNat < a) :
    Memory.read t.dec.obuf a = Memory.read s.dec.obuf a := by
  rw [h.result, Memory.read_write_ne _ _ (by omega), h.copied.elsewhere a (by omega)]

/-- The copied cells of a code that runs hold what the copy unit wrote: the literal comes after them. -/
theorem CodeRuns.read_copied (h : CodeRuns o l lit s t m) {a : Nat} (ha : a < s.dec.pos + l.toNat) :
    Memory.read t.dec.obuf a = Memory.read m a := by
  rw [h.result, Memory.read_write_ne _ _ (by omega)]

theorem CodeRuns.admitted (h : CodeRuns o l lit s t m) : offsetInvalid s.dec.pos o.toNat l.toNat = false :=
  offsetInvalid_eq_false.mpr ⟨h.inStream, h.nonzero⟩

/-- What a code that runs has appended. -/
theorem CodeRuns.spells (h : CodeRuns o l lit s t m) : Spells t.dec.obuf s.dec.pos o l lit where
  admitted := h.admitted
  copied := fun i hi => by
    rw [h.read_copied (by omega), h.read_copied (by omega), h.copied.fromSource i hi]
  literal := by rw [h.result, Memory.read_write_same]

/-- A code instruction that answers a next state raises, and its fields are not admitted, or it runs. -/
theorem exec_code_cases {i : Instr} (hi : codeFields i = some (o, l, lit)) (h : exec i s = .next t) :
    (offsetInvalid s.dec.pos o.toNat l.toNat = true ∧
      t = raise .dec .invalidOffset { s with dec := decLoad o l lit s.dec }) ∨
    ∃ m, CodeRuns o l lit s t m := by
  rw [exec_code hi] at h
  exact (decCode_cases h).imp_left (And.imp_left offsetInvalid_eq_true.mpr)

/-- A code instruction that answers a next state and whose fields are admitted runs. -/
theorem codeRuns_of_admitted {i : Instr} (hi : codeFields i = some (o, l, lit)) (h : exec i s = .next t)
    (hval : offsetInvalid s.dec.pos o.toNat l.toNat = false) : ∃ m, CodeRuns o l lit s t m := by
  rcases exec_code_cases hi h with ⟨hinv, -⟩ | hrun
  · rw [hval] at hinv
    cases hinv
  · exact hrun

/-- The copy needs no more than its source cells below the destination: the others it writes itself (42_decoder.md R125). -/
theorem copyFrom_answers_of_sources {r : Nat} : ∀ {src dst : Nat} {m : List Host.Cell}, src < dst →
    (∀ i, i < r → src + i < dst → ∃ v, Memory.read m (src + i) = some v) → ∃ m', copyFrom r src dst m = .next m' := by
  induction r with
  | zero => exact fun _ _ => ⟨_, rfl⟩
  | succ r ih =>
    intro src dst m hlt hw
    obtain ⟨v, hv⟩ := hw 0 (Nat.succ_pos r) hlt
    simp only [copyFrom, memRead_of_read (i := src) _ hv, andThen_next]
    refine ih (by omega) fun i hi hsrc => ?_
    rw [Memory.read_write]
    split
    · exact ⟨v, rfl⟩
    · simpa only [Nat.add_assoc, Nat.add_comm 1] using hw (i + 1) (by omega) (by omega)

/-- An admitted code that copies completes when its copy does. -/
theorem decCode_of_copy (hin : o.toNat ≤ s.dec.pos) (ho : 0 < o.toNat) (hl : 0 < l.toNat)
    (hfit : OutputFits s.params (s.dec.pos + l.toNat + 1))
    (hm : copyFrom l.toNat (s.dec.pos - o.toNat) s.dec.pos s.dec.obuf = .next m) :
    ∃ t, decCode o l lit s = .next t := by
  have hval := offsetInvalid_eq_false (l := l.toNat).mpr ⟨hin, fun _ => ho⟩
  have hroom := Bool.and_eq_true_iff.mpr hfit
  simp only [decCode, hval, hroom, Bool.false_eq_true, if_false, if_true, decCopy, decLoad_l, hl, cuCopy, decLoad_pos,
    decLoad_o, decLoad_obuf, copySource, Nat.add_zero, hm, andThen_next, Host.Outcome.next.injEq, exists_eq']

/-- A code of length 0 within the stream appends its literal, whatever its offset, and reads nothing (42_decoder.md R128,
R135). -/
theorem decCode_of_zero_length (lit : Symbol) (hin : o.toNat ≤ s.dec.pos)
    (hfit : OutputFits s.params (s.dec.pos + 1)) :
    decCode o 0 lit s = .next { s with dec := { s.dec with
      o := o
      l := 0
      lit := lit
      obuf := Memory.write s.dec.obuf s.dec.pos lit
      pos := s.dec.pos + 1
      k := s.dec.k + 1 } } := by
  have hval : offsetInvalid s.dec.pos o.toNat 0 = false := offsetInvalid_eq_false.mpr ⟨hin, fun h => absurd h (by decide)⟩
  have hroom := Bool.and_eq_true_iff.mpr hfit
  have hzero : (0 : Field).toNat = 0 := rfl
  simp only [decCode, hzero, hval, hroom, Nat.add_zero, Bool.false_eq_true, if_false, if_true, decCopy, decLoad_l,
    Nat.lt_irrefl, andThen_next]
  rfl

/-- The offset of a code of length 0 does nothing but stay in `DEC.o` (42_decoder.md R135). -/
theorem decCode_zero_length_offset (lit : Symbol) (hin : o.toNat ≤ s.dec.pos)
    (hfit : OutputFits s.params (s.dec.pos + 1)) :
    ∃ t, decCode 0 0 lit s = .next t ∧ decCode o 0 lit s = .next { t with dec := { t.dec with o := o } } :=
  ⟨_, decCode_of_zero_length lit (Nat.zero_le _) hfit, decCode_of_zero_length lit hin hfit⟩

/-- What a code that is not admitted leaves: the working registers, the error and the record of the call (60_exceptions.md
R158, R161). -/
theorem decCode_raised (h : s.dec.pos < o.toNat ∨ (0 < l.toNat ∧ o.toNat = 0)) :
    ∃ t, decCode o l lit s = .next t ∧ t = { s with dec := { s.dec with
      o := o, l := l, lit := lit, state := .error, cause := .invalidOffset, obuf := t.dec.obuf
      past := ⟨s.dec.pos, true⟩ :: s.dec.past } } :=
  ⟨_, decCode_raises h, rfl⟩

end

/-! ## A code stream -/

/-- The cells of a buffer are what the first `k` codes of a stream make, each at the position that those before it stand for. -/
def StreamSpells (w : Width) (c : List (Nat × Field)) (k : Nat) (m : List Host.Cell) : Prop :=
  ∀ j, j < k → ∃ o l lit, CodeAt w c j o l lit ∧ Spells m (producedBelow c j) o l lit

section

variable {w : Width} {c c' : List (Nat × Field)} {k n : Nat} {o l : Field} {lit : Symbol} {m m' : List Host.Cell}

theorem StreamSpells.zero (w : Width) (c : List (Nat × Field)) (m : List Host.Cell) : StreamSpells w c 0 m :=
  fun _ hj => absurd hj (Nat.not_lt_zero _)

/-- A code stands for its length and its literal (30_encoding.md R76). -/
theorem CodeAt.producedBelow_succ (h : CodeAt w c k o l lit) :
    producedBelow c (k + 1) = producedBelow c k + (l.toNat + 1) := by
  obtain ⟨-, hl, -⟩ := h
  simp only [producedBelow, hl]

/-- The cells of a code determine it. -/
theorem CodeAt.unique {o' l' : Field} {lit' : Symbol} (h : CodeAt w c k o l lit) (h' : CodeAt w c k o' l' lit') :
    o = o' ∧ l = l' ∧ lit = lit' := by
  obtain ⟨ho, hl, hlit, -⟩ := h
  obtain ⟨ho', hl', hlit', -⟩ := h'
  have hwide := Option.some.inj (hlit.symm.trans hlit')
  exact ⟨Option.some.inj (ho.symm.trans ho'), Option.some.inj (hl.symm.trans hl'),
    by rw [← literal_back lit, hwide, literal_back]⟩

/-- A code is the same in a buffer with the same cells of it. -/
theorem CodeAt.congr (h : CodeAt w c k o l lit) (hsame : SameBelow (codeCells n) c' c) (hk : k < n) :
    CodeAt w c' k o l lit := by
  obtain ⟨ho, hl, hlit, hbounds⟩ := h
  have hcell : ∀ j, j < 3 → Memory.read c' (cellIndex k j) = Memory.read c (cellIndex k j) :=
    fun j hj => hsame _ (by simp only [cellIndex, codeCells]; omega)
  exact ⟨(hcell 0 (by decide)).trans ho, (hcell 1 (by decide)).trans hl, (hcell 2 (by decide)).trans hlit, hbounds⟩

/-- The codes of two buffers with the same cells of `n` codes stand for as many symbols. -/
theorem SameBelow.producedBelow (h : SameBelow (codeCells n) c c') (hk : k ≤ n) :
    Machine.producedBelow c k = Machine.producedBelow c' k :=
  producedBelow_congr fun j hj => h _ (by simp only [cellIndex, codeCells]; omega)

theorem StreamSpells.congr (h : StreamSpells w c k m) (hsame : SameBelow (codeCells k) c' c) :
    StreamSpells w c' k m := by
  intro j hj
  obtain ⟨o, l, lit, hcode, hspells⟩ := h j hj
  exact ⟨o, l, lit, hcode.congr hsame hj, (hsame.producedBelow (Nat.le_of_lt hj)).symm ▸ hspells⟩

theorem producedBelow_mono (c : List (Nat × Field)) (h : k ≤ n) : producedBelow c k ≤ producedBelow c n := by
  induction h with
  | refl => exact Nat.le_refl _
  | step _ ih =>
    refine ih.trans ?_
    simp only [producedBelow]
    split
    · exact Nat.le_add_right _ _
    · exact Nat.le_refl _

/-- A cell below a code's end lies below its start, or is one of its copied cells, or holds its literal. -/
theorem cell_of_code_cases {p l a : Nat} (ha : a < p + (l + 1)) : a < p ∨ (∃ i, i < l ∧ a = p + i) ∨ a = p + l := by
  rcases Nat.lt_or_ge a p with hlt | hge
  · exact Or.inl hlt
  · rcases Nat.lt_or_ge (a - p) l with hi | hi
    · exact Or.inr (Or.inl ⟨a - p, hi, by omega⟩)
    · exact Or.inr (Or.inr (by omega))

/-- What a stream spells is written. -/
theorem StreamSpells.writtenBelow (h : StreamSpells w c k m) : WrittenBelow m (producedBelow c k) := by
  induction k with
  | zero => exact WrittenBelow.zero m
  | succ k ih =>
    have hbelow := ih fun j hj => h j (by omega)
    obtain ⟨o, l, lit, hcode, hspells⟩ := h k (Nat.lt_succ_self k)
    rw [hcode.producedBelow_succ]
    intro a ha
    rcases cell_of_code_cases ha with hlt | ⟨i, hi, rfl⟩ | rfl
    · exact hbelow a hlt
    · rw [hspells.periodic i hi]
      exact hbelow _ (hspells.source_lt hi)
    · exact ⟨lit, hspells.literal⟩

/-- A stream spells one sequence: two buffers that it spells read the same. -/
theorem StreamSpells.unique (h : StreamSpells w c k m) (h' : StreamSpells w c k m') :
    SameBelow (producedBelow c k) m m' := by
  induction k with
  | zero => exact fun a ha => absurd ha (Nat.not_lt_zero a)
  | succ k ih =>
    have hbelow := ih (fun j hj => h j (by omega)) (fun j hj => h' j (by omega))
    obtain ⟨o, l, lit, hcode, hspells⟩ := h k (Nat.lt_succ_self k)
    obtain ⟨o', l', lit', hcode', hspells'⟩ := h' k (Nat.lt_succ_self k)
    obtain ⟨rfl, rfl, rfl⟩ := hcode.unique hcode'
    rw [hcode.producedBelow_succ]
    intro a ha
    rcases cell_of_code_cases ha with hlt | ⟨i, hi, rfl⟩ | rfl
    · exact hbelow a hlt
    · rw [hspells.periodic i hi, hspells'.periodic i hi]
      exact hbelow _ (hspells.source_lt hi)
    · rw [hspells.literal, hspells'.literal]

/-- What a code spells, it spells in every buffer with the same cells up to its literal. -/
theorem Spells.congr {p : Nat} (h : Spells m p o l lit) (hsame : SameBelow (p + (l.toNat + 1)) m' m) :
    Spells m' p o l lit where
  admitted := h.admitted
  copied := fun i hi => by
    rw [hsame _ (by omega), hsame _ (by omega), h.copied i hi]
  literal := (hsame _ (by omega)).trans h.literal

/-- A stream goes on to spell a buffer in which the cells that it stands for are unchanged. -/
theorem StreamSpells.kept (h : StreamSpells w c k m) (hsame : SameBelow (producedBelow c k) m' m) :
    StreamSpells w c k m' := by
  intro j hj
  obtain ⟨o, l, lit, hcode, hspells⟩ := h j hj
  exact ⟨o, l, lit, hcode, hspells.congr (hsame.mono (hcode.producedBelow_succ ▸ producedBelow_mono c hj))⟩

/-- One more code extends what a stream spells. -/
theorem StreamSpells.succ (h : StreamSpells w c k m) (hcode : CodeAt w c k o l lit)
    (hspells : Spells m (producedBelow c k) o l lit) : StreamSpells w c (k + 1) m := by
  intro j hj
  rcases Nat.lt_succ_iff_lt_or_eq.mp hj with hbefore | rfl
  · exact h j hbefore
  · exact ⟨o, l, lit, hcode, hspells⟩

end

/-! ## A whole `DECODE` call -/

theorem OutputFits.mono {p : Params} {m n : Nat} (h : OutputFits p n) (hmn : m ≤ n) : OutputFits p m :=
  ⟨withinCap_mono h.1 hmn, withinPosw_mono h.2 hmn⟩

/-- The code at the cursor is run with the fields of its cells (42_decoder.md R121). -/
theorem decTick_of_codeAt {s : State} {w : Width} {o l : Field} {lit : Symbol} (hb : s.dec.state = .busy)
    (hk : s.dec.k < s.dec.clen) (hw : widthOf s.dec.wsel = some w) (h : CodeAt w s.dec.cbuf s.dec.k o l lit) :
    decTick s = decCode o l lit s := by
  obtain ⟨ho, hl, hlit, hofit, hlfit⟩ := h
  have hsymbol := literal_le lit
  rw [decTick_of_reads hb hk hw ho hl hlit, narrowCell_of_le _ hofit, narrowCell_of_le _ hlfit,
    narrowCell_of_le _ (hsymbol.trans (le_wmax w)), if_neg (Nat.not_lt.mpr hsymbol), literal_back]

/-- A unit that is not busy holds its state however often it is given its turn. -/
theorem runAgent_dec_of_not_busy {s : State} (hb : s.dec.state ≠ .busy) (k : Nat) : runAgent .dec k s = .next s := by
  induction k with
  | zero => rfl
  | succ k ih => simp only [runAgent, agentTick, decTick_of_not_busy hb, andThen_next, ih]

/-- What a running call on the first `n` codes of a stream keeps: the stream is loaded and its output fits, no error, and the
output so far is what the codes processed spell (42_decoder.md R121, R131). -/
structure Decoding (w : Width) (c : List (Nat × Field)) (n : Nat) (s : State) : Prop where
  busy : s.dec.state = .busy
  noCause : s.dec.cause = .none
  width : widthOf s.dec.wsel = some w
  stream : s.dec.cbuf = c
  count : s.dec.clen = n
  loaded : ∀ k, k < n → ∃ o l lit, CodeAt w c k o l lit
  room : OutputFits s.params (producedBelow c n)
  cursor : s.dec.k ≤ n
  produced : s.dec.pos = producedBelow c s.dec.k
  spelled : StreamSpells w c s.dec.k s.dec.obuf

/-- What an ended call has left: the output of the codes processed, which are all of them, or those before the first one that is
not admitted (42_decoder.md R130, R132; 60_exceptions.md R160). -/
structure Decoded (w : Width) (c : List (Nat × Field)) (n : Nat) (t : State) : Prop where
  produced : t.dec.pos = producedBelow c t.dec.k
  spelled : StreamSpells w c t.dec.k t.dec.obuf
  ended : (t.dec.state = .done ∧ t.dec.cause = .none ∧ t.dec.k = n) ∨
    (t.dec.state = .error ∧ t.dec.cause = .invalidOffset ∧ t.dec.k < n ∧
      ∃ o l lit, CodeAt w c t.dec.k o l lit ∧ offsetInvalid t.dec.pos o.toNat l.toNat = true)

theorem Decoded.not_busy {w : Width} {c : List (Nat × Field)} {n : Nat} {t : State} (h : Decoded w c n t) :
    t.dec.state ≠ .busy := by
  rcases h.ended with ⟨hstate, -⟩ | ⟨hstate, -⟩ <;> simp [hstate]

/-- `DECODE` of a loaded stream starts such a call. -/
theorem DecLoaded.decoding {w : Width} {s : State} (h : DecLoaded w s) :
    Decoding w s.dec.cbuf s.dec.clen (beginCall .dec s) where
  busy := rfl
  noCause := rfl
  width := h.width
  stream := rfl
  count := rfl
  loaded := h.codes
  room := h.outputFits
  cursor := Nat.zero_le _
  produced := rfl
  spelled := .zero _ _ _

/-- A code that runs keeps what the call keeps, and the next code's turn comes. -/
theorem Decoding.codeRuns {w : Width} {c : List (Nat × Field)} {n : Nat} {s t : State} {o l : Field} {lit : Symbol}
    {m : List Host.Cell} (h : Decoding w c n s) (hk : s.dec.k < n) (hcode : CodeAt w c s.dec.k o l lit)
    (hrun : CodeRuns o l lit s t m) : Decoding w c n t := by
  have hkept : StreamSpells w c s.dec.k t.dec.obuf :=
    h.spelled.kept fun a ha => hrun.elsewhere (Or.inl (h.produced.symm ▸ ha))
  have hspells := hrun.spells
  rw [h.produced] at hspells
  have hnext := hkept.succ hcode hspells
  obtain rfl := hrun.result
  exact { h with
    cursor := hk
    produced := by rw [hcode.producedBelow_succ, ← h.produced, Nat.add_assoc]
    spelled := hnext }

/-- A transition of the call completes: the code at the cursor runs and the call goes on, or it raises and the call has
ended. -/
theorem Decoding.step {w : Width} {c : List (Nat × Field)} {n : Nat} {s : State} (h : Decoding w c n s) (hk : s.dec.k < n) :
    ∃ t, decTick s = .next t ∧ (Decoding w c n t ∧ t.dec.k = s.dec.k + 1 ∨ Decoded w c n t) := by
  obtain ⟨o, l, lit, hcode⟩ := h.loaded _ hk
  rw [decTick_of_codeAt h.busy (h.count.symm ▸ hk) h.width (h.stream.symm ▸ hcode)]
  cases hval : offsetInvalid s.dec.pos o.toNat l.toNat with
  | true =>
    exact ⟨_, decCode_raises (offsetInvalid_eq_true.mp hval),
      Or.inr ⟨h.produced, h.spelled, Or.inr ⟨rfl, rfl, hk, o, l, lit, hcode, hval⟩⟩⟩
  | false =>
    obtain ⟨hin, hnz⟩ := offsetInvalid_eq_false.mp hval
    have hfit : s.dec.pos + l.toNat + 1 ≤ producedBelow c n := by
      rw [h.produced, Nat.add_assoc, ← hcode.producedBelow_succ]
      exact producedBelow_mono c hk
    obtain ⟨t, m, ht, hrun⟩ := decCode_answers (lit := lit) hin hnz (h.room.mono hfit)
      fun a _ ha => h.spelled.writtenBelow a (h.produced ▸ ha)
    exact ⟨t, ht, Or.inl ⟨h.codeRuns hk hcode hrun, by rw [hrun.result]⟩⟩

/-- The call ends after at most one transition for each code left and one for its end (42_decoder.md R132). -/
theorem Decoding.run {w : Width} {c : List (Nat × Field)} {n : Nat} (r : Nat) : ∀ {s : State}, Decoding w c n s →
    n < s.dec.k + r → ∃ t, runAgent .dec r s = .next t ∧ Decoded w c n t := by
  induction r with
  | zero =>
    intro s h hr
    have := h.cursor
    omega
  | succ r ih =>
    intro s h hr
    rcases Nat.lt_or_ge s.dec.k n with hk | hend
    · obtain ⟨s1, hs1, ⟨hgoes, hnext⟩ | hended⟩ := h.step hk
      · obtain ⟨t, ht, hdone⟩ := ih hgoes (by omega)
        exact ⟨t, by simpa only [runAgent, agentTick, hs1, andThen_next] using ht, hdone⟩
      · refine ⟨s1, ?_, hended⟩
        simp only [runAgent, agentTick, hs1, andThen_next]
        exact runAgent_dec_of_not_busy hended.not_busy r
    · refine ⟨endCall .dec s, ?_, h.produced, h.spelled, Or.inl ⟨rfl, h.noCause, Nat.le_antisymm h.cursor hend⟩⟩
      simp only [runAgent, agentTick, decTick_of_end h.busy (h.count.symm ▸ hend), andThen_next]
      exact runAgent_dec_of_not_busy (by simp) r

/-- `DECODE` of a loaded stream, from the command to the call's end. -/
theorem DecLoaded.call {w : Width} {s : State} (h : DecLoaded w s) : ∃ s1 t, exec .decodeCmd s = .next s1 ∧
    runAgent .dec (s.dec.clen + 1) s1 = .next t ∧ Decoded w s.dec.cbuf s.dec.clen t := by
  obtain ⟨t, ht, hended⟩ := h.decoding.run (s.dec.clen + 1) (by simp)
  exact ⟨_, t, by rw [execDecode_of_width h.free h.width, if_pos h.codesFit], ht, hended⟩

/-! ## The codes that `ENCODE` emits spell its input -/

/-- What every transition of an agent keeps, its runs keep. -/
theorem runAgent_keeps {P : State → Prop} {a : Agent} (hstep : ∀ s t : State, agentTick a s = .next t → P s → P t)
    {k : Nat} : ∀ {s t : State}, runAgent a k s = .next t → P s → P t := by
  induction k with
  | zero =>
    intro s t h hs
    obtain rfl := Host.Outcome.next.inj h
    exact hs
  | succ k ih =>
    intro s t h hs
    obtain ⟨s1, hs1, h⟩ := andThen_eq_next.mp h
    exact ih h (hstep s s1 hs1 hs)

/-- The codes emitted so far spell the input passed, at the width of the call (41_encoder.md R109, R113). -/
structure Emitting (w : Width) (xs : List Host.Cell) (s : State) : Prop where
  width : widthOf s.enc.wsel = some w
  input : s.enc.ibuf = xs
  produced : producedBelow s.enc.cbuf s.enc.clen = s.enc.pos
  spelled : StreamSpells w s.enc.cbuf s.enc.clen xs

/-- `ENCODE` of a loaded input starts with nothing emitted and nothing passed. -/
theorem EncLoaded.emitting {w : Width} {xs : List Symbol} {s : State} (h : EncLoaded w xs s) :
    Emitting w s.enc.ibuf (uncapped (beginCall .enc s)) :=
  ⟨h.width, rfl, rfl, .zero _ _ _⟩

/-- A code's write keeps the cells of the codes before it. -/
theorem sameBelow_writeCode (m : List (Nat × Field)) (k : Nat) (o l : Field) (lit : Symbol) :
    SameBelow (codeCells k) (writeCode m k o l lit) m :=
  fun _ ha => read_writeCode_other m k o l lit (Or.inl ha)

/-- The code that a step finds spells the segment of the input that it passes (41_encoder.md R109 (f)). -/
theorem StepEmits.spells {w : Width} {s t : State} {f : Enc} {l : Nat} (h : StepEmits w s t f l) :
    Spells s.enc.ibuf s.enc.pos f.bo f.bl f.bs := by
  have hibuf : f.ibuf = s.enc.ibuf := h.search.ibuf
  have hcursor : f.pos = s.enc.pos := h.search.pos
  obtain ⟨hends, -⟩ := h.search.windowSet (.encWindow w s.enc)
  obtain rfl := h.code.length
  have hsegment := fun j (hj : j < f.bl.toNat) => (h.code.segment hends hj).symm
  have hliteral := h.code.literal
  rw [hibuf, hcursor] at hliteral
  simp only [hibuf, hcursor] at hsegment
  obtain ⟨hzero, -⟩ := h.code.litOrCopy
  have hoffset := h.code.offset_le_window
  exact ⟨offsetInvalid_eq_false.mpr ⟨by omega, by omega⟩, hsegment, hliteral⟩

/-- The code that a step writes fits the width (41_encoder.md R109 (c)). -/
theorem StepEmits.codeAt {w : Width} {s t : State} {f : Enc} {l : Nat} (h : StepEmits w s t f l) :
    CodeAt w (writeCode s.enc.cbuf s.enc.clen f.bo f.bl f.bs) s.enc.clen f.bo f.bl f.bs := by
  obtain ⟨-, hbounded⟩ := h.search.windowSet (.encWindow w s.enc)
  obtain ⟨-, hcopy⟩ := h.code.litOrCopy
  have hoffset := h.code.offset_le_window
  exact ⟨read_writeCode_offset _ _ _ _ _, read_writeCode_length _ _ _ _ _, read_writeCode_literal _ _ _ _ _, by omega,
    by omega⟩

/-- Every transition of the encoder keeps it: a step adds a code, and the end of the call changes no code. -/
theorem Emitting.of_encTick {w : Width} {xs : List Host.Cell} {s t : State} (ht : encTick s = .next t)
    (h : Emitting w xs s) : Emitting w xs t := by
  rcases encTick_cases ht with ⟨-, -, w', hw, f, l, hstep⟩ | ⟨-, -, rfl⟩ | ⟨-, rfl⟩
  · obtain rfl : w = w' := Option.some.inj (h.width.symm.trans hw)
    have hsame := sameBelow_writeCode s.enc.cbuf s.enc.clen f.bo f.bl f.bs
    have hspells := hstep.spells
    rw [h.input, ← h.produced, ← hsame.producedBelow (Nat.le_refl _)] at hspells
    have hspelled := (h.spelled.congr hsame).succ hstep.codeAt hspells
    have hwsel : f.wsel = s.enc.wsel := hstep.search.wsel
    have hibuf : f.ibuf = s.enc.ibuf := hstep.search.ibuf
    obtain rfl := hstep.result
    exact {
      width := hwsel ▸ h.width
      input := hibuf.trans h.input
      produced := by rw [producedBelow_writeCode, h.produced, hstep.code.length, Nat.add_assoc]
      spelled := hspelled }
  · exact ⟨h.width, h.input, h.produced, h.spelled⟩
  · exact h

/-- A decoder that holds codes that spell `n` symbols is loaded (20_memory.md R64). -/
theorem DecLoadedFrom.decLoaded {e : Enc} {w : Width} {n : Nat} {u : State} {m : List Host.Cell}
    (h : DecLoadedFrom e w n u) (hspelled : StreamSpells w e.cbuf e.clen m) (hproduced : producedBelow e.cbuf e.clen = n) :
    DecLoaded w u where
  free := h.free
  width := h.width
  codes := fun k hk => by
    obtain ⟨o, l, lit, hcode, -⟩ := hspelled k (h.count ▸ hk)
    exact ⟨o, l, lit, hcode.congr h.codes (h.count ▸ hk)⟩
  codesFit := h.count.symm ▸ h.codesFit
  outputFits := by
    rw [h.count, h.codes.producedBelow (Nat.le_refl _), hproduced]
    exact h.outputFits

/-- A call on codes that spell some buffer ends in `DONE`, since each of them is admitted at its position. -/
theorem Decoded.done_of_spelled {w : Width} {c : List (Nat × Field)} {n : Nat} {t : State} {m : List Host.Cell}
    (h : Decoded w c n t) (hspelled : StreamSpells w c n m) : t.dec.state = .done ∧ t.dec.k = n := by
  rcases h.ended with ⟨hdone, -, hk⟩ | ⟨-, -, hk, o, l, lit, hcode, hinv⟩
  · exact ⟨hdone, hk⟩
  · obtain ⟨o', l', lit', hcode', hspells⟩ := hspelled _ hk
    obtain ⟨rfl, rfl, -⟩ := hcode.unique hcode'
    rw [h.produced, hspells.admitted] at hinv
    cases hinv

/-- Two buffers that read the same below a length hold the same sequence of that length. -/
theorem SameBelow.holds {n : Nat} {m m' : List (Nat × BitVec n)} {xs : List (BitVec n)} (h : SameBelow xs.length m m')
    (hm : Holds m' xs) : Holds m xs :=
  fun i hi => (h i hi).trans (hm i hi)

/-! ## The statements -/

/-- Settles O38: the call ends by `DecLoaded.call`, and a code that has spelled its output was admitted. -/
theorem decodeCallEndsInDoneOrError : Obligations.DecodeCallEndsInDoneOrError := by
  intro w s h
  obtain ⟨s1, t, hstart, hrun, hended⟩ := h.call
  refine ⟨s1, t, hstart, hrun, hended.produced, fun j hj => ?_, ?_⟩
  · obtain ⟨o, l, lit, hcode, hspells⟩ := hended.spelled j hj
    exact ⟨o, l, lit, hcode, hspells.admitted⟩
  · rcases hended.ended with ⟨hdone, hcause, hk⟩ | herror
    · exact Or.inl ⟨hdone, hcause, hk, hended.produced ▸ hended.spelled.writtenBelow⟩
    · exact Or.inr herror

/-- Settles O39: the codes emitted spell the input (`Emitting`), the decoder's output is what they spell (`Decoded`), and a
stream spells one sequence (`StreamSpells.unique`). -/
theorem decodeOfEncodeGivesTheInputBack : Obligations.DecodeOfEncodeGivesTheInputBack := by
  intro w xs s h
  obtain ⟨s1, e, hstart, hrun, hdone, -, -, hcount, -, hproduced, hfits, -⟩ := encodeCallEndsInDone w xs s h
  obtain rfl : beginCall .enc s = s1 := by
    rw [execEncode_of_width h.free h.width, h.length, if_pos h.inputFits] at hstart
    exact Host.Outcome.next.inj hstart
  have hemitted : Emitting w s.enc.ibuf e :=
    runAgent_keeps (a := .enc) (P := Emitting w s.enc.ibuf) (fun _ _ => Emitting.of_encTick) hrun h.emitting
  refine ⟨_, e, hstart, hrun, hcount, fun hcap => ⟨_, hfits hcap, hdone, fun u hu => ?_⟩⟩
  have hspelled : StreamSpells w u.dec.cbuf u.dec.clen s.enc.ibuf :=
    hu.count.symm ▸ hemitted.spelled.congr hu.codes
  have hlength : producedBelow u.dec.cbuf u.dec.clen = xs.length := by
    rw [hu.count, hu.codes.producedBelow (Nat.le_refl _), hproduced]
  obtain ⟨u1, v, hcommand, hcall, hended⟩ := (hu.decLoaded hemitted.spelled hproduced).call
  obtain ⟨hvdone, hvk⟩ := hended.done_of_spelled hspelled
  have hvpos := hended.produced
  have houtput := hended.spelled
  rw [hvk] at hvpos houtput
  refine ⟨u1, v, hcommand, hu.count ▸ hcall, hvdone, hvpos.trans hlength, SameBelow.holds ?_ h.input⟩
  exact hlength ▸ houtput.unique hspelled

/-- Settles O14: the code completes by `decCode_answers`, and what it appends repeats the cells below the position. -/
theorem admittedCodeRuns : Obligations.AdmittedCodeRuns := by
  intro i o l lit s hi hin hnz hfit hw
  obtain ⟨t, m, ht, hrun⟩ := decCode_answers (lit := lit) hin hnz hfit fun a _ ha => hw a ha
  refine ⟨t, (exec_code hi s).trans ht, fun j hj => ?_, hrun.spells.literal, fun a => hrun.elsewhere, ?_⟩
  · rw [hrun.spells.periodic j hj]
    exact hrun.elsewhere (Or.inl (hrun.spells.source_lt hj))
  · obtain rfl := hrun.result
    rfl

/-- Settles O16: the copy needs its sources only, and with `offset ≥ length` they all lie below the position, where nothing
changes. -/
theorem copyEqualsABlockCopy : Obligations.CopyEqualsABlockCopy := by
  intro i o l lit s hi hl hlo hin hfit hw
  obtain ⟨m, hm⟩ := copyFrom_answers_of_sources (dst := s.dec.pos) (by omega) fun j hj _ => hw j hj
  obtain ⟨t, ht⟩ := decCode_of_copy (lit := lit) hin (by omega) hl hfit hm
  have hexec := (exec_code hi s).trans ht
  obtain ⟨m', hrun⟩ := codeRuns_of_admitted hi hexec (offsetInvalid_eq_false.mpr ⟨hin, by omega⟩)
  refine ⟨t, hexec, fun j hj => ?_, hrun.spells.literal, by rw [hrun.result], by rw [hrun.result]⟩
  rw [hrun.spells.copied j hj]
  exact hrun.elsewhere (Or.inl (by omega))

/-- Settles O17: each copied cell reads as the cell `offset` before it, in the buffer after the step. -/
theorem runRepeatsWithItsOffsetAsPeriod : Obligations.RunRepeatsWithItsOffsetAsPeriod := by
  intro i o l lit s t hi ho _ hin h
  obtain ⟨m, hrun⟩ := codeRuns_of_admitted hi h (offsetInvalid_eq_false.mpr ⟨hin, fun _ => ho⟩)
  refine ⟨fun j hj => ?_, fun j hj => ?_, hrun.spells.literal⟩
  · rw [hrun.spells.copied j hj, Nat.sub_add_comm hin]
  · rw [hrun.read_copied (by omega)]
    exact hrun.copied.written j hj

/-- Settles O19, at each width by `decCode_zero_length_offset`. -/
theorem zeroLengthWithOffsetActsAsLiteral : Obligations.ZeroLengthWithOffsetActsAsLiteral :=
  ⟨fun _ lit _ _ hin hfit => decCode_zero_length_offset lit ((BitVec.toNat_setWidth_of_le (by decide)).trans_le hin) hfit,
    fun _ lit _ _ hin hfit => decCode_zero_length_offset lit ((BitVec.toNat_setWidth_of_le (by decide)).trans_le hin) hfit,
    fun _ lit _ _ hin hfit => decCode_zero_length_offset lit hin hfit⟩

/-- Settles O20: an offset beyond the position raises, and one equal to it is admitted. -/
theorem offsetBeyondPositionRaises : Obligations.OffsetBeyondPositionRaises := by
  refine ⟨fun i o l lit s hi hbeyond => ?_, fun i o l lit s hi ho heq hfit hw => ?_⟩
  · rw [exec_code hi]
    exact decCode_raised (Or.inl hbeyond)
  · rw [exec_code hi]
    obtain ⟨t, m, ht, hrun⟩ := decCode_answers (lit := lit) (Nat.le_of_eq heq) (fun _ => ho) hfit fun a _ ha => hw a ha
    exact ⟨t, ht, by rw [hrun.result], by rw [hrun.result]⟩

/-- Settles O21, by whether the code raises or runs. -/
theorem codesChangeOnlyTheirOutput : Obligations.CodesChangeOnlyTheirOutput := by
  intro i o l lit s t hi h
  rcases exec_code_cases hi h with ⟨hinv, rfl⟩ | ⟨m, hrun⟩
  · refine ⟨rfl, fun _ => ⟨rfl, rfl, rfl, rfl⟩, fun hval => ?_⟩
    rw [hinv] at hval
    cases hval
  · have helsewhere := fun a => hrun.elsewhere (a := a)
    refine ⟨?_, fun hinv => ?_, fun _ => ?_⟩
    · obtain rfl := hrun.result
      rfl
    · rw [hrun.admitted] at hinv
      cases hinv
    · refine ⟨?_, ?_, ?_, helsewhere⟩ <;> rw [hrun.result]

/-- Settles O22: a code that is admitted runs. -/
theorem everyCodeAppendsItsLiteral : Obligations.EveryCodeAppendsItsLiteral := by
  intro i o l lit s t hi h hval
  obtain ⟨m, hrun⟩ := codeRuns_of_admitted hi h hval
  exact ⟨hrun.spells.literal, by rw [hrun.result], by rw [hrun.result]⟩

/-- Settles O15: `LIT` is a code of length 0 with offset 0, at every width. -/
theorem literalAppendsItsSymbol : Obligations.LiteralAppendsItsSymbol :=
  fun lit _ hfit => ⟨decCode_of_zero_length (o := 0) lit (Nat.zero_le _) hfit, rfl, rfl⟩

/-- Settles O18, at each width: a length with offset 0 is not admitted. -/
theorem zeroOffsetWithLengthRaises : Obligations.ZeroOffsetWithLengthRaises :=
  ⟨fun _ _ _ hl => decCode_raised (Or.inr ⟨hl.trans_eq (BitVec.toNat_setWidth_of_le (by decide)).symm, rfl⟩),
    fun _ _ _ hl => decCode_raised (Or.inr ⟨hl.trans_eq (BitVec.toNat_setWidth_of_le (by decide)).symm, rfl⟩),
    fun _ _ _ hl => decCode_raised (Or.inr ⟨hl, rfl⟩)⟩

/-- Settles O45: the fetch answers the cells read at the width, and decoding what fits the width answers an instruction with
those fields unless the literal is above 255. -/
theorem stepRunsTheCodeAtTheCursor : Obligations.StepRunsTheCodeAtTheCursor := by
  refine ⟨?_, fun w j v => ⟨narrowCell_le w j v, narrowCell_of_le j⟩, ?_⟩
  · intro s w o l c i hturn hb hk hw ho hl hc hdecode
    calc step s
        = decTick (usedTurn s) := by rw [step, hturn, agentTick]
      _ = exec i (usedTurn s) := by
        rw [decTick_of_running (s := usedTurn s) hb hk hw]
        simp only [fetchCode, usedTurn_dec, memRead_of_read _ ho, memRead_of_read _ hl, memRead_of_read _ hc, andThen_next,
          runWord_of_decode hdecode]
  · intro w k o l c hc
    have hcell : narrowCell w (cellIndex k 2) c = c := narrowCell_of_le _ (hc.trans (le_wmax w))
    rw [hcell]
    rcases decode_rawCode (narrowCell_le w (cellIndex k 0) o) (narrowCell_le w (cellIndex k 1) l) (hc.trans (le_wmax w)) with
      ⟨hwide, -⟩ | ⟨-, hinstr⟩
    · omega
    · exact hinstr

end Sys2Proof.Machine
end

section
/-! SUPPORT. The proofs of 43_commands.md: what the commands do, whose turn a step is, what the host leaves alone, and that a
call depends on its configuration and its input alone. -/

namespace Sys2Proof.Machine

/-! ## The commands -/

/-- `ENCODE` to a busy unit is ignored (43_commands.md R144). -/
theorem execEncode_of_busy {s : State} (hb : s.enc.state = .busy) : exec .encodeCmd s = .next s :=
  if_pos hb

/-- `DECODE` to a busy unit is ignored (43_commands.md R144). -/
theorem execDecode_of_busy {s : State} (hb : s.dec.state = .busy) : exec .decodeCmd s = .next s :=
  if_pos hb

/-- `WSEL = 3` selects no width (10_state.md R21, R28). -/
theorem widthOf_reserved : widthOf 3 = none := rfl

/-- A read of `STATUS` returns it whether or not the unit is busy (43_commands.md R149). -/
theorem hostReadReg_status (u : UnitId) (s : State) : hostReadReg u 2 s = .next (giveHost (s.status u) s) := by
  rw [hostReadReg, if_neg (by decide), if_neg (by simp)]
  cases u <;> rfl

/-! ## The host's moves -/

/-- A move of the host but reset starts a call, or changes no more than the units' configurations and inputs and what the host
itself has read (43_commands.md R154). -/
theorem hostMove_starts_or_loads {m : HostMove} {s t : State} (hm : m ≠ .reset) (h : hostMove m s = .next t) :
    (∃ u, m = .writeReg u 1 1 ∧ t = beginCall u s) ∨
    t = { s with
      enc := { s.enc with wsel := t.enc.wsel, ibuf := t.enc.ibuf, ilen := t.enc.ilen }
      dec := { s.dec with wsel := t.dec.wsel, cbuf := t.dec.cbuf, clen := t.dec.clen }
      rdata := t.rdata
      freeCtr := t.freeCtr } := by
  rcases hostMove_cases h with rfl | ⟨u, w, hu, -, rfl, -⟩ | ⟨u, v, -, -, rfl⟩ | ⟨u, v, -, -, rfl⟩ | ⟨i, v, -, -, rfl⟩ |
    ⟨i, v, -, -, rfl⟩ | ⟨v, c, rfl⟩ | ⟨hreset, -⟩
  · exact Or.inr rfl
  · exact Or.inl ⟨u, hu, rfl⟩
  · cases u <;> exact Or.inr rfl
  · cases u <;> exact Or.inr rfl
  · exact Or.inr rfl
  · exact Or.inr rfl
  · exact Or.inr rfl
  · exact absurd hreset hm

/-! ## Whose turn it is -/

/-- A step is one transition of the agent whose turn it is, on the state with the turn used up (43_commands.md R152). -/
theorem step_of_turn {a : Agent} {s : State} (h : nextAgent s = a) : step s = agentTick a (usedTurn s) := by
  rw [step, h]

/-- The host's turn is its oldest move not yet made (43_commands.md R154). -/
theorem step_of_move {m : HostMove} {rest : List HostMove} {s : State} (h : nextAgent s = .host) (hp : s.pending = m :: rest) :
    step s = hostMove m { s with pending := rest, schedule := s.schedule.tail } := by
  simp only [step_of_turn h, agentTick, hostTick, usedTurn_pending, hp]
  rfl

/-- With no move to make the host's turn changes nothing else (log 3). -/
theorem step_of_no_move {s : State} (h : nextAgent s = .host) (hp : s.pending = []) : step s = .next (usedTurn s) := by
  simp only [step_of_turn h, agentTick, hostTick, usedTurn_pending, hp]

theorem nextAgent_of_schedule {a : Agent} {rest : List Agent} {s : State} (h : s.schedule = a :: rest) : nextAgent s = a := by
  simp only [nextAgent, h]

/-- Where the schedule says nothing, a busy unit moves before the host (70_reset_and_hazards.md R191; log 4). -/
theorem nextAgent_of_unscheduled {s : State} (h : s.schedule = []) :
    nextAgent s = if s.dec.state = .busy then .dec else if s.enc.state = .busy then .enc else .host := by
  simp only [nextAgent, h]

/-! ## Two runs of one agent -/

/-- What every transition of an agent carries over to another machine with the same parameters, its runs carry over: the agent
leaves the parameters. -/
theorem runAgent_carries {R : State → State → Prop} {a : Agent}
    (hparams : ∀ s t : State, agentTick a s = .next t → t.params = s.params)
    (hstep : ∀ s s' t : State, R s s' → s.params = s'.params → agentTick a s = .next t →
      ∃ t', agentTick a s' = .next t' ∧ R t t') (k : Nat) :
    ∀ {s s' t : State}, R s s' → s.params = s'.params → runAgent a k s = .next t →
      ∃ t', runAgent a k s' = .next t' ∧ R t t' := by
  induction k with
  | zero =>
    intro s s' t hR _ h
    obtain rfl := Host.Outcome.next.inj h
    exact ⟨s', rfl, hR⟩
  | succ k ih =>
    intro s s' t hR hp h
    obtain ⟨s1, hs1, h⟩ := andThen_eq_next.mp h
    obtain ⟨s1', hs1', hR1⟩ := hstep s s' s1 hR hp hs1
    obtain ⟨t', ht', hRt⟩ := ih hR1 (by rw [hparams s s1 hs1, hparams s' s1' hs1', hp]) h
    exact ⟨t', by rw [runAgent, hs1', andThen_next, ht'], hRt⟩

/-! ## Two encoders with the same input

The second encoder's step is followed along the first's, since it must be shown to complete: it reads the same cells of the
input, and the finder's and the search's registers are written before they are read. -/

/-- Two encoders at the same point of the same call: the same configuration, the same input below its length, the same cursors and
the same codes so far. Nothing is said of the working registers or of the cells beyond (43_commands.md R151). -/
structure SameCourse (e e' : Enc) : Prop where
  width : e.wsel = e'.wsel
  length : e.ilen = e'.ilen
  input : SameBelow e.ilen e.ibuf e'.ibuf
  state : e.state = e'.state
  cause : e.cause = e'.cause
  cursor : e.pos = e'.pos
  count : e.clen = e'.clen
  codes : SameBelow (codeCells e.clen) e.cbuf e'.cbuf

/-- Two encoders at the same point of the same step: in addition the same window, which ends at the cursor, and the same code so
far (41_encoder.md R102 to R107). -/
structure SameSearch (e e' : Enc) : Prop extends SameCourse e e' where
  start : e.ws = e'.ws
  window : e.n = e'.n
  lookahead : e.L = e'.L
  ends : e.ws + e.n = e.pos
  offset : e.bo = e'.bo
  matched : e.bl = e'.bl
  literal : e.bs = e'.bs

section

variable {e e' f : Enc}

/-- The cells of the input below its length answer alike. -/
theorem SameCourse.memRead (h : SameCourse e e') {i : Nat} (hi : i < e.ilen) :
    memRead .ibuf e'.ibuf i = memRead .ibuf e.ibuf i := by
  simp only [Machine.memRead, h.input i hi]

/-- The comparison reads nothing but its two segments (40_match_finder.md R95). -/
theorem SameCourse.segEq (h : SameCourse e e') {p : Nat} : ∀ {a b : Nat}, a + p ≤ e.ilen → b + p ≤ e.ilen →
    segEq e'.ibuf a b p = segEq e.ibuf a b p := by
  induction p with
  | zero => exact fun _ _ => rfl
  | succ p ih =>
    intro a b ha hb
    simp only [Machine.segEq, h.memRead (show a < e.ilen by omega), h.memRead (show b < e.ilen by omega),
      ih (a := a + 1) (b := b + 1) (by omega) (by omega)]

/-- The scan of the same window for the same pattern completes too. -/
theorem SameSearch.findFrom (h : SameSearch e e') {p c : Nat} (hc : e.ws + c + p ≤ e.ilen) (hp : e.pos + p ≤ e.ilen)
    (hf : findFrom p c e = .next f) : ∃ f', findFrom p c e' = .next f' := by
  induction c with
  | zero =>
    obtain ⟨b, hb, -⟩ := andThen_eq_next.mp hf
    rw [Machine.findFrom, ← h.start, ← h.cursor, h.segEq hc hp, hb, andThen_next]
    split <;> exact ⟨_, rfl⟩
  | succ c ih =>
    obtain ⟨b, hb, hf⟩ := andThen_eq_next.mp hf
    rw [Machine.findFrom, ← h.start, ← h.cursor, h.segEq hc hp, hb, andThen_next]
    split at hf
    · next hhit => exact ⟨_, if_pos hhit⟩
    · next hmiss =>
      rw [if_neg hmiss]
      exact ih (by omega) hf

/-- The finder's registers are no part of it (40_match_finder.md R97). -/
theorem SameSearch.of_finderOnly {f' : Enc} (h : SameSearch e e') (hf : FinderOnly e f) (hf' : FinderOnly e' f') :
    SameSearch f f' := by
  rw [hf.eq_update, hf'.eq_update]
  exact { h with }

/-- The finder gives both encoders the same answer (40_match_finder.md R97). -/
theorem SameSearch.mfFind (h : SameSearch e e') {p : Nat} (hp : e.pos + p ≤ e.ilen) (hf : mfFind p e = .next f) :
    ∃ f', mfFind p e' = .next f' ∧ SameSearch f f' ∧ f'.mfHit = f.mfHit ∧ (f.mfHit = true → f'.mfM = f.mfM) := by
  have hends := h.ends
  have hpos := (mfFind_spec hf).1
  have hcompletes : ∃ f', Machine.mfFind p e' = .next f' := by
    rcases Nat.lt_or_ge e.n p with hn | hn
    · exact ⟨_, mfFind_of_window_lt hpos (h.window ▸ hn)⟩
    · rw [mfFind_of_le_window hpos hn] at hf
      have hset : SameSearch { e with mfP := p } { e' with mfP := p } := { h with }
      have hscan := hset.findFrom (by simp only; omega) hp hf
      rw [mfFind_of_le_window hpos (h.window ▸ hn)]
      rwa [h.window] at hscan
  obtain ⟨f', hf'⟩ := hcompletes
  obtain ⟨hhit, hat, -⟩ := finderIsAFunctionOfWindowAndPattern.2 e e' f f' p h.window
    (fun i hi => by rw [← h.start, h.input _ (by omega)]) (fun j hj => by rw [← h.cursor, h.input _ (by omega)]) hf hf'
  exact ⟨f', hf', h.of_finderOnly (mfFind_spec hf).2.1 (mfFind_spec hf').2.1, hhit.symm, fun hm => (hat hm).1.symm⟩

/-- The code update of the same match (41_encoder.md R107). -/
theorem SameSearch.encGrow (h : SameSearch e e') {l : Nat} (hl : e.pos + l < e.ilen) (hat : e'.mfM = e.mfM)
    (hg : encGrow l e = .next f) : ∃ f', encGrow l e' = .next f' ∧ SameSearch f f' := by
  obtain ⟨x, hx, hg⟩ := andThen_eq_next.mp hg
  obtain rfl := Host.Outcome.next.inj hg
  have hread : Machine.memRead .ibuf e'.ibuf (e'.pos + l) = .next x := by rw [← h.cursor, h.memRead hl, hx]
  refine ⟨_, by rw [Machine.encGrow, hread, andThen_next], ?_⟩
  exact { h with offset := by simp only [hat, h.window], matched := rfl, literal := rfl }

/-- The search of the same lengths ends with the same code (41_encoder.md R105 to R107). -/
theorem SameSearch.encSearch {w : Width} {r : Nat} : ∀ {l : Nat} {e e' : Enc}, SameSearch e e' → e.pos + l + r ≤ e.ilen →
    encSearch w r l e = .next (false, f) → ∃ f', encSearch w r l e' = .next (false, f') ∧ SameSearch f f' := by
  induction r with
  | zero =>
    intro l e e' h _ hf
    obtain ⟨-, rfl⟩ := Prod.mk.inj (Host.Outcome.next.inj hf)
    exact ⟨e', rfl, h⟩
  | succ r ih =>
    intro l e e' h hr hf
    have hset : SameSearch { e with s := l } { e' with s := l } := { h with }
    obtain ⟨g, hg, hf⟩ := andThen_eq_next.mp hf
    obtain ⟨g', hg', hsame, hhit, hat⟩ := hset.mfFind (p := l) (by simp only; omega) hg
    have hso := mfFind_searchOnly hg
    rw [Machine.encSearch, hg', andThen_next, hhit]
    split at hf
    · next hfound =>
      rw [if_pos hfound, ← hsame.window, hat hfound]
      split at hf
      · cases hf
      · next hfits =>
        rw [if_neg hfits]
        obtain ⟨i, hi, hf⟩ := andThen_eq_next.mp hf
        obtain ⟨i', hi', hgrown⟩ := hsame.encGrow (by rw [hso.pos, hso.ilen]; omega) (hat hfound) hi
        have hei := hso.trans (encGrow_spec hi).1
        rw [hi', andThen_next]
        exact ih hgrown (by rw [hei.pos, hei.ilen]; omega) hf
    · next hmiss =>
      obtain ⟨-, rfl⟩ := Prod.mk.inj (Host.Outcome.next.inj hf)
      rw [if_neg hmiss]
      exact ⟨g', rfl, hsame⟩

/-- A step begins with the same window and the same trivial code (41_encoder.md R102, R104). -/
theorem SameCourse.encTrivial (h : SameCourse e e') {w : Width} (hpos : e.pos < e.ilen)
    (hf : encTrivial (encWindow w e) = .next f) :
    ∃ f', encTrivial (encWindow w e') = .next f' ∧ SameSearch f f' := by
  obtain ⟨x, hx, hf⟩ := andThen_eq_next.mp hf
  obtain rfl := Host.Outcome.next.inj hf
  have hread : Machine.memRead .ibuf e'.ibuf e'.pos = .next x := by rw [← h.cursor, h.memRead hpos]; exact hx
  refine ⟨_, by rw [Machine.encTrivial, encWindow_ibuf, encWindow_pos, hread, andThen_next], ?_⟩
  exact { h with
    start := by simp only [encWindow_ws, h.cursor]
    window := by simp only [encWindow_n, h.cursor]
    lookahead := by simp only [encWindow_L, h.cursor, h.length]
    ends := (window_bounds w e.pos).1
    offset := rfl
    matched := rfl
    literal := rfl }

end

/-- The same code written after the same codes. -/
theorem SameBelow.writeCode {m m' : List (Nat × Field)} {k : Nat} (h : SameBelow (codeCells k) m m') (o l : Field)
    (lit : Symbol) : SameBelow (codeCells (k + 1)) (writeCode m k o l lit) (writeCode m' k o l lit) :=
  ((h.append o).append l).append (lit.setWidth 32)

/-- A code that fits the parameters is emitted (41_encoder.md R110). -/
theorem encEmit_of_fits {s : State} (h : EmitFits s.params (s.enc.clen + 1) (s.enc.pos + s.enc.bl.toNat + 1)) :
    encEmit s = .next { s with enc := { s.enc with
      cbuf := writeCode s.enc.cbuf s.enc.clen s.enc.bo s.enc.bl s.enc.bs
      clen := s.enc.clen + 1
      pos := s.enc.pos + s.enc.bl.toNat + 1 } } :=
  if_pos (Bool.and_eq_true_iff.mpr h)

section

variable {s s' t : State}

/-- The emission of the same code after the same codes (41_encoder.md R110). -/
theorem SameSearch.encEmit (h : SameSearch s.enc s'.enc) (hp : s.params = s'.params) (ht : encEmit s = .next t) :
    ∃ t', encEmit s' = .next t' ∧ SameCourse t.enc t'.enc := by
  obtain ⟨hfits, rfl⟩ := encEmit_spec ht
  rw [hp, h.count, h.cursor, h.matched] at hfits
  refine ⟨_, encEmit_of_fits hfits, ?_⟩
  have hcodes := h.codes.writeCode s.enc.bo s.enc.bl s.enc.bs
  exact { h with
    cursor := by simp only [h.cursor, h.matched]
    count := congrArg (· + 1) h.count
    codes := by simpa only [← h.offset, ← h.matched, ← h.literal, ← h.count] using hcodes }

/-- The step of the same call emits the same code (41_encoder.md R111). -/
theorem SameCourse.encStep (h : SameCourse s.enc s'.enc) (hp : s.params = s'.params) {w : Width}
    (hpos : s.enc.pos < s.enc.ilen) (ht : encStep w s = .next t) :
    ∃ t', encStep w s' = .next t' ∧ SameCourse t.enc t'.enc := by
  obtain ⟨e, he, ht⟩ := andThen_eq_next.mp ht
  obtain ⟨⟨b, f⟩, hf, ht⟩ := andThen_eq_next.mp ht
  obtain ⟨hwe, -, hc0⟩ := encTrivial_spec he
  obtain ⟨rfl, -⟩ := encSearch_spec (l := 0) (by rw [hwe.n]; exact (window_bounds w s.enc.pos).2) (Nat.zero_le _) hc0 hf
  obtain ⟨e', he', hstart⟩ := h.encTrivial hpos he
  have hlook : e.pos + 1 + (e.L - 1) ≤ e.ilen := by
    simp only [hwe.pos, hwe.L, hwe.ilen, encWindow_pos, encWindow_L, encWindow_ilen]
    omega
  obtain ⟨f', hf', hfound⟩ := hstart.encSearch hlook hf
  obtain ⟨t', ht', hsame⟩ := SameSearch.encEmit (s := { s with enc := f }) (s' := { s' with enc := f' }) hfound hp ht
  refine ⟨t', ?_, hsame⟩
  rw [Machine.encStep, he', andThen_next, ← hstart.lookahead, hf', andThen_next]
  exact ht'

/-- One transition of the same call is the same (43_commands.md R151). -/
theorem SameCourse.encTick (h : SameCourse s.enc s'.enc) (hp : s.params = s'.params) (ht : encTick s = .next t) :
    ∃ t', encTick s' = .next t' ∧ SameCourse t.enc t'.enc := by
  rcases encTick_cases ht with ⟨hb, hpos, w, hw, -⟩ | ⟨hb, hend, rfl⟩ | ⟨hb, rfl⟩
  · rw [encTick_of_running hb hpos hw] at ht
    rw [encTick_of_running (h.state ▸ hb) (h.cursor ▸ h.length ▸ hpos) (h.width ▸ hw)]
    exact h.encStep hp hpos ht
  · exact ⟨_, encTick_of_end (h.state ▸ hb) (h.cursor ▸ h.length ▸ hend), { h with state := rfl }⟩
  · exact ⟨s', encTick_of_not_busy (h.state ▸ hb), h⟩

end

/-! ## Two decoders with the same codes -/

section

variable {o l : Field} {lit : Symbol} {s s' t t' : State} {m m' : List Host.Cell}

/-- What a code spells is told by the cells below its position (42_decoder.md R122). -/
theorem Spells.unique {p : Nat} (h : Spells m p o l lit) (h' : Spells m' p o l lit) (hbelow : SameBelow p m m') :
    SameBelow (p + (l.toNat + 1)) m m' := by
  intro a ha
  rcases cell_of_code_cases ha with hlt | ⟨i, hi, rfl⟩ | rfl
  · exact hbelow a hlt
  · rw [h.periodic i hi, h'.periodic i hi]
    exact hbelow _ (h.source_lt hi)
  · rw [h.literal, h'.literal]

/-- A code that has run had its source cells below the position written. -/
theorem CodeRuns.source_written (h : CodeRuns o l lit s t m) {i : Nat} (hi : i < l.toNat)
    (hbelow : s.dec.pos - o.toNat + i < s.dec.pos) : ∃ v, Memory.read s.dec.obuf (s.dec.pos - o.toNat + i) = some v := by
  obtain ⟨v, hv⟩ := h.copied.written i hi
  rw [h.copied.fromSource i hi, h.copied.elsewhere _ (Or.inl hbelow)] at hv
  exact ⟨v, hv⟩

/-- An admitted code completes when its source cells below the position are written and the output has room. -/
theorem decCode_answers_of_sources (lit : Symbol) (hin : o.toNat ≤ s.dec.pos) (hnz : 0 < l.toNat → 0 < o.toNat)
    (hfit : OutputFits s.params (s.dec.pos + l.toNat + 1))
    (hw : ∀ i, i < l.toNat → s.dec.pos - o.toNat + i < s.dec.pos →
      ∃ v, Memory.read s.dec.obuf (s.dec.pos - o.toNat + i) = some v) :
    ∃ t m, decCode o l lit s = .next t ∧ CodeRuns o l lit s t m := by
  have hcompletes : ∃ t, decCode o l lit s = .next t := by
    rcases Nat.eq_zero_or_pos l.toNat with hl | hl
    · obtain rfl : l = 0 := BitVec.eq_of_toNat_eq hl
      exact ⟨_, decCode_of_zero_length lit hin hfit⟩
    · have ho := hnz hl
      obtain ⟨m, hm⟩ := copyFrom_answers_of_sources (by omega) hw
      exact decCode_of_copy hin ho hl hfit hm
  obtain ⟨t, ht⟩ := hcompletes
  rcases decCode_cases ht with ⟨hinv, -⟩ | ⟨m, hrun⟩
  · omega
  · exact ⟨t, m, ht, hrun⟩

/-- A code appends the same cells to two outputs that read the same below the position. -/
theorem CodeRuns.sameOutput (h : CodeRuns o l lit s t m) (h' : CodeRuns o l lit s' t' m') (hpos : s.dec.pos = s'.dec.pos)
    (hsame : SameBelow s.dec.pos s.dec.obuf s'.dec.obuf) :
    SameBelow (s.dec.pos + (l.toNat + 1)) t.dec.obuf t'.dec.obuf := by
  refine h.spells.unique (hpos ▸ h'.spells) fun a ha => ?_
  rw [h.elsewhere (Or.inl ha), h'.elsewhere (Or.inl (hpos ▸ ha)), hsame a ha]

/-- Two decoders at the same point of the same call: the same configuration, the same cells of the codes, the same cursors and the
same output so far. Nothing is said of the working registers or of the cells beyond (43_commands.md R151). -/
structure SameStream (d d' : Dec) : Prop where
  width : d.wsel = d'.wsel
  count : d.clen = d'.clen
  cells : SameBelow (codeCells d.clen) d.cbuf d'.cbuf
  state : d.state = d'.state
  cause : d.cause = d'.cause
  cursor : d.k = d'.k
  position : d.pos = d'.pos
  output : SameBelow d.pos d.obuf d'.obuf

/-- The cells of a code of the stream read alike. -/
theorem SameStream.read_cell {d d' : Dec} (h : SameStream d d') (hk : d.k < d.clen) {j : Nat} (hj : j < 3) {v : Field}
    (hv : Memory.read d.cbuf (cellIndex d.k j) = some v) : Memory.read d'.cbuf (cellIndex d'.k j) = some v := by
  rw [← h.cursor, ← h.cells _ (by simp only [cellIndex, codeCells]; omega), hv]

/-- One code of the same call raises or runs in both machines, with the same output (42_decoder.md R120, R122). -/
theorem SameStream.decCode (h : SameStream s.dec s'.dec) (hp : s.params = s'.params) (ht : decCode o l lit s = .next t) :
    ∃ t', decCode o l lit s' = .next t' ∧ SameStream t.dec t'.dec := by
  rcases decCode_cases ht with ⟨hinv, rfl⟩ | ⟨m, hrun⟩
  · exact ⟨_, decCode_raises (h.position ▸ hinv), { h with state := rfl, cause := rfl }⟩
  · have hsource : ∀ i, i < l.toNat → s'.dec.pos - o.toNat + i < s'.dec.pos →
        ∃ v, Memory.read s'.dec.obuf (s'.dec.pos - o.toNat + i) = some v := by
      rw [← h.position]
      intro i hi hbelow
      rw [← h.output _ hbelow]
      exact hrun.source_written hi hbelow
    obtain ⟨t', m', ht', hrun'⟩ := decCode_answers_of_sources lit (h.position ▸ hrun.inStream) hrun.nonzero
      (h.position ▸ hp ▸ hrun.fits) hsource
    have houtput := hrun.sameOutput hrun' h.position h.output
    refine ⟨t', ht', ?_⟩
    obtain rfl := hrun.result
    obtain rfl := hrun'.result
    exact { h with
      cursor := congrArg (· + 1) h.cursor
      position := congrArg (· + l.toNat + 1) h.position
      output := houtput }

/-- One transition of the same call is the same (43_commands.md R151). -/
theorem SameStream.decTick (h : SameStream s.dec s'.dec) (hp : s.params = s'.params) (ht : decTick s = .next t) :
    ∃ t', decTick s' = .next t' ∧ SameStream t.dec t'.dec := by
  rcases decTick_cases ht with ⟨hb, hk, w, o, l, c, hw, ho, hl, hc, hlit, hcode⟩ | ⟨hb, hk, rfl⟩ | ⟨hb, rfl⟩
  · rw [decTick_of_reads (h.state ▸ hb) (h.cursor ▸ h.count ▸ hk) (h.width ▸ hw) (h.read_cell hk (by decide) ho)
      (h.read_cell hk (by decide) hl) (h.read_cell hk (by decide) hc), ← h.cursor, if_neg (Nat.not_lt.mpr hlit)]
    exact h.decCode hp hcode
  · exact ⟨_, decTick_of_end (h.state ▸ hb) (h.cursor ▸ h.count ▸ hk), { h with state := rfl }⟩
  · exact ⟨s', decTick_of_not_busy (h.state ▸ hb), h⟩

end

/-! ## The statements -/

/-- Settles O40: the calls start at the same point, and `SameCourse` is carried along by every transition. -/
theorem encodeDependsOnlyOnItsInput : Obligations.EncodeDependsOnlyOnItsInput := by
  intro s s' t k hp hwidth hlength hinput hrun
  have hstart : SameCourse (beginCall .enc s).enc (beginCall .enc s').enc :=
    ⟨hwidth, hlength, hinput, rfl, rfl, rfl, rfl, fun _ ha => absurd ha (Nat.not_lt_zero _)⟩
  obtain ⟨t', hrun', h⟩ := runAgent_carries (a := .enc) (R := fun s s' => SameCourse s.enc s'.enc)
    (fun _ _ ht => by rw [encTick_frame ht]) (fun _ _ _ h hp ht => h.encTick hp ht) k hstart hp hrun
  exact ⟨t', hrun', h.state.symm, h.cause.symm, h.cursor.symm, h.count.symm, fun _ => h.codes.symm⟩

/-- Settles O41: the calls start at the same point, and `SameStream` is carried along by every transition. -/
theorem decodeDependsOnlyOnItsInput : Obligations.DecodeDependsOnlyOnItsInput := by
  intro s s' t k hp hwidth hcount hcells hrun
  have hstart : SameStream (beginCall .dec s).dec (beginCall .dec s').dec :=
    ⟨hwidth, hcount, hcells, rfl, rfl, rfl, rfl, fun _ ha => absurd ha (Nat.not_lt_zero _)⟩
  obtain ⟨t', hrun', h⟩ := runAgent_carries (a := .dec) (R := fun s s' => SameStream s.dec s'.dec)
    (fun _ _ ht => by rw [decTick_frame ht]) (fun _ _ _ h hp ht => h.decTick hp ht) k hstart hp hrun
  exact ⟨t', hrun', h.state.symm, h.cause.symm, h.position.symm, h.cursor.symm, fun _ => h.output.symm⟩

/-- Settles O35: a turn is the agent's transition (`step_of_turn`); a step of a running call leaves the unit busy or in error, and
the invariant keeps the cursor from passing the end. -/
theorem callEndsExactlyAtItsEnd : Obligations.CallEndsExactlyAtItsEnd := by
  refine ⟨fun s h => step_of_turn h, fun s h => step_of_turn h, fun a rest s => nextAgent_of_schedule, ?_, ?_, ?_, ?_⟩
  · intro s h hd
    rw [nextAgent_of_unscheduled h, if_pos hd]
  · intro s h hd he
    rw [nextAgent_of_unscheduled h, if_neg hd, if_pos he]
  · intro s t hs hb h
    rcases encTick_cases h with ⟨-, hpos, w, -, f, l, hstep⟩ | ⟨-, hend, rfl⟩ | ⟨hnb, -⟩
    · have hgoes : t.enc.state ≠ .done := by
        rw [hstep.result]
        simp [hstep.search.state, hb]
      exact ⟨iff_of_false hgoes (Nat.ne_of_lt hpos), fun hdone => absurd hdone hgoes⟩
    · exact ⟨iff_of_true rfl (Nat.le_antisymm (hs.enc.busyPos hb) hend), fun _ => rfl⟩
    · exact absurd hb hnb
  · intro s t hs hb h
    rcases decTick_cases h with ⟨-, hk, w, o, l, c, -, -, -, -, -, hcode⟩ | ⟨-, hend, rfl⟩ | ⟨hnb, -⟩
    · have hgoes : t.dec.state ≠ .done := by
        rcases decCode_cases hcode with ⟨-, rfl⟩ | ⟨m, hrun⟩
        · simp
        · rw [hrun.result]
          simp [hb]
      exact ⟨iff_of_false hgoes (Nat.ne_of_lt hk), fun hdone => absurd hdone hgoes⟩
    · exact ⟨iff_of_true rfl (Nat.le_antisymm (hs.dec.busyCursor hb) hend), fun _ => rfl⟩
    · exact absurd hb hnb

/-- Settles O57: a move that starts no call changes no result (`hostMove_starts_or_loads`), and a call's start changes no more
than its own unit's cursors and state. -/
theorem hostNeverWritesAnOutputBuffer : Obligations.HostNeverWritesAnOutputBuffer := by
  intro m s t hm h
  rcases hostMove_starts_or_loads hm h with ⟨u, rfl, rfl⟩ | ht
  · cases u with
    | enc => exact ⟨rfl, rfl, rfl, rfl, rfl, fun hne => absurd rfl hne, fun _ => ⟨rfl, rfl, rfl, rfl⟩⟩
    | dec => exact ⟨rfl, rfl, rfl, rfl, rfl, fun _ => ⟨rfl, rfl, rfl, rfl⟩, fun hne => absurd rfl hne⟩
  · rw [ht]
    exact ⟨rfl, rfl, rfl, rfl, rfl, fun _ => ⟨rfl, rfl, rfl, rfl⟩, fun _ => ⟨rfl, rfl, rfl, rfl⟩⟩

/-- Settles O7: with a width the command answers by the capacity alone. -/
theorem encodeStartsACall : Obligations.EncodeStartsACall := by
  intro s w hb hw hcap
  exact (execEncode_of_width hb hw).trans (if_pos hcap)

/-- Settles O8: with a width the command answers by the capacity alone. -/
theorem decodeStartsACall : Obligations.DecodeStartsACall := by
  intro s w hb hw hcap
  exact (execDecode_of_width hb hw).trans (if_pos hcap)

/-- Settles O9: the write runs the command, and each command checks `BUSY` first. -/
theorem commandWhileBusyIsIgnored : Obligations.CommandWhileBusyIsIgnored := by
  refine ⟨fun u s hb hv => ?_, fun s => execEncode_of_busy, fun s => execDecode_of_busy⟩
  rw [hostMove_writeCmd u hv]
  cases u with
  | enc => exact execEncode_of_busy hb
  | dec => exact execDecode_of_busy hb

/-- Settles O10: `WSEL = 3` selects no width. -/
theorem reservedWidthIsRefused : Obligations.ReservedWidthIsRefused := by
  refine ⟨fun s hb hw => ?_, fun s hb hw => ?_⟩
  · simp only [exec, execEncode, hb, if_false, hw, widthOf_reserved]
  · simp only [exec, execDecode, hb, if_false, hw, widthOf_reserved]

/-- Settles O11: the word 0 runs `NOP` on either unit (`hostMove_writeCmd`). -/
theorem nopHasNoEffect : Obligations.NopHasNoEffect := by
  refine ⟨fun s => rfl, fun s => rfl, fun u s hv => ?_⟩
  rw [hostMove_writeCmd u hv]
  cases u <;> rfl

/-- Settles O13: a command that completes starts a call of its unit or changes nothing (`runWord_command`). -/
theorem commandsChangeOnlyTheirUnit : Obligations.CommandsChangeOnlyTheirUnit := by
  refine ⟨fun s t h => ?_, fun s t h => ?_⟩
  · rcases runWord_command (u := .enc) (v := 1) h with rfl | ⟨-, -, rfl, -⟩ <;> rfl
  · rcases runWord_command (u := .dec) (v := 1) h with rfl | ⟨-, -, rfl, -⟩ <;> rfl

/-- Settles O44: the host's turn is its oldest move (`step_of_move`), and a command's write runs what it decodes to. -/
theorem stepRunsTheCommandWritten : Obligations.StepRunsTheCommandWritten := by
  refine ⟨?_, fun s m rest => step_of_move, fun s => step_of_no_move, ?_⟩
  · intro s u v rest i h hp hv hi
    have hword : withinPosw { s with pending := rest, schedule := s.schedule.tail }.params v = true := hv
    rw [step_of_move h hp, hostMove_writeCmd u hword, runWord_of_decode hi]
  · intro s h hd he
    rw [nextAgent_of_unscheduled h, if_neg hd, if_neg he]

/-- Settles O51: `STATUS` is the one register read alike at any time (`hostReadReg_status`). -/
theorem statusReadHasNoSideEffect : Obligations.StatusReadHasNoSideEffect :=
  fun s => ⟨hostReadReg_status .enc s, hostReadReg_status .dec s⟩

end Sys2Proof.Machine
end

section
/-! SUPPORT. The proofs of 60_exceptions.md: what a raise does, where a failed step leaves the decoder, and what leaves
`ERROR`. -/

namespace Sys2Proof.Machine

/-! ## A failed step of the decoder -/

/-- A transition that takes a busy decoder into `ERROR` is one code that is not admitted: a code that runs leaves the unit busy,
and the end of the call leaves it `DONE` (60_exceptions.md R158). -/
theorem decTick_failed {s t : State} (hb : s.dec.state = .busy) (h : decTick s = .next t) (herr : t.dec.state = .error) :
    ∃ (w : Width) (o l c : Field), widthOf s.dec.wsel = some w ∧
      Memory.read s.dec.cbuf (cellIndex s.dec.k 0) = some o ∧ Memory.read s.dec.cbuf (cellIndex s.dec.k 1) = some l ∧
      offsetInvalid s.dec.pos (narrowCell w (cellIndex s.dec.k 0) o).toNat
        (narrowCell w (cellIndex s.dec.k 1) l).toNat = true ∧
      t = raise .dec .invalidOffset { s with
        dec := decLoad (narrowCell w (cellIndex s.dec.k 0) o) (narrowCell w (cellIndex s.dec.k 1) l)
          ((narrowCell w (cellIndex s.dec.k 2) c).setWidth 8) s.dec } := by
  rcases decTick_cases h with ⟨-, -, w, o, l, c, hw, ho, hl, -, -, hcode⟩ | ⟨-, -, rfl⟩ | ⟨hnb, -⟩
  · rcases decCode_cases hcode with ⟨hinv, ht⟩ | ⟨m, hrun⟩
    · exact ⟨w, o, l, c, hw, ho, hl, offsetInvalid_eq_true.mpr hinv, ht⟩
    · have hbusy : t.dec.state = .busy := by
        rw [hrun.result]
        exact hb
      cases hbusy.symm.trans herr
  · cases herr
  · exact absurd hb hnb

/-! ## A unit in `ERROR` -/

section
variable {u : UnitId} {s t : State}

/-- A transition of the encoder leaves no unit's `ERROR`: the encoder in `ERROR` holds its state, and it never changes the
decoder (60_exceptions.md R159). -/
theorem encTick_keeps_error (h : encTick s = .next t) (herr : s.runState u = .error) : t.runState u = .error := by
  cases u with
  | enc =>
    have hb : s.enc.state ≠ .busy := fun hb => by cases herr.symm.trans hb
    obtain rfl := Host.Outcome.next.inj ((encTick_of_not_busy hb).symm.trans h)
    exact herr
  | dec =>
    rw [encTick_frame h]
    exact herr

/-- A transition of the decoder leaves no unit's `ERROR`: the decoder in `ERROR` holds its state, and it never changes the
encoder (60_exceptions.md R159). -/
theorem decTick_keeps_error (h : decTick s = .next t) (herr : s.runState u = .error) : t.runState u = .error := by
  cases u with
  | enc =>
    rw [decTick_frame h]
    exact herr
  | dec =>
    have hb : s.dec.state ≠ .busy := fun hb => by cases herr.symm.trans hb
    obtain rfl := Host.Outcome.next.inj ((decTick_of_not_busy hb).symm.trans h)
    exact herr

/-- The start of a call takes no unit but its own out of `ERROR` (00_scope.md R3). -/
theorem beginCall_leaves_error {v : UnitId} (herr : s.runState u = .error) (hleft : (beginCall v s).runState u ≠ .error) :
    v = u := by
  cases v <;> cases u
  · rfl
  · exact absurd herr hleft
  · exact absurd herr hleft
  · rfl

/-- The host's moves that take a unit out of `ERROR`: the command to that unit, and reset (60_exceptions.md R162). -/
theorem hostMove_leaves_error {m : HostMove} (h : hostMove m s = .next t) (herr : s.runState u = .error)
    (hleft : t.runState u ≠ .error) : (m = .writeReg u 1 1 ∧ t = beginCall u s) ∨ (m = .reset ∧ t = resetUnits s) := by
  by_cases hm : m = .reset
  · subst hm
    exact Or.inr ⟨rfl, (Host.Outcome.next.inj h).symm⟩
  · rcases hostMove_starts_or_loads hm h with ⟨v, hmove, rfl⟩ | ht
    · obtain rfl := beginCall_leaves_error herr hleft
      exact Or.inl ⟨hmove, rfl⟩
    · have hkept : t.runState u = s.runState u := by
        rw [ht]
        cases u <;> rfl
      exact absurd (hkept.trans herr) hleft

end

/-! ## The statements -/

/-- Settles O24: a step fails only by a code that is not admitted (`decTick_failed`), and what the raise and the load of the code
leave is read off the state they answer. -/
theorem failedStepLeavesTheCursors : Obligations.FailedStepLeavesTheCursors := by
  intro s t hb h herr
  obtain ⟨w, o, l, c, hw, ho, hl, hinv, rfl⟩ := decTick_failed hb h herr
  exact ⟨rfl, rfl, rfl, rfl, rfl, rfl, rfl, w, o, l, hw, ho, hl, hinv⟩

/-- Settles O25, by whose turn the step is: neither unit's transition leaves `ERROR`, and of the host's moves only two do
(`hostMove_leaves_error`). -/
theorem errorIsLeftOnlyByCommandOrReset : Obligations.ErrorIsLeftOnlyByCommandOrReset := by
  intro u s t h herr hleft
  rcases step_cases h with ⟨-, h⟩ | ⟨-, h⟩ | ⟨-, -, rfl⟩ | ⟨hturn, m, rest, hp, h⟩
  · exact absurd (encTick_keeps_error h herr) hleft
  · exact absurd (decTick_keeps_error h herr) hleft
  · exact absurd herr hleft
  · refine ⟨hturn, rest, ?_⟩
    rcases hostMove_leaves_error h herr hleft with ⟨rfl, ht⟩ | ⟨rfl, ht⟩
    · exact Or.inl ⟨hp, ht⟩
    · exact Or.inr ⟨hp, ht⟩

/-- Settles O23: a raise writes the fields named, and the unit, in `ERROR`, holds its state from then on. -/
theorem raiseRecordsTheCauseAndStops : Obligations.RaiseRecordsTheCauseAndStops := by
  intro c s
  have henc : (raise .enc c s).enc.state ≠ .busy := by simp
  have hdec : (raise .dec c s).dec.state ≠ .busy := by simp
  exact ⟨rfl, rfl, encTick_of_not_busy henc, decTick_of_not_busy hdec⟩

end Sys2Proof.Machine
end

section
/-! SUPPORT. The proofs of 70_reset_and_hazards.md: the units' transitions commute, and a unit keeps the input it was loaded
with. -/

namespace Sys2Proof.Machine

section
variable {s a b t : State}

/-- A transition of each unit, in either order, leads to one and the same state: each leaves what the other one's transition
depends on (70_reset_and_hazards.md R190, 00_scope.md R3). -/
theorem encTick_decTick_diamond (ha : encTick s = .next a) (hb : decTick s = .next b) :
    ∃ t, decTick a = .next t ∧ encTick b = .next t := by
  have haframe : a = { s with enc := a.enc } := encTick_frame ha
  have hbframe : b = { s with dec := b.dec } := decTick_frame hb
  refine ⟨{ s with enc := a.enc, dec := b.dec }, ?_, ?_⟩
  · rw [haframe]
    exact decTick_transfer hb rfl rfl
  · rw [hbframe]
    exact encTick_transfer_sameParams ha rfl rfl

/-- The encoder keeps its configuration and its input: a step changes only the search's registers beside the output and the
cursors (43_commands.md R147). -/
theorem encTick_keeps_input (h : encTick s = .next t) :
    t.enc.wsel = s.enc.wsel ∧ t.enc.ibuf = s.enc.ibuf ∧ t.enc.ilen = s.enc.ilen := by
  rcases encTick_cases h with ⟨-, -, w, -, f, l, hstep⟩ | ⟨-, -, rfl⟩ | ⟨-, rfl⟩
  · rw [hstep.result]
    exact ⟨hstep.search.wsel, hstep.search.ibuf, hstep.search.ilen⟩
  · exact ⟨rfl, rfl, rfl⟩
  · exact ⟨rfl, rfl, rfl⟩

/-- A code, admitted or not, leaves the decoder's configuration and the code stream (43_commands.md R147). -/
theorem decCode_keeps_input {o l : Field} {lit : Symbol} (h : decCode o l lit s = .next t) :
    t.dec.wsel = s.dec.wsel ∧ t.dec.cbuf = s.dec.cbuf ∧ t.dec.clen = s.dec.clen := by
  rcases decCode_cases h with ⟨-, rfl⟩ | ⟨m, hrun⟩
  · exact ⟨rfl, rfl, rfl⟩
  · rw [hrun.result]
    exact ⟨rfl, rfl, rfl⟩

/-- The decoder keeps its configuration and the code stream it was loaded with (43_commands.md R147). -/
theorem decTick_keeps_input (h : decTick s = .next t) :
    t.dec.wsel = s.dec.wsel ∧ t.dec.cbuf = s.dec.cbuf ∧ t.dec.clen = s.dec.clen := by
  rcases decTick_cases h with ⟨-, -, w, o, l, c, -, -, -, -, -, hcode⟩ | ⟨-, -, rfl⟩ | ⟨-, rfl⟩
  · exact decCode_keeps_input hcode
  · exact ⟨rfl, rfl, rfl⟩
  · exact ⟨rfl, rfl, rfl⟩

end

/-! ## The statements -/

/-- Settles O42: the two orders meet in one state (`encTick_decTick_diamond`), so that even the output of a failed call, of which
nothing is asked, is the same. -/
theorem unitsCommute : Obligations.UnitsCommute := by
  intro s a b ha hb
  obtain ⟨t, hdec, henc⟩ := encTick_decTick_diamond ha hb
  exact ⟨t, t, hdec, henc, SameEncResult.refl _, SameDecResult.refl _, rfl⟩

/-- Settles O56: each unit's transition keeps its input and everything outside the unit, and a unit not busy holds its state. -/
theorem unitsNeverChangeTheirInputs : Obligations.UnitsNeverChangeTheirInputs := by
  refine ⟨fun s t h => ?_, fun s t h => ?_, fun s => encTick_of_not_busy, fun s => decTick_of_not_busy⟩
  · obtain ⟨hwsel, hibuf, hilen⟩ := encTick_keeps_input h
    exact ⟨hwsel, hibuf, hilen, encTick_frame h⟩
  · obtain ⟨hwsel, hcbuf, hclen⟩ := decTick_keeps_input h
    exact ⟨hwsel, hcbuf, hclen, decTick_frame h⟩

end Sys2Proof.Machine
end
